-- ==== Sys2Proof/Word.lean ====
section
/-! DEFINITION. The word type of the block: rule R8 of 00_scope.md fixes 64 bits. -/

namespace Sys2Proof

/-- One 64-bit word: a buffer word, a command word, a response data word (R8, R18). -/
abbrev Word := BitVec 64

end Sys2Proof
end

