-- ==== Sys2Proof/Syntax.lean ====
section
/-! DEFINITION. The seven host commands (R11 of 00_scope.md, R96 of 30_encoding.md): one constructor per row of
spec/opcode_table.json. The eight micro-operations have no encoding and no constructor. -/

namespace Sys2Proof

/-- A decoded command. Operands are unsigned numbers "exactly as they stand" (R92). -/
inductive Instr where
  /-- `NEW.DEAD w, h` (R122). -/
  | newDead (w h : Nat)
  /-- `NEW.TORUS w, h` (R123). -/
  | newTorus (w h : Nat)
  /-- `STEP` (R203). -/
  | step
  /-- `GETCELL x, y` (R125). -/
  | getCell (x y : Nat)
  /-- `LIVE` (R126). -/
  | live
  /-- `GETGEN` (R211). -/
  | getGen
  /-- `STATUS` (R212). -/
  | status
  deriving DecidableEq, Repr

/-- A symbol of the cell stream of `NEW.*` (R94). -/
inductive CellSym where
  | cell0 | cell1 | eor | eom
  deriving DecidableEq, Repr

/-- The 2-bit code of a cell symbol (R94). -/
def CellSym.code : CellSym → BitVec 2
  | .cell0 => 0b00
  | .cell1 => 0b01
  | .eor   => 0b10
  | .eom   => 0b11

end Sys2Proof
end

