-- ==== Sys2Proof/WellFormed.lean ====
section
/-! DEFINITION. When a command term has an encoding: each operand of format AB fits its 28-bit field (R91 of
30_encoding.md). -/

namespace Sys2Proof

/-- An operand fits a 28-bit field (R91). -/
def operandFits (n : Nat) : Bool := n < 2 ^ 28

/-- The command has an encoding: its operands are in `[0, 2^28 - 1]` (R91, R100). -/
def WellFormed : Instr → Bool
  | .newDead w h  => operandFits w && operandFits h
  | .newTorus w h => operandFits w && operandFits h
  | .step         => true
  | .getCell x y  => operandFits x && operandFits y
  | .live         => true
  | .getGen       => true
  | .status       => true

end Sys2Proof
end

