-- ==== Sys2Proof/Decode.lean ====
section
/-! DEFINITION. Decoding a command word and encoding a command, from the field table R91, the opcode map R96 and
the illegal words R97 of 30_encoding.md. -/

namespace Sys2Proof

/-- Why a word is illegal (R97). -/
inductive Illegal where
  /-- R97 (a): `op` is none of the seven. -/
  | unknownOpcode
  /-- R97 (b): a Z-format command with a non-zero `a` or `b`. -/
  | nonzeroOperand
  deriving DecidableEq, Repr

/-- What the decoder reads from a word. -/
inductive Decoded where
  | instr (i : Instr)
  | illegal (r : Illegal)
  deriving DecidableEq, Repr

/-- Bits 63:56 (R91). -/
def opField (c : Word) : BitVec 8 := c.extractLsb' 56 8
/-- Bits 55:28 (R91). -/
def aField (c : Word) : BitVec 28 := c.extractLsb' 28 28
/-- Bits 27:0 (R91). -/
def bField (c : Word) : BitVec 28 := c.extractLsb' 0 28

/-- Format Z: `a` and `b` must both be 0 (R91, R97 (b)). -/
def zFormat (c : Word) (i : Instr) : Decoded :=
  if aField c = 0 ∧ bField c = 0 then .instr i else .illegal .nonzeroOperand

/-- The decoder: total, every word is one command or illegal (R96, R97). -/
def decode (c : Word) : Decoded :=
  if opField c = 0x01 then .instr (.newDead (aField c).toNat (bField c).toNat)
  else if opField c = 0x02 then .instr (.newTorus (aField c).toNat (bField c).toNat)
  else if opField c = 0x10 then zFormat c .step
  else if opField c = 0x20 then .instr (.getCell (aField c).toNat (bField c).toNat)
  else if opField c = 0x21 then zFormat c .live
  else if opField c = 0x22 then zFormat c .getGen
  else if opField c = 0x23 then zFormat c .status
  else .illegal .unknownOpcode

/-- The opcode of a command (R96). -/
def opcodeOf : Instr → BitVec 8
  | .newDead _ _  => 0x01
  | .newTorus _ _ => 0x02
  | .step         => 0x10
  | .getCell _ _  => 0x20
  | .live         => 0x21
  | .getGen       => 0x22
  | .status       => 0x23

/-- Operand `a` of a command, 0 in format Z (R91). -/
def operandA : Instr → Nat
  | .newDead w _  => w
  | .newTorus w _ => w
  | .step         => 0
  | .getCell x _  => x
  | .live         => 0
  | .getGen       => 0
  | .status       => 0

/-- Operand `b` of a command, 0 in format Z (R91). -/
def operandB : Instr → Nat
  | .newDead _ h  => h
  | .newTorus _ h => h
  | .step         => 0
  | .getCell _ y  => y
  | .live         => 0
  | .getGen       => 0
  | .status       => 0

/-- The command word of a command: `{op, a, b}` (R91). -/
def encode (i : Instr) : Word :=
  opcodeOf i ++ BitVec.ofNat 28 (operandA i) ++ BitVec.ofNat 28 (operandB i)

/-- What the decoder reads from the opcode table's numbering of a word: a command is one 64-bit word, bit 0 its
least significant bit, in the table and in R91 alike. Bits at `nbits` and above are 0. Log 17. -/
def decodeTableWord (nbits w : Nat) : Option Instr :=
  match decode (BitVec.ofNat 64 (w % 2 ^ nbits)) with
  | .instr i   => some i
  | .illegal _ => none

end Sys2Proof
end

