-- ==== Sys2Proof/Config.lean ====
section
/-! DEFINITION. What an implementation fixes (elaboration parameters, rules R6 and R7 of 00_scope.md) and the
free values of the spec's draws (R18), as opaque constants without a body. -/

namespace Sys2Proof.Config

/-- A lane width: R29 of 10_state.md admits 1, 4, 8 and 16 and no other value. -/
inductive LaneWidth where
  | x1 | x4 | x8 | x16
  deriving DecidableEq, Repr, Inhabited

/-- `LANES`, the lane widths an implementation exposes: a subset of {1, 4, 8, 16} that contains 1 (R7). -/
structure LaneSet where
  has4  : Bool
  has8  : Bool
  has16 : Bool
  deriving DecidableEq, Repr, Inhabited

/-- `NPLANES`, 3 or 4 count bit-planes (R7; C2 of 90_conflicts.md). -/
inductive PlaneCount where
  | three | four
  deriving DecidableEq, Repr, Inhabited

/-- The elaboration parameters, fixed when the hardware is built (R6, R7). Carried in `State.hw`, log 3. -/
structure Hardware where
  /-- `T`, the number of workers. -/
  workers : Nat
  /-- `LANES`. -/
  lanes   : LaneSet
  /-- `NPLANES`. -/
  planes  : PlaneCount
  /-- `CAP`, 64-bit words per buffer; `none` is unbounded, the default (R6). -/
  cap     : Option Nat
  deriving DecidableEq, Repr, Inhabited

/-- The two draws of one `DETECT` (R150 of 41_hardware_profile.md): whether calibration errors, and which of the
exposed widths measured fastest, as a number taken modulo the number of exposed widths. Log 4. -/
structure CalDraw where
  calError : Bool
  pick     : Nat
  deriving DecidableEq, Repr, Inhabited

/-- One event of the `RUNNING` phase (R202 of 43_step_scheduler.md, R236 of 60_exceptions.md). An event that
its worker cannot take is passed over. Log 5. -/
inductive WorkerEvent where
  /-- Worker `c` takes the `k`-th of the batches it may choose next. -/
  | batch (c k : Nat)
  /-- The fault environment fails the task of worker `c`. -/
  | fail (c : Nat)
  /-- Worker `c`, with no word left, ends its task. -/
  | finish (c : Nat)
  deriving DecidableEq, Repr, Inhabited

/-- Free: the number of workers beyond the first (R7: `T >= 1`; D12: `T <= 2^32`). Log 3. -/
opaque extraWorkers : Nat
/-- Free: the lane widths exposed beside 1 (R7). Log 3. -/
opaque exposedLanes : LaneSet
/-- Free: `NPLANES` (R7). Log 3. -/
opaque planeCount : PlaneCount
/-- Free: `CAP` (R6). Log 3. -/
opaque capacity : Option Nat

/-- The machine's elaboration parameters: every legal value and only those (R7). Log 3. -/
def hardware : Hardware :=
  { workers := extraWorkers % 2 ^ 32 + 1, lanes := exposedLanes, planes := planeCount, cap := capacity }

/-- Free: the `n`-th calibration draw (U3, U4 of 93_implementation_defined.md). Log 4. -/
opaque freeCalDraw : Nat → CalDraw
/-- Free: the `n`-th worker draw, order of batches and failures (U1, U2, U5). Log 4. -/
opaque freeWorkerDraw : Nat → List WorkerEvent

end Sys2Proof.Config
end

