-- ==== Sys2Proof/Machine/State.lean ====
section
/-! DEFINITION. The state of the block as plain data: the control registers, the two buffers and the transient
sequencer registers of 10_state.md, the host port of 30_encoding.md, and the model's own fields (elaboration
parameters and draws). -/

namespace Sys2Proof.Machine

open Sys2Proof.Config

/-- `STATE` (R25), the five values ever held. -/
inductive EngineState where
  | uninitialized | calibrating | ready | stepping | terminated
  deriving DecidableEq, Repr

/-- `CFG.BP` (R28): the boundary policy. -/
inductive Boundary where
  | dead | torus
  deriving DecidableEq, Repr

/-- `CFG` (R28). -/
structure Cfg where
  w  : BitVec 28
  h  : BitVec 28
  bp : Boundary
  deriving DecidableEq, Repr

/-- `PROF` (R29, R30). -/
structure Profile where
  l  : LaneWidth
  fb : Bool
  deriving DecidableEq, Repr

/-- `PHASE` (R23). -/
inductive Phase where
  | ghosting | running | joined
  deriving DecidableEq, Repr

/-- The transient registers of one worker `c` (R23): `PEND[c]`, a set of pairs `(r, j)` held as a list in
row-major order without repeats, `DONE[c]`, `FAIL[c]`. -/
structure WorkerRegs where
  pend : List (Nat × Nat)
  done : Bool
  fail : Bool
  deriving DecidableEq, Repr

/-- The transient sequencer registers (R23); entry `c` of `workers` belongs to chunk `c`. -/
structure Sequencer where
  phase   : Phase
  workers : List WorkerRegs
  deriving DecidableEq, Repr

/-- One buffer (R34, R60): word index and 64-bit word, in canonical form (`Memory.wf`). Words, not bytes: log 1. -/
abbrev Memory := List (Nat × Word)

/-- `BUF[0]` and `BUF[1]` (R34). -/
structure Buffers where
  buf0 : Memory
  buf1 : Memory
  deriving DecidableEq, Repr

/-- A response record (R93). -/
structure Response where
  code : BitVec 8
  data : Word
  deriving DecidableEq, Repr

/-- A command without its response yet (R90): a `NEW.*` whose cell stream has not ended, with the symbols taken so
far (R94), or a `LIVE` whose host has not accepted the whole coordinate stream (R268), with no symbols. -/
structure Outstanding where
  instr : Instr
  cells : List CellSym
  deriving DecidableEq, Repr

/-- What the host does at the port (R16, R268), in the order it does it. Log 6. -/
inductive HostAction where
  /-- The host asserts `RST` (R260). -/
  | rst
  /-- The host presents a command word (R90) and accepts the words of a coordinate stream as they come (R268). -/
  | cmd (w : Word)
  /-- The host presents a command word and accepts the first `k` words of its coordinate stream, withholding itself
  from the rest (R268). Log 15. -/
  | cmdHold (w : Word) (k : Nat)
  /-- The host accepts up to `k` further words of a coordinate stream (R268). Log 15. -/
  | accept (k : Nat)
  /-- The host sends one cell-stream symbol (R94). -/
  | sym (c : CellSym)
  /-- The host presents a command word and asserts `RST` before the response; `k` words of a coordinate stream
  have left the block by then (R261). Log 9. -/
  | cmdRst (w : Word) (k : Nat)
  deriving DecidableEq, Repr

/-- Why the machine stops with a fault. -/
inductive Fault where
  /-- Raised by `STEP`, `GETCELL` and `LIVE` when `STATE` accepts them and no buffer exists (U7). Safe: no run
  reaches such a state, because a buffer exists from the first successful `NEW.*` until reset. Log 2. -/
  | buffersAbsent
  deriving DecidableEq, Repr

/-- Why a step has no meaning. -/
inductive Refusal where
  /-- Raised by an arm of `exec` for an instruction without a meaning. Safe. No arm raises it. -/
  | notModelled (mnemonic : String)
  /-- Raised by `STEP` in `Ready` at `GEN = 2^64 - 1`, which U9 says to refuse. Safe. Log 11. -/
  | generationLimit
  /-- Raised by the port when the host sends a cell symbol and no `NEW.*` is outstanding; R268 gives such a session
  no meaning. Safe. Log 8. -/
  | unsolicitedSymbol
  deriving DecidableEq, Repr

/-- The whole state. -/
structure State where
  /-- `STATE` (R25). -/
  state       : EngineState
  /-- `GEN` (R26). -/
  gen         : BitVec 64
  /-- `SEL` (R27): `false` is 0, `BUF[0]` is `current`. -/
  sel         : Bool
  /-- `CFG` (R28). -/
  cfg         : Cfg
  /-- `PROF` (R29, R30). -/
  prof        : Profile
  /-- `ERR` (R31). -/
  err         : BitVec 8
  /-- `ERRCHUNK` (R32). -/
  errChunk    : BitVec 32
  /-- `BUF[0]`, `BUF[1]` (R34), absent until a successful `NEW.*` (U7). -/
  bufs        : Option Buffers
  /-- The transient sequencer registers (R23), absent outside `Stepping`. -/
  seq         : Option Sequencer
  /-- Host actions the block has not taken yet (R90). -/
  inbox       : List HostAction
  /-- The command that waits for the host: a `NEW.*` for the rest of its cell stream (R94), a `LIVE` for the rest of
  its coordinate stream to be accepted (R268). -/
  outstanding : Option Outstanding
  /-- The words of the coordinate stream of the last transaction, or of the one in progress, that have left the block
  (R95). -/
  stream      : List Word
  /-- The response record of the last transaction (R93). -/
  resp        : Option Response
  /-- Elaboration parameters (R6, R7): constant. -/
  hw          : Hardware
  /-- Calibration draws the environment has made (R150). -/
  calDraws    : List CalDraw
  /-- Worker draws the environment has made (R202, R236). -/
  workerDraws : List (List WorkerEvent)
  /-- How many free draws have been taken. -/
  drawCount   : Nat
  deriving DecidableEq, Repr

/-- The block right after reset: the table of section 8 of 10_state.md. The port fields are empty (log 6), no
draw is queued (log 4), and the elaboration parameters are the opaque ones (log 3). -/
def State.reset : State :=
  { state := .uninitialized, gen := 0, sel := false, cfg := { w := 0, h := 0, bp := .dead },
    prof := { l := .x1, fb := false }, err := 0x00, errChunk := 0, bufs := none, seq := none,
    inbox := [], outstanding := none, stream := [], resp := none,
    hw := Config.hardware, calDraws := [], workerDraws := [], drawCount := 0 }

end Sys2Proof.Machine
end

