-- ==== Sys2Proof/Machine/Flags.lean ====
section
/-! DEFINITION. The codes of the control registers (R25, R28, R29, R23) and the status word (R98). The block has no
arithmetic condition codes (R24). -/

namespace Sys2Proof.Machine

open Sys2Proof.Config

/-- The 3-bit code of `STATE` (R25). -/
def stateCode : EngineState → BitVec 3
  | .uninitialized => 0
  | .calibrating   => 1
  | .ready         => 2
  | .stepping      => 3
  | .terminated    => 4

/-- The 1-bit code of `CFG.BP` (R28). -/
def boundaryCode : Boundary → BitVec 1
  | .dead  => 0
  | .torus => 1

/-- The lane width as a number (R29). -/
def laneNat : LaneWidth → Nat
  | .x1  => 1
  | .x4  => 4
  | .x8  => 8
  | .x16 => 16

/-- The 5-bit value of `PROF.L` (R29). -/
def laneCode (l : LaneWidth) : BitVec 5 := BitVec.ofNat 5 (laneNat l)

/-- The 2-bit code of `PHASE` (R23). -/
def phaseCode : Phase → BitVec 2
  | .ghosting => 0
  | .running  => 1
  | .joined   => 2

/-- The status word: `{ERRCHUNK, 14 zeros, ERR, PROF.FB, PROF.L, CFG.BP, STATE}` (R98, R212). -/
def statusWord (s : State) : Word :=
  s.errChunk ++ 0#14 ++ s.err ++ BitVec.ofBool s.prof.fb ++ laneCode s.prof.l ++ boundaryCode s.cfg.bp
    ++ stateCode s.state

end Sys2Proof.Machine
end

