-- ==== Sys2Proof/Machine/Operands.lean ====
section
/-! DEFINITION. Operand forms: the quantities derived from `CFG` (R5), word indices (R61), the matrix operand that
a cell stream spells (R94), its validation (R124), and the coordinate words of `LIVE` (R95). -/

namespace Sys2Proof.Machine

open Sys2Proof.Config

/-- `W` (R5, R28). -/
def width (g : Cfg) : Nat := g.w.toNat
/-- `H` (R5, R28). -/
def height (g : Cfg) : Nat := g.h.toNat

/-- `nd = ceil(W / 64)`, data words per row (R5). -/
def dataWords (w : Nat) : Nat := (w + 63) / 64
/-- `wpr = nd + 2` (R5). -/
def wordsPerRow (w : Nat) : Nat := dataWords w + 2
/-- `rows = H + 2` (R5). -/
def bufferRows (h : Nat) : Nat := h + 2
/-- `size = wpr * rows`, words per buffer (R5). -/
def bufferSize (w h : Nat) : Nat := wordsPerRow w * bufferRows h
/-- `k = W mod 64` (R5). -/
def lastWordCells (w : Nat) : Nat := w % 64

/-- `A(R, C) = R * wpr + C` (R61). -/
def wordIndex (w R C : Nat) : Nat := R * wordsPerRow w + C

/-- `(R, C)` is in the interior of a buffer (R62). -/
def interior (w h R C : Nat) : Bool := 1 ≤ R && R ≤ h && 1 ≤ C && C ≤ dataWords w

/-- `(R, C)` is in the ghost region of a buffer (R62). -/
def ghostRegion (w h R C : Nat) : Bool :=
  R < bufferRows h && C < wordsPerRow w && (R = 0 || R = h + 1 || C = 0 || C = wordsPerRow w - 1)

/-- The rows of a cell stream up to its `EOM`, and `trailing` (R94): `rows` are the rows ended so far, `row` the
row being built. -/
def parseFrom (rows : List (List Bool)) (row : List Bool) : List CellSym → List (List Bool) × Bool
  | []          => (rows, !row.isEmpty)
  | .eom :: _   => (rows, !row.isEmpty)
  | .eor :: t   => parseFrom (rows ++ [row]) [] t
  | .cell0 :: t => parseFrom rows (row ++ [false]) t
  | .cell1 :: t => parseFrom rows (row ++ [true]) t

/-- The decoded operand `(M, trailing)` of a cell stream (R94). -/
def parseCells (cells : List CellSym) : List (List Bool) × Bool := parseFrom [] [] cells

/-- The symbols of one matrix row and its end (R100). -/
def rowStream (row : List Bool) : List CellSym :=
  row.map (fun b => if b then .cell1 else .cell0) ++ [.eor]

/-- The cell stream of a matrix literal, its `EOM` included (R100). -/
def matrixStream (m : List (List Bool)) : List CellSym := m.flatMap rowStream ++ [.eom]

/-- The buffer of a grid of `a` by `b` cells fits `CAP` (R6, R124 (vi)). -/
def fitsCapacity (cap : Option Nat) (a b : Nat) : Bool :=
  match cap with
  | none   => true
  | some n => bufferSize a b ≤ n

/-- `valid(a, b, M, trailing)` (R124); (iii) is implied by (iv). -/
def validMatrix (cap : Option Nat) (a b : Nat) (m : List (List Bool)) (trailing : Bool) : Bool :=
  a != 0 && b != 0 && m.length == b && m.all (fun row => row.length == a) && !trailing && fitsCapacity cap a b

/-- The stream word that names a live cell: `{END = 0, 7 zeros, x, y}` (R95). -/
def coordWord (x y : Nat) : Word := 0#8 ++ BitVec.ofNat 28 x ++ BitVec.ofNat 28 y

/-- The word that ends a coordinate stream: `END = 1`, all else 0 (R95). -/
def endWord : Word := 1#1 ++ 0#63

end Sys2Proof.Machine
end

