-- ==== Sys2Proof/Machine/Ops.lean ====
section
/-! DEFINITION. The operations the meanings share: buffer words, the roles of the buffers, responses and errors (the
block's only exceptions, R241), the acceptance table (R240), the cell channel (R94) and the draws (R18). -/

namespace Sys2Proof.Machine

open Sys2Proof.Config

/-! ### Buffer words -/

/-- What an unlisted word of a buffer reads as: construction writes 0 to every word (R121 step 4). -/
def Memory.unlisted : Word := 0

/-- `MemRead` (R18): the word at an index of one buffer. -/
def Memory.read : Memory → Nat → Word
  | [], _          => Memory.unlisted
  | (k, v) :: t, a => if k = a then v else Memory.read t a

/-- `MemWrite` (R18), keeping the canonical form: a word equal to `Memory.unlisted` is not listed. -/
def Memory.write : Memory → Nat → Word → Memory
  | [], a, v => if v = Memory.unlisted then [] else [(a, v)]
  | (k, x) :: t, a, v =>
    if a < k then (if v = Memory.unlisted then (k, x) :: t else (a, v) :: (k, x) :: t)
    else if a = k then (if v = Memory.unlisted then t else (a, v) :: t)
    else (k, x) :: Memory.write t a v

/-- The canonical form: indices strictly rising, no entry equal to `Memory.unlisted`. -/
def Memory.wf : Memory → Bool
  | []          => true
  | (k, v) :: t => v != Memory.unlisted && t.all (fun e => k < e.1) && Memory.wf t

/-- Every listed index is below `n`, the number of words of the buffer (R60). -/
def Memory.below (n : Nat) (m : Memory) : Bool := m.all (fun e => e.1 < n)

/-! ### The roles of the buffers (R27) -/

/-- `current`, `BUF[SEL]`; used only where a buffer exists. -/
def currentMemory (s : State) : Memory :=
  match s.bufs with
  | none   => []
  | some b => if s.sel then b.buf1 else b.buf0

/-- `next`, `BUF[1 - SEL]`; used only where a buffer exists. -/
def nextMemory (s : State) : Memory :=
  match s.bufs with
  | none   => []
  | some b => if s.sel then b.buf0 else b.buf1

/-- `current` replaced. -/
def setCurrent (m : Memory) (s : State) : State :=
  { s with bufs := s.bufs.map fun b => if s.sel then { b with buf1 := m } else { b with buf0 := m } }

/-- `next` replaced. -/
def setNext (m : Memory) (s : State) : State :=
  { s with bufs := s.bufs.map fun b => if s.sel then { b with buf0 := m } else { b with buf1 := m } }

/-- `Cur[R, C]` (R18). -/
def cur (s : State) (R C : Nat) : Word := (currentMemory s).read (wordIndex (width s.cfg) R C)
/-- `Nxt[R, C]` (R18). -/
def nxt (s : State) (R C : Nat) : Word := (nextMemory s).read (wordIndex (width s.cfg) R C)

/-- The bit of cell `(x, y)` in a buffer of width `w`: bit `x mod 64` of data word `floor(x/64)` of logical row
`y` (R63). -/
def cellIn (m : Memory) (w x y : Nat) : Bool := (m.read (wordIndex w (y + 1) (x / 64 + 1))).getLsbD (x % 64)

/-- `cell(x, y)` (R18, R63). -/
def cell (s : State) (x y : Nat) : Bool := cellIn (currentMemory s) (width s.cfg) x y

/-! ### Responses and errors -/

/-- The transaction ends with the response record `(code, data)` (R93). -/
def respond (code : BitVec 8) (data : Word) (s : State) : State :=
  { s with stream := [], resp := some { code := code, data := data }, outstanding := none }

/-- The causes of R231 that are response codes. -/
inductive ErrorCause where
  | configuration
  | stepExecution (chunk : Nat)
  | illegalCommand
  | illegalState
  | badCoordinate
  deriving DecidableEq, Repr

/-- The code of an error (R231). -/
def errorCode : ErrorCause → BitVec 8
  | .configuration   => 0x01
  | .stepExecution _ => 0x02
  | .illegalCommand  => 0x03
  | .illegalState    => 0x04
  | .badCoordinate   => 0x05

/-- The `data` of an error's response (R231): the chunk index of a failed `STEP`, else 0. -/
def errorData : ErrorCause → Word
  | .configuration   => 0
  | .stepExecution c => (BitVec.ofNat 32 c).setWidth 64
  | .illegalCommand  => 0
  | .illegalState    => 0
  | .badCoordinate   => 0

/-- What an error records (R231): the three port-level errors record nothing. A failed `STEP` also leaves
`Stepping`, so the transient registers of R23 are gone. -/
def record (e : ErrorCause) (s : State) : State :=
  match e with
  | .configuration   => { s with err := 0x01 }
  | .stepExecution c => { s with err := 0x02, errChunk := BitVec.ofNat 32 c, state := .terminated, seq := none }
  | .illegalCommand  => s
  | .illegalState    => s
  | .badCoordinate   => s

/-- `raise` (R18, R241): the block's only exception entry. It records, responds, and waits for the next command;
no pc, no mode and no handler exist, and no return (R242). -/
def raise (e : ErrorCause) (s : State) : State := respond (errorCode e) (errorData e) (record e s)

/-! ### Acceptance (R240) -/

/-- The state-acceptance table of R240. `Calibrating` and `Stepping` have no column: a command is answered
`IllegalState` outside its *Accepted in* set (R120). Log 13. -/
def accepts : Instr → EngineState → Bool
  | .newDead _ _, st  => st == .uninitialized
  | .newTorus _ _, st => st == .uninitialized
  | .step, st         => st == .ready
  | .getCell _ _, st  => st == .ready || st == .terminated
  | .live, st         => st == .ready || st == .terminated
  | .getGen, st       => st == .ready || st == .terminated
  | .status, st       => st == .uninitialized || st == .ready || st == .terminated

/-! ### The cell channel of `NEW.*` (R94) -/

/-- What the block has taken from the channel. -/
structure Collected where
  /-- Symbols before the first `EOM`. -/
  cells : List CellSym
  /-- The first `EOM` has come. -/
  ended : Bool
  /-- Host actions left. -/
  rest  : List HostAction
  deriving DecidableEq, Repr

/-- Takes symbols up to and including the first `EOM` (R94), passing over a host that is ready to accept words, of
which a `NEW.*` has none (log 15); stops before any other action. -/
def collect : List HostAction → Collected
  | []                 => { cells := [], ended := false, rest := [] }
  | .sym .eom :: t     => { cells := [], ended := true, rest := t }
  | .sym .eor :: t     => { collect t with cells := .eor :: (collect t).cells }
  | .sym .cell0 :: t   => { collect t with cells := .cell0 :: (collect t).cells }
  | .sym .cell1 :: t   => { collect t with cells := .cell1 :: (collect t).cells }
  | .accept _ :: t     => collect t
  | .rst :: t          => { cells := [], ended := false, rest := .rst :: t }
  | .cmd w :: t        => { cells := [], ended := false, rest := .cmd w :: t }
  | .cmdHold w k :: t  => { cells := [], ended := false, rest := .cmdHold w k :: t }
  | .cmdRst w k :: t   => { cells := [], ended := false, rest := .cmdRst w k :: t }

/-- The symbols an outstanding `NEW.*` took before. -/
def receivedCells (s : State) : List CellSym :=
  match s.outstanding with
  | none   => []
  | some o => o.cells

/-! ### Draws (R18; log 4) -/

/-- The next calibration draw: the environment's queue, or a free value. -/
def calDraw (s : State) : CalDraw :=
  match s.calDraws with
  | []     => freeCalDraw s.drawCount
  | d :: _ => d

/-- The calibration draw is used up. -/
def dropCalDraw (s : State) : State :=
  match s.calDraws with
  | []     => { s with drawCount := s.drawCount + 1 }
  | _ :: t => { s with calDraws := t }

/-- The next worker draw: the environment's queue, or a free value. -/
def workerDraw (s : State) : List WorkerEvent :=
  match s.workerDraws with
  | []     => freeWorkerDraw s.drawCount
  | d :: _ => d

/-- The worker draw is used up. -/
def dropWorkerDraw (s : State) : State :=
  match s.workerDraws with
  | []     => { s with drawCount := s.drawCount + 1 }
  | _ :: t => { s with workerDraws := t }

end Sys2Proof.Machine
end

