-- ==== Sys2Proof/Machine/Profile.lean ====
section
/-! DEFINITION. HardwareProfile: the micro-operation `DETECT` (41_hardware_profile.md). -/

namespace Sys2Proof.Machine

open Sys2Proof.Config

/-- The members of `LANES`, rising (R7). -/
def laneList (s : LaneSet) : List LaneWidth :=
  .x1 :: ((if s.has4 then [.x4] else []) ++ (if s.has8 then [.x8] else []) ++ (if s.has16 then [.x16] else []))

/-- `LANES = {1}` (R150). -/
def scalarOnly (s : LaneSet) : Bool := !s.has4 && !s.has8 && !s.has16

/-- `draw best in LANES` (R150): the exposed width a draw names; every exposed width is named by some draw. -/
def bestLane (s : LaneSet) (pick : Nat) : LaneWidth :=
  (laneList s)[pick % (laneList s).length]?.getD .x1

/-- The profile one pair of draws gives (R150). -/
def profileOf (s : LaneSet) (d : CalDraw) : Profile :=
  if scalarOnly s || d.calError then { l := .x1, fb := true } else { l := bestLane s d.pick, fb := false }

/-- `DETECT` (R150): writes `PROF.L` and `PROF.FB`, nothing else of the block. -/
def detect (s : State) : State :=
  { dropCalDraw s with prof := profileOf s.hw.lanes (calDraw s) }

end Sys2Proof.Machine
end

