-- ==== Sys2Proof/Machine/BitGrid.lean ====
section
/-! DEFINITION. BitGrid (40_bitgrid.md): `NEW.DEAD`, `NEW.TORUS`, `GETCELL`, `LIVE` and the micro-operations
`GHOST` and `SWAP`. -/

namespace Sys2Proof.Machine

open Sys2Proof.Config

/-! ### Construction -/

/-- Sets the bit of cell `(x, y)` (R121 step 4). -/
def setCell (w : Nat) (m : Memory) (x y : Nat) : Memory :=
  m.write (wordIndex w (y + 1) (x / 64 + 1))
    (m.read (wordIndex w (y + 1) (x / 64 + 1)) ||| (1#64 <<< (x % 64)))

/-- The bits of one matrix row `y`, from column `x` on (R121 step 4). -/
def buildRow (w y : Nat) (m : Memory) : Nat → List Bool → Memory
  | _, []          => m
  | x, true :: t   => buildRow w y (setCell w m x y) (x + 1) t
  | x, false :: t  => buildRow w y m (x + 1) t

/-- The matrix rows from row `y` on (R121 step 4). -/
def buildRows (w : Nat) (m : Memory) : Nat → List (List Bool) → Memory
  | _, []       => m
  | y, row :: t => buildRows w (buildRow w y m 0 row) (y + 1) t

/-- `BUF[0]` after step 4 of R121: every word 0, then the bits of the live cells. -/
def buildMemory (w : Nat) (m : List (List Bool)) : Memory := buildRows w [] 0 m

/-- Steps 2 to 4 of R121: `CFG`, `SEL`, `GEN`, `ERR`, `ERRCHUNK` and both buffers entirely. -/
def buildGrid (bp : Boundary) (a b : Nat) (m : List (List Bool)) (s : State) : State :=
  { s with
    cfg := { w := BitVec.ofNat 28 a, h := BitVec.ofNat 28 b, bp := bp },
    sel := false, gen := 0, err := 0x00, errChunk := 0,
    bufs := some { buf0 := buildMemory a m, buf1 := [] } }

/-- `STATE <- st`. -/
def setState (st : EngineState) (s : State) : State := { s with state := st }

/-- Steps 2 to 7 of R121: the grid is built, `DETECT` runs in `Calibrating`, the block is `Ready`. -/
def construct (bp : Boundary) (a b : Nat) (m : List (List Bool)) (s : State) : State :=
  setState .ready (detect (setState .calibrating (buildGrid bp a b m s)))

/-- Step 8 of R121: the response carries the status word as the block stands after the command. -/
def respondStatus (s : State) : State := respond 0x00 (statusWord s) s

/-- A `NEW.*` whose stream has ended: acceptance (R240), validation (R124), then R121. -/
def newEnded (i : Instr) (bp : Boundary) (a b : Nat) (cells : List CellSym) (s : State) : State :=
  if accepts i s.state then
    if validMatrix s.hw.cap a b (parseCells cells).1 (parseCells cells).2 then
      respondStatus (construct bp a b (parseCells cells).1 s)
    else raise .configuration s
  else raise .illegalState s

/-- `NEW(bp)` (R121). The stream is taken to its first `EOM` in every case (R94); without one the command never
completes and waits for more symbols (R94, R268; log 7). -/
def newGrid (i : Instr) (bp : Boundary) (a b : Nat) (s : State) : State :=
  if (collect s.inbox).ended then
    newEnded i bp a b (receivedCells s ++ (collect s.inbox).cells) { s with inbox := (collect s.inbox).rest }
  else
    { s with
      inbox := (collect s.inbox).rest, stream := [], resp := none,
      outstanding := some { instr := i, cells := receivedCells s ++ (collect s.inbox).cells } }

/-- `NEW.DEAD w, h` (R122). -/
def execNewDead (w h : Nat) (s : State) : Host.Outcome State Fault Refusal :=
  .next (newGrid (.newDead w h) .dead w h s)

/-- `NEW.TORUS w, h` (R123). -/
def execNewTorus (w h : Nat) (s : State) : Host.Outcome State Fault Refusal :=
  .next (newGrid (.newTorus w h) .torus w h s)

/-! ### Reading the current generation -/

/-- A read of the grid needs a buffer, which exists in every accepted state a run reaches (U7; log 2). -/
def withBuffers (s : State) (t : State) : Host.Outcome State Fault Refusal :=
  match s.bufs with
  | none   => .fault .buffersAbsent
  | some _ => .next t

/-- The answer of `GETCELL` in a state that accepts it (R125). -/
def answerCell (x y : Nat) (s : State) : State :=
  if width s.cfg ≤ x ∨ height s.cfg ≤ y then raise .badCoordinate s
  else respond 0x00 ((BitVec.ofBool (cell s x y)).setWidth 64) s

/-- `GETCELL x, y` (R125). -/
def execGetCell (x y : Nat) (s : State) : Host.Outcome State Fault Refusal :=
  if accepts (.getCell x y) s.state then withBuffers s (answerCell x y s) else .next (raise .illegalState s)

/-- The live cells of one row, `x` ascending (R126). -/
def liveRow (s : State) (y : Nat) : List (Nat × Nat) :=
  ((List.range (width s.cfg)).filter fun x => cell s x y).map fun x => (x, y)

/-- The live cells, row by row (R126). -/
def liveCells (s : State) : List (Nat × Nat) := (List.range (height s.cfg)).flatMap (liveRow s)

/-- The coordinate stream of `LIVE`: one word per live cell, then the end word (R95, R126). -/
def liveStream (s : State) : List Word := (liveCells s).map (fun p => coordWord p.1 p.2) ++ [endWord]

/-- The block emits a coordinate stream (R95). -/
def emit (ws : List Word) (s : State) : State := { s with stream := ws }

/-- The answer of `LIVE` in a state that accepts it (R126). -/
def answerLive (s : State) : State :=
  emit (liveStream s) (respond 0x00 (BitVec.ofNat 64 (liveCells s).length) s)

/-- `LIVE` (R126). -/
def execLive (s : State) : Host.Outcome State Fault Refusal :=
  if accepts .live s.state then withBuffers s (answerLive s) else .next (raise .illegalState s)

/-! ### `GHOST` -/

/-- `Cur[R, C]` of a buffer of width `w`. -/
def rd (w : Nat) (m : Memory) (R C : Nat) : Word := m.read (wordIndex w R C)
/-- `Cur[R, C] <- v` in a buffer of width `w`. -/
def wr (w : Nat) (m : Memory) (R C : Nat) (v : Word) : Memory := m.write (wordIndex w R C) v

/-- `GHOST` under `DEAD` (R128): the side columns, then the ghost rows. -/
def ghostDead (w h : Nat) (m : Memory) : Memory :=
  let sides := (List.range (h + 2)).foldl
    (fun m R => wr w (wr w m R 0 0) R (wordsPerRow w - 1) 0) m
  (List.range (wordsPerRow w)).foldl (fun m C => wr w (wr w m 0 C 0) (h + 1) C 0) sides

/-- The side ghost words of logical row `r` under `TORUS` (R129 stage a): both edges are read before either word
is written. -/
def ghostSides (w : Nat) (m : Memory) (r : Nat) : Memory :=
  let eastEdge := (rd w m (r + 1) (dataWords w)).getLsbD ((w - 1) % 64)
  let westEdge := (rd w m (r + 1) 1).getLsbD 0
  wr w (wr w m (r + 1) 0 ((BitVec.ofBool eastEdge).setWidth 64 <<< 63))
    (r + 1) (wordsPerRow w - 1) ((BitVec.ofBool westEdge).setWidth 64)

/-- Column `C` of the ghost rows under `TORUS` (R129 stage b). -/
def ghostRows (w h : Nat) (m : Memory) (C : Nat) : Memory :=
  let above := wr w m 0 C (rd w m h C)
  wr w above (h + 1) C (rd w above 1 C)

/-- `GHOST` under `TORUS` (R129): stage a, then stage b. -/
def ghostTorus (w h : Nat) (m : Memory) : Memory :=
  (List.range (wordsPerRow w)).foldl (ghostRows w h) ((List.range h).foldl (ghostSides w) m)

/-- `GHOST` on a buffer (R127): which rule runs is fixed by `CFG.BP`. -/
def ghostMemory (g : Cfg) (m : Memory) : Memory :=
  match g.bp with
  | .dead  => ghostDead (width g) (height g) m
  | .torus => ghostTorus (width g) (height g) m

/-- `GHOST` (R127): on `current` only. -/
def ghost (s : State) : State := setCurrent (ghostMemory s.cfg (currentMemory s)) s

/-! ### `SWAP` -/

/-- `SWAP` (R131): `SEL <- 1 - SEL`; no word moves. -/
def swap (s : State) : State := { s with sel := !s.sel }

end Sys2Proof.Machine
end

