-- ==== Sys2Proof/Machine/NeighborCounter.lean ====
section
/-! DEFINITION. NeighborCounter (42_neighbor_counter.md): the micro-operations `DIRMASK`, `ADDNET`, `RULE` and
`BATCH`. The registers of R21 are local values. -/

namespace Sys2Proof.Machine

open Sys2Proof.Config

/-! ### `DIRMASK` -/

/-- The nine window words (R21, R161): `m1` is `dr = -1`, `z` is `dr = 0`, `p1` is `dr = +1`. -/
structure Window where
  lm1 : Word
  lz  : Word
  lp1 : Word
  mm1 : Word
  mz  : Word
  mp1 : Word
  rm1 : Word
  rz  : Word
  rp1 : Word
  deriving DecidableEq, Repr

/-- The window of work item `(r, j)` (R161): `R = r + 1`, `C = j + 1`. -/
def window (w : Nat) (m : Memory) (r j : Nat) : Window :=
  { lm1 := rd w m r j,       mm1 := rd w m r (j + 1),       rm1 := rd w m r (j + 2),
    lz  := rd w m (r + 1) j, mz  := rd w m (r + 1) (j + 1), rz  := rd w m (r + 1) (j + 2),
    lp1 := rd w m (r + 2) j, mp1 := rd w m (r + 2) (j + 1), rp1 := rd w m (r + 2) (j + 2) }

/-- `epos(j)` (R164): where the carry from the east enters. -/
def epos (w j : Nat) : Nat := if j + 1 < dataWords w then 63 else (w - 1) % 64

/-- A word shifted one cell west with the carry of the word to its left (R164, R165). -/
def westOf (m l : Word) : Word := (m <<< 1) ||| (l >>> 63)

/-- A word shifted one cell east with the carry of the word to its right, entering at `e` (R164, R165). -/
def eastOf (e : Nat) (m r : Word) : Word := (m >>> 1) ||| ((r &&& 1) <<< e)

/-- The eight direction masks (R21). -/
structure Masks where
  nw : Word
  n  : Word
  ne : Word
  wd : Word
  e  : Word
  sw : Word
  s  : Word
  se : Word
  deriving DecidableEq, Repr

/-- The direction masks of a window (R163, R164, R165). -/
def masksOf (e : Nat) (v : Window) : Masks :=
  { nw := westOf v.mm1 v.lm1, n := v.mm1, ne := eastOf e v.mm1 v.rm1,
    wd := westOf v.mz v.lz,               e  := eastOf e v.mz v.rz,
    sw := westOf v.mp1 v.lp1, s := v.mp1, se := eastOf e v.mp1 v.rp1 }

/-- `DIRMASK(r, j)` (R161 to R165). -/
def dirMask (w : Nat) (m : Memory) (r j : Nat) : Masks := masksOf (epos w j) (window w m r j)

/-! ### `ADDNET` -/

/-- `HA(a, b) = (sum, carry)` (R167). -/
def halfAdd (a b : Word) : Word × Word := (a ^^^ b, a &&& b)

/-- `FA(a, b, c) = (sum, carry)` (R167). -/
def fullAdd (a b c : Word) : Word × Word := (a ^^^ b ^^^ c, (a &&& b) ||| (a &&& c) ||| (b &&& c))

/-- The internal nets and the planes of the adder network (R21, R170). -/
structure AdderNets where
  t0 : Word
  t1 : Word
  b0 : Word
  b1 : Word
  m0 : Word
  m1 : Word
  k1 : Word
  u0 : Word
  u1 : Word
  v  : Word
  p0 : Word
  p1 : Word
  p2 : Word
  p3 : Word
  deriving DecidableEq, Repr

/-- `ADDNET` (R170): the reference wiring, 4 full adders and 3 half adders. -/
def addNet (d : Masks) : AdderNets :=
  let t := fullAdd d.nw d.n d.ne
  let b := fullAdd d.sw d.s d.se
  let m := halfAdd d.wd d.e
  let p := fullAdd t.1 b.1 m.1
  let u := fullAdd t.2 b.2 m.2
  let q := halfAdd u.1 p.2
  let z := halfAdd u.2 q.2
  { t0 := t.1, t1 := t.2, b0 := b.1, b1 := b.2, m0 := m.1, m1 := m.2, k1 := p.2, u0 := u.1, u1 := u.2,
    v := q.2, p0 := p.1, p1 := q.1, p2 := z.1, p3 := z.2 }

/-! ### `RULE` -/

/-- `VALID(j)` (R174). -/
def validMask (w j : Nat) : Word :=
  if j + 1 < dataWords w ∨ lastWordCells w = 0 then BitVec.allOnes 64
  else BitVec.ofNat 64 (2 ^ lastWordCells w - 1)

/-- The next-state word `Y` (R175 with four planes, R176 with three). -/
def ruleWord (planes : PlaneCount) (p : AdderNets) (x valid : Word) : Word :=
  match planes with
  | .four  => p.p1 &&& ~~~p.p2 &&& ~~~p.p3 &&& (p.p0 ||| x) &&& valid
  | .three => p.p1 &&& ~~~p.p2 &&& (p.p0 ||| x) &&& valid

/-- The word `RULE` writes for work item `(r, j)`, a function of `current` only (R181). -/
def nextWord (planes : PlaneCount) (w : Nat) (m : Memory) (r j : Nat) : Word :=
  ruleWord planes (addNet (dirMask w m r j)) (window w m r j).mz (validMask w j)

/-! ### `BATCH` -/

/-- What a worker reads and never writes while it runs (R67, R68, R248): `CFG`, `PROF.L`, `NPLANES`, `current`. -/
structure WorkerView where
  width   : Nat
  lane    : Nat
  planes  : PlaneCount
  current : Memory
  deriving DecidableEq, Repr

/-- `BATCH(r, j0, n)` (R180): one word of `next` per lane; no lane reads `next`. -/
def batch (v : WorkerView) (m : Memory) (r j0 n : Nat) : Memory :=
  (List.range n).foldl
    (fun m l => wr v.width m (r + 1) (j0 + l + 1) (nextWord v.planes v.width v.current r (j0 + l))) m

/-- How many words the batch that starts at data word `j` of a row has (R180): `L` at the start of a vector
batch, 1 in the scalar remainder, 0 inside a vector batch, where no batch starts. -/
def batchLength (nd lane j : Nat) : Nat :=
  if j < nd / lane * lane then (if j % lane = 0 then lane else 0) else 1

end Sys2Proof.Machine
end

