-- ==== Sys2Proof/Machine/Scheduler.lean ====
section
/-! DEFINITION. StepScheduler (43_step_scheduler.md): `PARTITION`, the worker task, `STEP` with its commit and its
failure path, `GETGEN` and `STATUS`. -/

namespace Sys2Proof.Machine

open Sys2Proof.Config

/-! ### `PARTITION` -/

/-- `lo(c) = floor(c * H / T)` (R200). -/
def chunkLo (h t c : Nat) : Nat := c * h / t
/-- `hi(c) = lo(c + 1)` (R200). -/
def chunkHi (h t c : Nat) : Nat := chunkLo h t (c + 1)

/-- The initial `PEND[c]`: every data word of the rows of chunk `c` (R23, R200). -/
def chunkWords (nd h t c : Nat) : List (Nat × Nat) :=
  (List.range' (chunkLo h t c) (chunkHi h t c - chunkLo h t c)).flatMap fun r =>
    (List.range nd).map fun j => (r, j)

/-- The registers of the `T` workers on entry to `Stepping` (R23). -/
def freshWorkers (nd h t : Nat) : List WorkerRegs :=
  (List.range t).map fun c => { pend := chunkWords nd h t c, done := false, fail := false }

/-- `STATE <- Stepping` and the transient registers on entry (R203, R23). -/
def enterStepping (s : State) : State :=
  { s with
    state := .stepping,
    seq := some
      { phase := .ghosting,
        workers := freshWorkers (dataWords (width s.cfg)) (height s.cfg) s.hw.workers } }

/-- `PARTITION` (R200), step [2] of R203: sets every `PEND[c]`. -/
def partition (s : State) : State :=
  { s with seq := s.seq.map fun q =>
      { q with workers := freshWorkers (dataWords (width s.cfg)) (height s.cfg) s.hw.workers } }

/-- `PHASE <- p`. -/
def setPhase (p : Phase) (s : State) : State := { s with seq := s.seq.map fun q => { q with phase := p } }

/-! ### The worker task (R202) -/

/-- What the workers write while they run: `next` and their own registers. -/
structure Running where
  next    : Memory
  workers : List WorkerRegs
  deriving DecidableEq, Repr

/-- The pairs of `PEND[c]` at which a batch may start, each with its batch wholly in `PEND[c]` (R202, R180). -/
def batchStarts (v : WorkerView) (pend : List (Nat × Nat)) : List (Nat × Nat) :=
  pend.filter fun p =>
    batchLength (dataWords v.width) v.lane p.2 != 0 &&
      (List.range (batchLength (dataWords v.width) v.lane p.2)).all fun l => pend.contains (p.1, p.2 + l)

/-- `PEND[c]` without the `n` words from `(r, j0)` on (R202). -/
def removeRun (r j0 n : Nat) (pend : List (Nat × Nat)) : List (Nat × Nat) :=
  pend.filter fun p => !(p.1 == r && j0 ≤ p.2 && p.2 < j0 + n)

/-- The words of the batch at `p`. -/
def runLength (v : WorkerView) (p : Nat × Nat) : Nat := batchLength (dataWords v.width) v.lane p.2

/-- Worker `c`, holding `q`, executes the batch at `p` and removes it from `PEND[c]` (R202). -/
def takeBatch (v : WorkerView) (c : Nat) (q : WorkerRegs) (p : Nat × Nat) (k : Running) : Running :=
  { next := batch v k.next p.1 p.2 (runLength v p),
    workers := k.workers.set c { q with pend := removeRun p.1 p.2 (runLength v p) q.pend } }

/-- One event of the `RUNNING` phase (R202, R236). Only a worker that is not done takes one; a failing task
writes its own `FAIL[c]` and `DONE[c]` and nothing else. -/
def workerEvent (v : WorkerView) (k : Running) (e : WorkerEvent) : Running :=
  match e with
  | .batch c n =>
    match k.workers[c]? with
    | none   => k
    | some q =>
      if q.done then k else
        match (batchStarts v q.pend)[n]? with
        | none   => k
        | some p => takeBatch v c q p k
  | .fail c =>
    match k.workers[c]? with
    | none   => k
    | some q => if q.done then k else { k with workers := k.workers.set c { q with fail := true, done := true } }
  | .finish c =>
    match k.workers[c]? with
    | none   => k
    | some q =>
      if q.done || !q.pend.isEmpty then k else { k with workers := k.workers.set c { q with done := true } }

/-- A list of events, one after another. -/
def runEvents (v : WorkerView) (es : List WorkerEvent) (k : Running) : Running := es.foldl (workerEvent v) k

/-- How many words worker `c` has not written. -/
def pendingWords (k : Running) (c : Nat) : Nat :=
  match k.workers[c]? with
  | none   => 0
  | some q => q.pend.length

/-- Worker `c` runs its loop to the end (R202): at most one batch per pending word. -/
def completeWorker (v : WorkerView) (k : Running) (c : Nat) : Running :=
  runEvents v (List.replicate (pendingWords k c) (.batch c 0) ++ [.finish c]) k

/-- Every task that has not ended runs to its end (R202, R275), so the join is reached. Log 5. -/
def completeAll (v : WorkerView) (k : Running) : Running :=
  (List.range k.workers.length).foldl (completeWorker v) k

/-- The `RUNNING` phase: the drawn events in their order, then the rest of every task. -/
def runTasks (v : WorkerView) (es : List WorkerEvent) (k : Running) : Running :=
  completeAll v (runEvents v es k)

/-! ### `STEP` -/

/-- What the workers read during this `STEP`. -/
def workerView (s : State) : WorkerView :=
  { width := width s.cfg, lane := laneNat s.prof.l, planes := s.hw.planes, current := currentMemory s }

/-- Step [3] of R203: the `T` tasks run on `next` and the transient registers. -/
def runPhase (es : List WorkerEvent) (s : State) : State :=
  match s.seq with
  | none   => s
  | some q =>
    let k := runTasks (workerView s) es { next := nextMemory s, workers := q.workers }
    { setNext k.next s with seq := some { q with workers := k.workers } }

/-- The least `c` with `FAIL[c] = 1` (R204). -/
def lowestFailed (s : State) : Option Nat :=
  match s.seq with
  | none   => none
  | some q => q.workers.findIdx? (·.fail)

/-- Steps [5] and [6] of R203 and R204: the commit after the join. -/
def commit (s : State) : State :=
  match lowestFailed s with
  | none   => respond 0x00 (s.gen + 1) { swap s with gen := s.gen + 1, state := .ready, seq := none }
  | some c => raise (.stepExecution c) s

/-- Steps [1] to [4] of R203 with the worker draw `es`: the state at the join. -/
def stepToJoin (es : List WorkerEvent) (s : State) : State :=
  setPhase .joined (runPhase es (setPhase .running (partition (ghost (enterStepping s)))))

/-- `STEP` in a state that accepts it (R203). -/
def stepGrid (s : State) : State := commit (stepToJoin (workerDraw s) (dropWorkerDraw s))

/-- `STEP` (R203). At `GEN = 2^64 - 1` the spec gives no successor (U9; log 11). -/
def execStep (s : State) : Host.Outcome State Fault Refusal :=
  if accepts .step s.state then
    if s.gen = BitVec.allOnes 64 then .refused .generationLimit else withBuffers s (stepGrid s)
  else .next (raise .illegalState s)

/-! ### Read-only system commands -/

/-- `GETGEN` (R211). -/
def execGetGen (s : State) : Host.Outcome State Fault Refusal :=
  if accepts .getGen s.state then .next (respond 0x00 s.gen s) else .next (raise .illegalState s)

/-- `STATUS` (R212). -/
def execStatus (s : State) : Host.Outcome State Fault Refusal :=
  if accepts .status s.state then .next (respondStatus s) else .next (raise .illegalState s)

end Sys2Proof.Machine
end

