-- ==== Sys2Proof/Machine/Dispatch.lean ====
section
/-! DEFINITION. One arm per command, each one direct call of its meaning. -/

namespace Sys2Proof.Machine

/-- The meaning of a decoded command. -/
def exec (i : Instr) (s : State) : Host.Outcome State Fault Refusal :=
  match i with
  | .newDead w h => Sys2Proof.Machine.execNewDead w h s
  | .newTorus w h => Sys2Proof.Machine.execNewTorus w h s
  | .step => Sys2Proof.Machine.execStep s
  | .getCell x y => Sys2Proof.Machine.execGetCell x y s
  | .live => Sys2Proof.Machine.execLive s
  | .getGen => Sys2Proof.Machine.execGetGen s
  | .status => Sys2Proof.Machine.execStatus s

end Sys2Proof.Machine
end

