-- ==== Sys2Proof/Machine/Port.lean ====
section
/-! DEFINITION. The host port (30_encoding.md, 70_reset_and_hazards.md): taking a host action, the reset input, and
the pseudo-command `STEPN`. -/

namespace Sys2Proof.Machine

/-- The reset input (R260, R261): every register as in `State.reset`, buffers absent, transient registers and an
outstanding command dropped, no response. What is not the block's stays: the host's later actions, the draws,
the elaboration parameters. Log 9. -/
def resetInput (s : State) : State :=
  { State.reset with
    inbox := s.inbox, hw := s.hw, calDraws := s.calDraws, workerDraws := s.workerDraws, drawCount := s.drawCount }

/-- A command word is taken: decode first (R240 step 1), then the command. -/
def takeCommand (w : Word) (s : State) : Host.Outcome State Fault Refusal :=
  match decode w with
  | .instr i   => exec i s
  | .illegal _ => .next (raise .illegalCommand s)

/-- The coordinate words that left the block before reset struck: a prefix without the `END` word (R261). -/
def emittedBefore (k : Nat) (o : Host.Outcome State Fault Refusal) : List Word :=
  match o with
  | .next t    => (t.stream.dropLast).take k
  | .fault _   => []
  | .refused _ => []

/-- A command abandoned by reset (R261): no response, the reset state. Log 9. -/
def abandonCommand (w : Word) (k : Nat) (s : State) : State :=
  emit (emittedBefore k (takeCommand w s)) (resetInput s)

/-! ### The coordinate stream and the host's acceptance (R95, R268) -/

/-- The commands that emit a coordinate stream (R95). -/
def emitsStream : Instr → Bool
  | .newDead _ _  => false
  | .newTorus _ _ => false
  | .step         => false
  | .getCell _ _  => false
  | .live         => true
  | .getGen       => false
  | .status       => false

/-- `i` has emitted the first `n` words of the stream it gives in `t`; it is outstanding, with no response (R268). -/
def holdStream (i : Instr) (n : Nat) (t : State) : State :=
  { t with stream := t.stream.take n, resp := none, outstanding := some { instr := i, cells := [] } }

/-- The host has accepted `n` words of what `i` emits: a stream that is longer keeps `i` outstanding, else `i` has
completed (R268). Log 15. -/
def acceptWords (i : Instr) (n : Nat) (o : Host.Outcome State Fault Refusal) : Host.Outcome State Fault Refusal :=
  match o with
  | .next t    => if n < t.stream.length then .next (holdStream i n t) else .next t
  | .fault f   => .fault f
  | .refused r => .refused r

/-- A command word is taken from a host that accepts `k` words of its stream (R268). -/
def takeCommandHeld (w : Word) (k : Nat) (s : State) : Host.Outcome State Fault Refusal :=
  match decode w with
  | .instr i   => acceptWords i k (exec i s)
  | .illegal _ => .next (raise .illegalCommand s)

/-! ### Host actions -/

/-- A host action with no command outstanding (R90). A host ready to accept words, none being offered, changes
nothing (log 15). -/
def takeAction (s : State) : Host.Outcome State Fault Refusal :=
  match s.inbox with
  | []               => .next s
  | .rst :: t        => .next (resetInput { s with inbox := t })
  | .cmd w :: t      => takeCommand w { s with inbox := t }
  | .cmdHold w k :: t => takeCommandHeld w k { s with inbox := t }
  | .accept _ :: t   => .next { s with inbox := t }
  | .sym _ :: _      => .refused .unsolicitedSymbol
  | .cmdRst w k :: t => .next (abandonCommand w k { s with inbox := t })

/-- The port while `i` waits for cell symbols (R90, R94): `RST` is taken (R261); else `i` goes on with its stream, and
no other command word is accepted. -/
def takeOutstanding (i : Instr) (s : State) : Host.Outcome State Fault Refusal :=
  match s.inbox with
  | .rst :: t        => .next (resetInput { s with inbox := t })
  | .cmdRst _ _ :: t => .next (resetInput { s with inbox := t })
  | []               => exec i s
  | .cmd _ :: _      => exec i s
  | .cmdHold _ _ :: _ => exec i s
  | .accept _ :: _   => exec i s
  | .sym _ :: _      => exec i s

/-- The port while `i` waits for the host to accept its stream (R268): `RST` is taken (R261), further words leave as
the host accepts them, and nothing else moves. -/
def takeStalled (i : Instr) (s : State) : Host.Outcome State Fault Refusal :=
  match s.inbox with
  | .rst :: t        => .next (resetInput { s with inbox := t })
  | .cmdRst _ _ :: t => .next (resetInput { s with inbox := t })
  | .accept k :: t   => acceptWords i (s.stream.length + k) (exec i { s with inbox := t })
  | .sym _ :: _      => .refused .unsolicitedSymbol
  | []               => .next s
  | .cmd _ :: _      => .next s
  | .cmdHold _ _ :: _ => .next s

/-- One step of the block: one host action, one whole transaction where the host plays its part (R69, R90). With
nothing to do it is idle and keeps all state (R247). -/
def portStep (s : State) : Host.Outcome State Fault Refusal :=
  match s.outstanding with
  | none   => takeAction s
  | some o => if emitsStream o.instr then takeStalled o.instr s else takeOutstanding o.instr s

/-- Whether a command word starts a `NEW.*`, which needs a cell stream (R99). -/
def needsStream (w : Word) : Bool := opField w == 0x01 || opField w == 0x02

/-- The host actions after a command word: those already there when they end its stream, else an `EOM` first. -/
def withStream (w : Word) (inbox : List HostAction) : List HostAction :=
  if needsStream w && !(collect inbox).ended then .sym .eom :: inbox else inbox

/-- The pseudo-command `STEPN n` (R101): `n` times `STEP`, stopping after the first whose response is not
`0x00`. -/
def stepN : Nat → State → Host.Outcome State Fault Refusal
  | 0, s     => .next s
  | n + 1, s =>
    match exec .step s with
    | .next t    => if t.resp.map (·.code) = some 0x00 then stepN n t else .next t
    | .fault f   => .fault f
    | .refused r => .refused r

end Sys2Proof.Machine
end

