-- ==== Sys2Proof/Machine/Step.lean ====
section
/-! DEFINITION. The step of the machine, and how a command word is placed for the next step. -/

namespace Sys2Proof.Machine

/-- One step: one host action (R90). -/
def step (s : State) : Host.Outcome State Fault Refusal := portStep s

/-- `s` with the command word `w` (its low `nbits` bits) presented as the host's next action and nothing
outstanding, so that the next step runs it. A `NEW.*` needs a cell stream that ends (R94): the one that waits in
`inbox`, or a lone `EOM`. Log 14. -/
def State.withFetchWord (s : State) (nbits w : Nat) : State :=
  { s with
    outstanding := none,
    inbox := .cmd (BitVec.ofNat 64 (w % 2 ^ nbits)) :: withStream (BitVec.ofNat 64 (w % 2 ^ nbits)) s.inbox }

end Sys2Proof.Machine
end

