-- ==== Sys2Proof/Safety.lean ====
section
/-! DEFINITION. The terms the claims use: the cell-level reference of the spec (R130, R171, R172), what the host can
read (R241, R268), and the invariant of the block between commands. -/

namespace Sys2Proof.Machine

open Sys2Proof.Config

/-! ### The cell-level reference -/

/-- The extended cell function `ext(x, y)` (R130) over a grid of `w` by `h` cells; `mod` is the non-negative
remainder. -/
def extCell (bp : Boundary) (w h : Nat) (c : Nat → Nat → Bool) (x y : Int) : Bool :=
  if 0 ≤ x ∧ x < w ∧ 0 ≤ y ∧ y < h then c x.toNat y.toNat
  else match bp with
    | .dead  => false
    | .torus => c (x % (w : Int)).toNat (y % (h : Int)).toNat

/-- The eight directions `(dx, dy)` (R171). -/
def directions : List (Int × Int) := [(-1, -1), (0, -1), (1, -1), (-1, 0), (1, 0), (-1, 1), (0, 1), (1, 1)]

/-- The neighbour count `n(x, y)` (R171): with multiplicity, one term per direction. -/
def neighbourCount (bp : Boundary) (w h : Nat) (c : Nat → Nat → Bool) (x y : Nat) : Nat :=
  (directions.map fun d => (extCell bp w h c (x + d.1) (y + d.2)).toNat).sum

/-- "A cell's next state is alive iff (count == 3) OR (count == 2 AND current state bit == 1)" (R172). -/
def lifeRule (n : Nat) (alive : Bool) : Bool := n == 3 || (n == 2 && alive)

/-- `ext(x, y)` in a state (R130). -/
def ext (s : State) (x y : Int) : Bool := extCell s.cfg.bp (width s.cfg) (height s.cfg) (cell s) x y

/-- `n(x, y)` in a state (R171). -/
def count (s : State) (x y : Nat) : Nat :=
  neighbourCount s.cfg.bp (width s.cfg) (height s.cfg) (cell s) x y

/-! ### The worker registers at the join -/

/-- The registers of the workers at the join of a `STEP` from `s` with worker draw `es`. -/
def joinWorkers (es : List WorkerEvent) (s : State) : List WorkerRegs :=
  match (stepToJoin es s).seq with
  | none   => []
  | some q => q.workers

/-! ### What the host can read (R268) -/

/-- What a command answers: the response record and the coordinate stream. -/
def answer (o : Host.Outcome State Fault Refusal) : Option (Response × List Word) :=
  match o with
  | .next t    => t.resp.map fun r => (r, t.stream)
  | .fault _   => none
  | .refused _ => none

/-- `GETCELL` at every coordinate, `LIVE` and `GETGEN` answer alike in both states (R241). -/
def SameReads (s t : State) : Prop :=
  (∀ x y, answer (exec (.getCell x y) s) = answer (exec (.getCell x y) t)) ∧
    answer (exec .live s) = answer (exec .live t) ∧ answer (exec .getGen s) = answer (exec .getGen t)

/-- The next host action is not a reset. -/
def noReset (s : State) : Bool :=
  match s.inbox with
  | .rst :: _        => false
  | .cmdRst _ _ :: _ => false
  | []               => true
  | .cmd _ :: _      => true
  | .cmdHold _ _ :: _ => true
  | .accept _ :: _   => true
  | .sym _ :: _      => true

/-- The command word a host action presents, one that goes on to its response (R90, R268). -/
def commandWord : HostAction → Option Word
  | .cmd c       => some c
  | .cmdHold c _ => some c
  | .accept _    => none
  | .rst         => none
  | .sym _       => none
  | .cmdRst _ _  => none

/-! ### The invariant between commands -/

/-- The padding bits of every last data word of a buffer are 0 (R35). -/
def PaddingZero (g : Cfg) (m : Memory) : Prop :=
  ∀ r, r < height g → rd (width g) m (r + 1) (dataWords (width g)) &&& ~~~validMask (width g) (dataWords (width g) - 1) = 0

/-- The elaboration parameters are legal: `T >= 1` (R7), `T <= 2^32` (R32). -/
abbrev LegalHardware (q : Hardware) : Prop := 1 ≤ q.workers ∧ q.workers ≤ 2 ^ 32

/-- A buffer in canonical form, inside its `size` words (R60). -/
def BufferOk (g : Cfg) (m : Memory) : Prop := m.wf = true ∧ m.below (bufferSize (width g) (height g)) = true

/-- The control registers while no grid exists: their reset values, but for `ERR` (section 8 of 10_state.md,
R121 step 1); no buffer (log 2). -/
structure Unbuilt (s : State) : Prop where
  gen      : s.gen = 0
  sel      : s.sel = false
  cfg      : s.cfg = { w := 0, h := 0, bp := .dead }
  prof     : s.prof = { l := .x1, fb := false }
  err      : s.err = 0x00 ∨ s.err = 0x01
  errChunk : s.errChunk = 0
  bufs     : s.bufs = none

/-- A grid exists (R28, R34, R35, R124). -/
structure Built (s : State) : Prop where
  width_pos  : 1 ≤ width s.cfg
  height_pos : 1 ≤ height s.cfg
  fits       : fitsCapacity s.hw.cap (width s.cfg) (height s.cfg) = true
  bufs       : s.bufs.isSome = true
  current    : BufferOk s.cfg (currentMemory s)
  next       : BufferOk s.cfg (nextMemory s)
  padding    : PaddingZero s.cfg (currentMemory s)

/-- A `NEW.*` that waits for cells has an encoding and holds symbols other than `EOM` (R94; log 7). -/
def WaitsForCells (o : Outstanding) : Prop :=
  WellFormed o.instr = true ∧ CellSym.eom ∉ o.cells ∧
    ∃ w h, o.instr = .newDead w h ∨ o.instr = .newTorus w h

/-- A `LIVE` that waits for the host was accepted, and the words that have left are a proper beginning of its stream:
its last word, `END`, has not (R95, R268; log 15). -/
def WaitsForHost (s : State) (o : Outstanding) : Prop :=
  o = { instr := .live, cells := [] } ∧ (s.state = .ready ∨ s.state = .terminated) ∧
    ∃ n, n < (liveStream s).length ∧ s.stream = (liveStream s).take n

/-- What is outstanding at the port has no response yet (R90). -/
def OutstandingOk (s : State) (o : Outstanding) : Prop :=
  s.resp = none ∧ (WaitsForCells o ∨ WaitsForHost s o)

/-- The invariant of the block between commands. -/
structure Inv (s : State) : Prop where
  hw          : LegalHardware s.hw
  /-- `Calibrating` and `Stepping` are never seen between commands (R25, R207). -/
  visible     : s.state = .uninitialized ∨ s.state = .ready ∨ s.state = .terminated
  /-- The transient registers live only in `Stepping` (R23; log 10). -/
  transient   : s.seq = none
  unbuilt     : s.state = .uninitialized → Unbuilt s
  built       : s.state ≠ .uninitialized → Built s
  /-- R29, R30: a width of `LANES`; a fallback comes with width 1. -/
  lane        : s.prof.l ∈ laneList s.hw.lanes
  fallback    : s.prof.fb = true → s.prof.l = .x1
  /-- R31, R32. -/
  readyErr    : s.state = .ready → s.err = 0x00 ∧ s.errChunk = 0
  failedErr   : s.state = .terminated → s.err = 0x02 ∧ s.errChunk.toNat < s.hw.workers
  outstanding : ∀ o, s.outstanding = some o → OutstandingOk s o

end Sys2Proof.Machine
end

