-- ==== Sys2Proof/Certificates/Slice0/Obligations.lean ====
section
/-! DEFINITION. The statements for the provers, one `def Obligations.<Name> : Prop` each, from the numbered rules of
spec/. The predicates before them are the shapes several statements share. -/

open Sys2Proof Sys2Proof.Config Sys2Proof.Machine

namespace Sys2Proof.Claims

/-- A successful `NEW(bp)` of the matrix `m` took `s` to `t` (R121 steps 2 to 8): every field of `t`. What is
left of the draws is the model's form (log 4). -/
structure Constructed (bp : Boundary) (w h : Nat) (m : List (List Bool)) (rest : List HostAction)
    (s t : State) : Prop where
  state       : t.state = .ready
  gen         : t.gen = 0
  sel         : t.sel = false
  width       : width t.cfg = w
  height      : height t.cfg = h
  bp          : t.cfg.bp = bp
  prof        : t.prof = profileOf s.hw.lanes (calDraw s)
  err         : t.err = 0x00
  errChunk    : t.errChunk = 0
  bufs        : t.bufs.isSome = true
  cells       : ∀ x y, x < w → y < h → cell t x y = (m.getD y []).getD x false
  padding     : PaddingZero t.cfg (currentMemory t)
  ghost       : ∀ R C, ghostRegion w h R C = true → cur t R C = 0
  next        : ∀ R C, nxt t R C = 0
  inbox       : t.inbox = rest
  outstanding : t.outstanding = none
  stream      : t.stream = []
  resp        : t.resp = some { code := 0x00, data := statusWord t }
  seq         : t.seq = s.seq
  hw          : t.hw = s.hw
  calDraws    : t.calDraws = s.calDraws.tail
  workerDraws : t.workerDraws = s.workerDraws
  drawCount   : t.drawCount = s.drawCount + if s.calDraws = [] then 1 else 0

/-- `STEP` is accepted and has a successor: `Ready`, a grid, `GEN` below its maximum (R203, R240, U9). -/
structure StepAccepted (s : State) : Prop where
  ready : s.state = .ready
  gen   : s.gen ≠ BitVec.allOnes 64
  bufs  : s.bufs.isSome = true

/-- No task fails in the next `STEP` (R236: the empty `failset`): no `FAIL[c]` is 1 at the join. The draw is the
model's form (log 4, log 5). -/
def NoFailure (s : State) : Prop := ∀ q ∈ joinWorkers (workerDraw s) s, q.fail = false

/-- Chunk `c` is the lowest that fails in the next `STEP`: the least `c` with `FAIL[c] = 1` at the join (R204). -/
structure LowestFailure (s : State) (c : Nat) : Prop where
  fails : (joinWorkers (workerDraw s) s)[c]?.map (·.fail) = some true
  least : ∀ c', c' < c → (joinWorkers (workerDraw s) s)[c']?.map (·.fail) = some false

/-- The registers after a successful `STEP` (R203): every field but the buffers. What is left of the draws is the
model's form (log 4). -/
structure Advanced (s t : State) : Prop where
  state       : t.state = .ready
  gen         : t.gen = s.gen + 1
  sel         : t.sel = !s.sel
  cfg         : t.cfg = s.cfg
  prof        : t.prof = s.prof
  err         : t.err = s.err
  errChunk    : t.errChunk = s.errChunk
  seq         : t.seq = none
  inbox       : t.inbox = s.inbox
  outstanding : t.outstanding = none
  stream      : t.stream = []
  resp        : t.resp = some { code := 0x00, data := s.gen + 1 }
  hw          : t.hw = s.hw
  calDraws    : t.calDraws = s.calDraws
  workerDraws : t.workerDraws = s.workerDraws.tail
  drawCount   : t.drawCount = s.drawCount + if s.workerDraws = [] then 1 else 0

/-- The registers after a `STEP` that failed with lowest failed chunk `c` (R204): every field but the buffers. What is left
of the draws is the model's form (log 4). -/
structure Failed (c : Nat) (s t : State) : Prop where
  state       : t.state = .terminated
  gen         : t.gen = s.gen
  sel         : t.sel = s.sel
  cfg         : t.cfg = s.cfg
  prof        : t.prof = s.prof
  err         : t.err = 0x02
  errChunk    : t.errChunk.toNat = c
  seq         : t.seq = none
  inbox       : t.inbox = s.inbox
  outstanding : t.outstanding = none
  stream      : t.stream = []
  resp        : t.resp = some { code := 0x02, data := BitVec.ofNat 64 c }
  hw          : t.hw = s.hw
  calDraws    : t.calDraws = s.calDraws
  workerDraws : t.workerDraws = s.workerDraws.tail
  drawCount   : t.drawCount = s.drawCount + if s.workerDraws = [] then 1 else 0

/-- The word `RULE` writes for the interior position `(R, C)` in a `STEP` from `s`: a function of `current` after
`GHOST` (R181). -/
def steppedWord (s : State) (R C : Nat) : Word :=
  nextWord s.hw.planes (width s.cfg) (ghostMemory s.cfg (currentMemory s)) (R - 1) (C - 1)

end Sys2Proof.Claims

open Sys2Proof.Claims

/-! ### Encoding -/

/-- Decoding an encoded well-formed command gives it back, with every operand at every value the two 28-bit fields
admit (R91, R92, R96).
What the spec marks as its own decision: R91 (D13, D14, D15), R92 (D15), R96 (D14). -/
def Obligations.DecodeOfEncodeGivesCommandBack : Prop :=
  ∀ i : Instr, WellFormed i = true → decode (encode i) = .instr i

/-- A word that decodes to a command is that command's only word, and the command is well-formed (R91, R96).
What the spec marks as its own decision: R91 (D13, D14, D15), R92 (D15), R96 (D14). -/
def Obligations.EncodeOfDecodeGivesWordBack : Prop :=
  ∀ (c : Word) (i : Instr), decode c = .instr i → WellFormed i = true ∧ encode i = c

/-- The seven match and mask pairs of R96, each with its operands at bits 55:28 and 27:0 (R91).
What the spec marks as its own decision: R91 (D13, D14, D15), R92 (D15), R96 (D14). -/
def Obligations.DecodeFollowsMatchAndMask : Prop :=
  ∀ c : Word,
    (c &&& 0xFF00000000000000 = 0x0100000000000000 ↔
      decode c = .instr (.newDead (c.extractLsb' 28 28).toNat (c.extractLsb' 0 28).toNat)) ∧
    (c &&& 0xFF00000000000000 = 0x0200000000000000 ↔
      decode c = .instr (.newTorus (c.extractLsb' 28 28).toNat (c.extractLsb' 0 28).toNat)) ∧
    (c &&& 0xFFFFFFFFFFFFFFFF = 0x1000000000000000 ↔ decode c = .instr .step) ∧
    (c &&& 0xFF00000000000000 = 0x2000000000000000 ↔
      decode c = .instr (.getCell (c.extractLsb' 28 28).toNat (c.extractLsb' 0 28).toNat)) ∧
    (c &&& 0xFFFFFFFFFFFFFFFF = 0x2100000000000000 ↔ decode c = .instr .live) ∧
    (c &&& 0xFFFFFFFFFFFFFFFF = 0x2200000000000000 ↔ decode c = .instr .getGen) ∧
    (c &&& 0xFFFFFFFFFFFFFFFF = 0x2300000000000000 ↔ decode c = .instr .status)

/-- The illegal words are those of R97 (a) and (b) and no others.
What the spec marks as its own decision: R97 (D18), R96 (D14). -/
def Obligations.IllegalWordsAreTheListedOnes : Prop :=
  ∀ c : Word,
    (∃ r, decode c = .illegal r) ↔
      (c.extractLsb' 56 8).toNat ∉ [0x01, 0x02, 0x10, 0x20, 0x21, 0x22, 0x23] ∨
      ((c.extractLsb' 56 8).toNat ∈ [0x10, 0x21, 0x22, 0x23] ∧
        ((c.extractLsb' 28 28).toNat ≠ 0 ∨ (c.extractLsb' 0 28).toNat ≠ 0))

/-- Command words written out from R91 and R96 (V-E1) decode to their commands.
What the spec marks as its own decision: R91 (D13, D14, D15), R96 (D14). -/
def Obligations.WrittenOutWordsDecode : Prop :=
  decode 0x0100000820000003 = .instr (.newDead 130 3) ∧
  decode 0x01FFFFFFFFFFFFFF = .instr (.newDead 268435455 268435455) ∧
  decode 0x0200000410000006 = .instr (.newTorus 65 6) ∧
  decode 0x1000000000000000 = .instr .step ∧
  decode 0x2000000810000002 = .instr (.getCell 129 2) ∧
  decode 0x2100000000000000 = .instr .live ∧
  decode 0x2200000000000000 = .instr .getGen ∧
  decode 0x2300000000000000 = .instr .status

/-! ### The port -/

/-- When no command is outstanding and the host presents a word that decodes to `i`, the step is `exec i` with the
word taken from the port and nothing else changed (R69, R90, R240); a host that would withhold itself from a stream
(log 15) changes nothing for a command without one.
What the spec marks as its own decision: R90 (D13), R240 (D19, D24). -/
def Obligations.StepRunsDecodedCommand : Prop :=
  ∀ (s : State) (c : Word) (rest : List HostAction) (i : Instr),
    s.outstanding = none → s.inbox = .cmd c :: rest ∨ (i ≠ .live ∧ ∃ k, s.inbox = .cmdHold c k :: rest) →
    decode c = .instr i →
    step s = exec i { s with inbox := rest }

/-- An illegal word is answered `(0x03, 0)` whatever the state; nothing else changes and no symbol is consumed
(R97, R235, R240 step 1).
What the spec marks as its own decision: R97 (D18), R235 (D18, D19, D20), R240 (D19, D24). -/
def Obligations.IllegalWordIsAnswered : Prop :=
  ∀ (s : State) (a : HostAction) (c : Word) (rest : List HostAction) (r : Illegal),
    s.outstanding = none → s.inbox = a :: rest → commandWord a = some c → decode c = .illegal r →
    step s = .next { s with inbox := rest, stream := [], resp := some { code := 0x03, data := 0 } }

/-- With nothing outstanding and no host action the block is idle and keeps all state (R247). By the model's choice
(log 15) a host that is ready to accept words when none is offered changes nothing.
What the spec marks as its own decision: R247 (D27). -/
def Obligations.IdleBlockKeepsState : Prop :=
  ∀ s : State, s.outstanding = none →
    (s.inbox = [] → step s = .next s) ∧
    (∀ k rest, s.inbox = .accept k :: rest → step s = .next { s with inbox := rest })

/-- Reset, whatever is outstanding: every register takes its value of section 8 of 10_state.md, the transient
registers are dropped and no response is produced (R260, R261). That no buffer holds anything is the model's choice
(log 2; R260 leaves the contents unspecified and U7 offers the option), and so is that the host's later actions remain
(log 9).
What the spec marks as its own decision: R260 (D26), R261 (D26). -/
def Obligations.ResetInputGivesResetState : Prop :=
  ∀ (s : State) (rest : List HostAction),
    s.inbox = .rst :: rest ∨ (s.outstanding ≠ none ∧ ∃ c k, s.inbox = .cmdRst c k :: rest) →
    ∃ t, step s = .next t ∧
      t.state = .uninitialized ∧ t.gen = 0 ∧ t.sel = false ∧ t.cfg = { w := 0, h := 0, bp := .dead } ∧
      t.prof = { l := .x1, fb := false } ∧ t.err = 0x00 ∧ t.errChunk = 0 ∧ t.bufs = none ∧ t.seq = none ∧
      t.outstanding = none ∧ t.resp = none ∧ t.stream = [] ∧ t.inbox = rest

/-- Reset while a command is outstanding (R261): no response, no `END` word, the reset state; of a `LIVE` that was
accepted the first `k` coordinate words have left the block, of a refused `LIVE` (R235) and of any other command none.
The model's choices: a command word, the words accepted and the reset form one action, and the host's later actions,
the draws and `drawCount` are kept (log 9); no buffer is present after reset (log 2).
What the spec marks as its own decision: R261 (D26), R126 (D21), R95 (D21), R235 (D18, D19, D20). -/
def Obligations.ResetAbandonsCommand : Prop :=
  ∀ (s : State) (c : Word) (k : Nat) (rest : List HostAction),
    s.outstanding = none → s.inbox = .cmdRst c k :: rest →
    ∃ t, step s = .next t ∧
      t = { State.reset with
            inbox := rest, stream := t.stream, hw := s.hw, calDraws := s.calDraws,
            workerDraws := s.workerDraws, drawCount := s.drawCount } ∧
      endWord ∉ t.stream ∧
      (decode c ≠ .instr .live → t.stream = []) ∧
      (decode c = .instr .live → s.state ≠ .ready → s.state ≠ .terminated → t.stream = []) ∧
      (decode c = .instr .live → (s.state = .ready ∨ s.state = .terminated) → s.bufs.isSome = true →
        t.stream = ((liveCells s).map fun p => coordWord p.1 p.2).take k)

/-! ### The commands that read -/

/-- `STATUS` answers `(0x00, status word)` in every state the host can meet and changes nothing; the fields of the
word are those of R98, with the codes of R25 and R28 and the lane widths of R29.
What the spec marks as its own decision: R98 (D28), R212 (D28), R152 (D12), R25 (D28), R28 (D2, D15). -/
def Obligations.StatusAnswersStatusWord : Prop :=
  ∀ s : State, s.state = .uninitialized ∨ s.state = .ready ∨ s.state = .terminated →
    ∃ v : Word,
      exec .status s =
        .next { s with stream := [], resp := some { code := 0x00, data := v }, outstanding := none } ∧
      (s.state = .uninitialized → v.extractLsb' 0 3 = 0) ∧
      (s.state = .ready → v.extractLsb' 0 3 = 2) ∧
      (s.state = .terminated → v.extractLsb' 0 3 = 4) ∧
      (s.cfg.bp = .dead → v.extractLsb' 3 1 = 0) ∧
      (s.cfg.bp = .torus → v.extractLsb' 3 1 = 1) ∧
      (s.prof.l = .x1 → v.extractLsb' 4 5 = 1) ∧
      (s.prof.l = .x4 → v.extractLsb' 4 5 = 4) ∧
      (s.prof.l = .x8 → v.extractLsb' 4 5 = 8) ∧
      (s.prof.l = .x16 → v.extractLsb' 4 5 = 16) ∧
      v.getLsbD 9 = s.prof.fb ∧
      v.extractLsb' 10 8 = s.err ∧
      v.extractLsb' 18 14 = 0 ∧
      v.extractLsb' 32 32 = s.errChunk

/-- `GETGEN` answers `(0x00, GEN)` in `Ready` and `Terminated` and writes nothing (R211).
What the spec marks as its own decision: R211 (D24). -/
def Obligations.GetGenAnswersGeneration : Prop :=
  ∀ s : State, s.state = .ready ∨ s.state = .terminated →
    exec .getGen s =
      .next { s with stream := [], resp := some { code := 0x00, data := s.gen }, outstanding := none }

/-- `GETCELL x, y` inside the grid answers `(0x00, cell(x, y))`, 0 or 1, where `cell(x, y)` is bit `x mod 64` of
`Cur[y+1, floor(x/64)+1]`; it changes no state (R125, R63).
What the spec marks as its own decision: R125 (D20), R63 (D3). -/
def Obligations.GetCellAnswersCell : Prop :=
  ∀ (s : State) (x y : Nat), s.state = .ready ∨ s.state = .terminated → s.bufs.isSome = true →
    x < width s.cfg → y < height s.cfg →
    exec (.getCell x y) s =
      .next { s with
        stream := [], outstanding := none,
        resp := some
          { code := 0x00, data := if (cur s (y + 1) (x / 64 + 1)).getLsbD (x % 64) then 1 else 0 } }

/-- `GETCELL` outside the grid answers `(0x05, 0)` and changes no state (R125, R235).
What the spec marks as its own decision: R125 (D20), R235 (D18, D19, D20). -/
def Obligations.GetCellOutsideGridIsBadCoordinate : Prop :=
  ∀ (s : State) (x y : Nat), s.state = .ready ∨ s.state = .terminated → s.bufs.isSome = true →
    width s.cfg ≤ x ∨ height s.cfg ≤ y →
    exec (.getCell x y) s =
      .next { s with stream := [], resp := some { code := 0x05, data := 0 }, outstanding := none }

/-- `LIVE` emits one word per live cell, row by row with `x` ascending, then the end word, and answers
`(0x00, n)` with `n` the number of live cells; it changes no state (R126). The fields of the words are those of
R95: a cell's word has `END = 0`, its `x` and its `y`; the end word has `END = 1` and nothing else.
What the spec marks as its own decision: R126 (D21), R95 (D21). -/
def Obligations.LiveStreamsTheLiveCells : Prop :=
  ∀ s : State, s.state = .ready ∨ s.state = .terminated → s.bufs.isSome = true →
    ∃ (cells : List (Nat × Nat)) (ws : List Word),
      exec .live s =
        .next { s with
          stream := ws ++ [0x8000000000000000], outstanding := none,
          resp := some { code := 0x00, data := BitVec.ofNat 64 cells.length } } ∧
      (∀ x y, (x, y) ∈ cells ↔ x < width s.cfg ∧ y < height s.cfg ∧ cell s x y = true) ∧
      cells.Pairwise (fun p q => p.2 < q.2 ∨ (p.2 = q.2 ∧ p.1 < q.1)) ∧
      ws.length = cells.length ∧
      ∀ (n : Nat) (p : Nat × Nat) (v : Word), cells[n]? = some p → ws[n]? = some v →
        v.extractLsb' 56 8 = 0 ∧ (v.extractLsb' 28 28).toNat = p.1 ∧ (v.extractLsb' 0 28).toNat = p.2

/-- The frame of the four reading commands, in every state: when they give a next state, every register, every
buffer word and every draw is as before; only the response, the coordinate stream and the end of the transaction
are written (R125, R126, R211, R212).
What the spec marks as its own decision: R125 (D20), R126 (D21), R211 (D24), R212 (D28), R66 (D13). -/
def Obligations.ReadingCommandsChangeNoState : Prop :=
  ∀ (s t : State) (i : Instr), (∃ x y, i = .getCell x y) ∨ i = .live ∨ i = .getGen ∨ i = .status →
    exec i s = .next t →
    t = { s with stream := t.stream, resp := t.resp, outstanding := none } ∧
      (∀ R C, cur t R C = cur s R C ∧ nxt t R C = nxt s R C)

/-- The refusals of the acceptance table (R240): outside its columns a command without a stream is answered
`(0x04, 0)` and nothing changes; a refused `LIVE` emits no word (R235).
What the spec marks as its own decision: R240 (D19, D24), R235 (D18, D19, D20). -/
def Obligations.RefusedCommandsAnswerIllegalState : Prop :=
  ∀ (s : State) (i : Instr),
    (s.state = .uninitialized ∧ (i = .step ∨ (∃ x y, i = .getCell x y) ∨ i = .live ∨ i = .getGen)) ∨
      (s.state = .terminated ∧ i = .step) →
    exec i s = .next { s with stream := [], resp := some { code := 0x04, data := 0 }, outstanding := none }

/-! ### Construction -/

/-- `NEW.DEAD w, h` in `Uninitialized` with a stream of `h` rows of `w` cells that fits `CAP` constructs the grid
with the dead-border policy: every register, every cell, the padding and ghost words zero, `next` all zero
(R121, R122). What is left of the draws is the model's form (log 4).
What the spec marks as its own decision: R121 (D23, D35), R122 (D2), R124 (D16, D29), R150 (D12). -/
def Obligations.NewDeadConstructsGrid : Prop :=
  ∀ (s : State) (w h : Nat) (m : List (List Bool)) (rest : List HostAction),
    WellFormed (.newDead w h) = true → s.state = .uninitialized → s.outstanding = none →
    1 ≤ w → 1 ≤ h → m.length = h → (∀ row ∈ m, row.length = w) → fitsCapacity s.hw.cap w h = true →
    s.inbox = (matrixStream m).map .sym ++ rest →
    ∃ t, exec (.newDead w h) s = .next t ∧ Constructed .dead w h m rest s t

/-- `NEW.TORUS w, h` likewise, with the toroidal policy; the ghost words are zero under it too (R121, R123). What
is left of the draws is the model's form (log 4).
What the spec marks as its own decision: R121 (D23, D35), R123 (D2), R124 (D16, D29), R150 (D12). -/
def Obligations.NewTorusConstructsGrid : Prop :=
  ∀ (s : State) (w h : Nat) (m : List (List Bool)) (rest : List HostAction),
    WellFormed (.newTorus w h) = true → s.state = .uninitialized → s.outstanding = none →
    1 ≤ w → 1 ≤ h → m.length = h → (∀ row ∈ m, row.length = w) → fitsCapacity s.hw.cap w h = true →
    s.inbox = (matrixStream m).map .sym ++ rest →
    ∃ t, exec (.newTorus w h) s = .next t ∧ Constructed .torus w h m rest s t

/-- A cell stream without a trailing row is the stream of exactly one matrix, the one the block decodes from it
(R94, R100); `trailing` is 1 just when symbols stand between the last `EOR` and the `EOM`.
What the spec marks as its own decision: R94 (D16), R100 (D3, D31). -/
def Obligations.CellStreamSpellsItsMatrix : Prop :=
  (∀ m : List (List Bool), parseCells (matrixStream m) = (m, false)) ∧
  (∀ (cells : List CellSym) (m : List (List Bool)), CellSym.eom ∉ cells → parseCells cells = (m, false) →
    cells ++ [.eom] = matrixStream m) ∧
  (∀ (m : List (List Bool)) (last : List CellSym), last ≠ [] → (∀ c ∈ last, c = .cell0 ∨ c = .cell1) →
    parseCells (m.flatMap rowStream ++ last ++ [.eom]) = (m, true))

/-- A `NEW.*` whose matrix is not valid by R124 is answered `(0x01, 0)`, writes `ERR` and nothing else, and leaves
the block `Uninitialized`; its stream is consumed to the `EOM` (R121 step 1, R124, R232).
What the spec marks as its own decision: R124 (D16, D29), R232 (D23), R121 (D23, D35), R231 (D17). -/
def Obligations.MalformedMatrixIsConfigurationError : Prop :=
  ∀ (s : State) (i : Instr) (a b : Nat) (cells : List CellSym) (m : List (List Bool)) (trailing : Bool)
    (rest : List HostAction),
    i = .newDead a b ∨ i = .newTorus a b → s.state = .uninitialized → s.outstanding = none →
    s.inbox = cells.map .sym ++ .sym .eom :: rest → CellSym.eom ∉ cells →
    parseCells cells = (m, trailing) →
    a = 0 ∨ b = 0 ∨ m.length ≠ b ∨ (∃ row ∈ m, row.length ≠ a) ∨ trailing = true ∨
      (∃ n, s.hw.cap = some n ∧ n < ((a + 63) / 64 + 2) * (b + 2)) →
    exec i s =
      .next { s with
        inbox := rest, err := 0x01, stream := [], resp := some { code := 0x01, data := 0 },
        outstanding := none }

/-- A `NEW.*` outside `Uninitialized` consumes its stream, is answered `(0x04, 0)` and changes nothing else
(R235, R240).
What the spec marks as its own decision: R235 (D18, D19, D20), R240 (D19, D24), R94 (D16). -/
def Obligations.NewOutsideUninitializedIsRefused : Prop :=
  ∀ (s : State) (i : Instr) (a b : Nat) (cells : List CellSym) (rest : List HostAction),
    i = .newDead a b ∨ i = .newTorus a b → s.state = .ready ∨ s.state = .terminated → s.outstanding = none →
    s.inbox = cells.map .sym ++ .sym .eom :: rest → CellSym.eom ∉ cells →
    exec i s =
      .next { s with
        inbox := rest, stream := [], resp := some { code := 0x04, data := 0 }, outstanding := none }

/-- A cell stream may arrive in pieces (R90, R94): a `NEW.*` whose symbols so far hold no `EOM` gives no response and
stays outstanding, every register of the block, the parameters and the draws being as before; going on later with the
rest of the host's actions gives what the whole stream would have given at once. That the waiting command answers a
next state in which all symbols so far are taken is the model's form (log 7).
What the spec marks as its own decision: R90 (D13), R94 (D16). -/
def Obligations.CellStreamMayArriveInPieces : Prop :=
  ∀ (s : State) (i : Instr) (a b : Nat) (cells : List CellSym) (later : List HostAction),
    i = .newDead a b ∨ i = .newTorus a b → s.outstanding = none → s.inbox = cells.map .sym →
    CellSym.eom ∉ cells → noReset { s with inbox := later } = true →
    ∃ t, exec i s = .next t ∧
      t = { s with inbox := [], stream := [], resp := none, outstanding := some { instr := i, cells := cells } } ∧
      step { t with inbox := later } = exec i { s with inbox := cells.map .sym ++ later }

/-- What `DETECT` can select (R150): with `LANES = {1}` or a calibration error the scalar width and the fallback
flag, else a member of `LANES` and no flag, any member being selected by some draw; and it writes nothing else of
the block. The form of the draw is the
model's (log 4).
What the spec marks as its own decision: R150 (D12). -/
def Obligations.CalibrationSelectsExposedWidth : Prop :=
  (∀ s : State, s.hw.lanes = { has4 := false, has8 := false, has16 := false } ∨ (calDraw s).calError = true →
    (detect s).prof = { l := .x1, fb := true }) ∧
  (∀ s : State, s.hw.lanes ≠ { has4 := false, has8 := false, has16 := false } → (calDraw s).calError = false →
    (detect s).prof.fb = false ∧ (detect s).prof.l ∈ laneList s.hw.lanes) ∧
  (∀ (ls : LaneSet) (l : LaneWidth), ls ≠ { has4 := false, has8 := false, has16 := false } → l ∈ laneList ls →
    ∃ d : CalDraw, profileOf ls d = { l := l, fb := false }) ∧
  (∀ s : State,
    detect s =
      { s with
        prof := (detect s).prof, calDraws := (detect s).calDraws, drawCount := (detect s).drawCount })

/-- `PROF` is written once per successful `NEW.*` and by nothing else until reset (R151), and so is `CFG` (R28): a
step that is not a reset changes them only in taking the block from `Uninitialized` to `Ready`.
What the spec marks as its own decision: R28 (D2, D15), R30 (D17). -/
def Obligations.ProfileAndConfigurationAreWrittenOnce : Prop :=
  ∀ s t : State, Inv s → noReset s = true → step s = .next t →
    (t.prof = s.prof ∧ t.cfg = s.cfg) ∨
      (s.state = .uninitialized ∧ t.state = .ready ∧ t.resp.map (·.code) = some 0x00 ∧
        t.prof = profileOf s.hw.lanes (calDraw s))

/-! ### `GHOST` -/

/-- `GHOST` changes no interior word of `current` and no word of `next` (R127, R130).
What the spec marks as derived: R130. -/
def Obligations.GhostKeepsInteriorAndNext : Prop :=
  ∀ (s : State) (R C : Nat),
    (interior (width s.cfg) (height s.cfg) R C = true → cur (ghost s) R C = cur s R C) ∧
      nxt (ghost s) R C = nxt s R C

/-- `GHOST` under `DEAD` writes 0 to every word of the ghost region of `current` (R128).
What the spec marks as its own decision: R128 (D34). -/
def Obligations.GhostUnderDeadIsZero : Prop :=
  ∀ (s : State) (R C : Nat), s.cfg.bp = .dead → s.bufs.isSome = true → (currentMemory s).wf = true →
    ghostRegion (width s.cfg) (height s.cfg) R C = true → cur (ghost s) R C = 0

/-- `GHOST` under `TORUS` word by word (R129): the side words hold one edge bit at the boundary position and zeros
elsewhere, and the ghost rows are copies of the opposite rows, ghost columns included.
What the spec marks as its own decision: R129 (D5). -/
def Obligations.GhostUnderTorusMirrorsEdges : Prop :=
  ∀ s : State, s.cfg.bp = .torus → s.bufs.isSome = true → (currentMemory s).wf = true →
    1 ≤ width s.cfg → 1 ≤ height s.cfg →
    (∀ r, r < height s.cfg →
      cur (ghost s) (r + 1) 0 = (if cell s (width s.cfg - 1) r then 0x8000000000000000 else 0) ∧
      cur (ghost s) (r + 1) (wordsPerRow (width s.cfg) - 1) = (if cell s 0 r then 1 else 0)) ∧
    (∀ C, C < wordsPerRow (width s.cfg) →
      cur (ghost s) 0 C = cur (ghost s) (height s.cfg) C ∧
      cur (ghost s) (height s.cfg + 1) C = cur (ghost s) 1 C)

/-- What `GHOST` establishes (R130): after it the extended cell function of the grid stands in `current`, in the
data words for `0 <= x < W`, in bit 63 of the left ghost word for `x = -1` and in bit 0 of the right ghost word for
`x = W`, in every row from `y = -1` to `y = H`.
What the spec marks as derived: R130; as its own decision: R128 (D34), R129 (D5). -/
def Obligations.GhostEstablishesExtendedCells : Prop :=
  ∀ s : State, s.bufs.isSome = true → (currentMemory s).wf = true → 1 ≤ width s.cfg → 1 ≤ height s.cfg →
    ∀ R, R < bufferRows (height s.cfg) →
      (∀ x : Nat, x < width s.cfg →
        (cur (ghost s) R (x / 64 + 1)).getLsbD (x % 64) = ext s x ((R : Int) - 1)) ∧
      (cur (ghost s) R 0).getLsbD 63 = ext s (-1) ((R : Int) - 1) ∧
      (cur (ghost s) R (wordsPerRow (width s.cfg) - 1)).getLsbD 0 = ext s (width s.cfg) ((R : Int) - 1)

/-- `GHOST` is idempotent (R130).
What the spec marks as derived: R130. -/
def Obligations.GhostIsIdempotent : Prop :=
  ∀ s : State, s.bufs.isSome = true → (currentMemory s).wf = true → 1 ≤ width s.cfg → 1 ≤ height s.cfg →
    ∀ R C, R < bufferRows (height s.cfg) → C < wordsPerRow (width s.cfg) →
      cur (ghost (ghost s)) R C = cur (ghost s) R C

/-! ### NeighborCounter -/

/-- The half adder and the full adder of R167, and what they count: at every bit position `sum + 2*carry` is the
number of ones among the inputs. -/
def Obligations.AdderCellsCountOnes : Prop :=
  ∀ (a b c : Word) (n : Nat),
    halfAdd a b = (a ^^^ b, a &&& b) ∧
    fullAdd a b c = (a ^^^ b ^^^ c, (a &&& b) ||| (a &&& c) ||| (b &&& c)) ∧
    ((halfAdd a b).1.getLsbD n).toNat + 2 * ((halfAdd a b).2.getLsbD n).toNat =
      (a.getLsbD n).toNat + (b.getLsbD n).toNat ∧
    ((fullAdd a b c).1.getLsbD n).toNat + 2 * ((fullAdd a b c).2.getLsbD n).toNat =
      (a.getLsbD n).toNat + (b.getLsbD n).toNat + (c.getLsbD n).toNat

/-- The planes of `ADDNET` hold, at every bit position, the number of ones among the eight masks (R170, R33).
What the spec marks as derived: R170; as its own decision: R170 (D8). -/
def Obligations.AdderNetworkCountsNeighbours : Prop :=
  ∀ (d : Masks) (n : Nat),
    ((addNet d).p0.getLsbD n).toNat + 2 * ((addNet d).p1.getLsbD n).toNat +
        4 * ((addNet d).p2.getLsbD n).toNat + 8 * ((addNet d).p3.getLsbD n).toNat =
      (d.nw.getLsbD n).toNat + (d.n.getLsbD n).toNat + (d.ne.getLsbD n).toNat + (d.wd.getLsbD n).toNat +
        (d.e.getLsbD n).toNat + (d.sw.getLsbD n).toNat + (d.s.getLsbD n).toNat + (d.se.getLsbD n).toNat

/-- "A cell's next state is alive iff (count == 3) OR (count == 2 AND current state bit == 1)" (R172): at the bit
of a real cell the word `RULE` writes is alive just then, the count being the number of ones among the eight masks,
for three and for four planes (R176). -/
def Obligations.RuleIsBirthOnThreeSurvivalOnTwoOrThree : Prop :=
  ∀ (planes : PlaneCount) (d : Masks) (x valid : Word) (n k : Nat), valid.getLsbD n = true →
    k = (d.nw.getLsbD n).toNat + (d.n.getLsbD n).toNat + (d.ne.getLsbD n).toNat + (d.wd.getLsbD n).toNat +
        (d.e.getLsbD n).toNat + (d.sw.getLsbD n).toNat + (d.s.getLsbD n).toNat + (d.se.getLsbD n).toNat →
    ((ruleWord planes (addNet d) x valid).getLsbD n = true ↔ k = 3 ∨ (k = 2 ∧ x.getLsbD n = true))

/-- `VALID(j)` has a 1 at every bit position that holds a real cell and at no other (R174).
What the spec marks as derived: R174; as its own decision: R63 (D3). -/
def Obligations.ValidMaskMarksRealCells : Prop :=
  ∀ w j n : Nat, 1 ≤ w → j < dataWords w → n < 64 → ((validMask w j).getLsbD n = true ↔ 64 * j + n < w)

/-- What the masks mean (R166): after `GHOST`, at the bit of cell `(x, y)` each direction mask holds the extended
cell one step in its direction.
What the spec marks as derived: R166, R130; as its own decision: R163 (D3), R164 (D6). -/
def Obligations.DirectionMasksHoldNeighbours : Prop :=
  ∀ (s : State) (x y : Nat) (d : Masks), Inv s → s.state ≠ .uninitialized →
    x < width s.cfg → y < height s.cfg →
    d = dirMask (width s.cfg) (currentMemory (ghost s)) y (x / 64) →
    d.nw.getLsbD (x % 64) = ext s (x - 1) (y - 1) ∧ d.n.getLsbD (x % 64) = ext s x (y - 1) ∧
    d.ne.getLsbD (x % 64) = ext s (x + 1) (y - 1) ∧ d.wd.getLsbD (x % 64) = ext s (x - 1) y ∧
    d.e.getLsbD (x % 64) = ext s (x + 1) y ∧ d.sw.getLsbD (x % 64) = ext s (x - 1) (y + 1) ∧
    d.s.getLsbD (x % 64) = ext s x (y + 1) ∧ d.se.getLsbD (x % 64) = ext s (x + 1) (y + 1)

/-- The batches of a row cover its data words, each exactly once (R180, R270).
What the spec marks as derived: R270; as its own decision: R180 (D10). -/
def Obligations.BatchesCoverRowOnce : Prop :=
  ∀ (nd j : Nat) (l : LaneWidth), j < nd →
    ∃ j0, (j0 ≤ j ∧ j < j0 + batchLength nd (laneNat l) j0 ∧ j0 + batchLength nd (laneNat l) j0 ≤ nd) ∧
      ∀ j1, j1 ≤ j → j < j1 + batchLength nd (laneNat l) j1 → j1 = j0

/-! ### StepScheduler -/

/-- The properties of the partition (R201): `lo(0) = 0`, `hi(T-1) = H`, `lo(c) <= hi(c)`, `hi(c) = lo(c+1)`; every
word of the grid is in exactly one `PEND[c]`; sizes differ by at most one row.
What the spec marks as derived: R201; as its own decision: R200 (D11). -/
def Obligations.PartitionCoversRowsOnce : Prop :=
  ∀ nd h t : Nat, 1 ≤ t →
    chunkLo h t 0 = 0 ∧ chunkHi h t (t - 1) = h ∧
    (∀ c, c < t → chunkLo h t c ≤ chunkHi h t c ∧ chunkHi h t c = chunkLo h t (c + 1)) ∧
    (∀ r j, r < h → j < nd →
      ∃ c, c < t ∧ (r, j) ∈ chunkWords nd h t c ∧ ∀ c', c' < t → (r, j) ∈ chunkWords nd h t c' → c' = c) ∧
    (∀ c c', c < t → c' < t →
      chunkHi h t c - chunkLo h t c ≤ chunkHi h t c' - chunkLo h t c' + 1)

/-- A `STEP` in which no task fails completes: `SEL` is complemented, `GEN` goes up by one, the block is `Ready`,
the response is `(0x00, GEN)` and every other register is unchanged (R203, R131). The draw is the model's form (log 4,
log 5). -/
def Obligations.StepWithoutFailureAdvances : Prop :=
  ∀ s : State, StepAccepted s → NoFailure s → ∃ t, exec .step s = .next t ∧ Advanced s t

/-- What a successful `STEP` computes, at cell level (R205): every cell of the new `current` is the rule applied to
the old cell and its old neighbour count under the boundary policy, and every padding bit is 0.
What the spec marks as derived: R205, R171, R130. -/
def Obligations.StepComputesNextGeneration : Prop :=
  ∀ s : State, Inv s → StepAccepted s → NoFailure s →
    ∃ t, exec .step s = .next t ∧
      (∀ x y, x < width s.cfg → y < height s.cfg → cell t x y = lifeRule (count s x y) (cell s x y)) ∧
      PaddingZero t.cfg (currentMemory t)

/-- The memory a successful `STEP` writes, word by word (R203, R270): every interior word of the new `current` is
`RULE`'s word, whatever the draw; its ghost region is as it was; the old `current`, now `next`, has its ghost
region refreshed and its interior unchanged.
What the spec marks as derived: R270. -/
def Obligations.StepWritesEveryInteriorWord : Prop :=
  ∀ s t : State, LegalHardware s.hw → StepAccepted s → NoFailure s → (nextMemory s).wf = true →
    exec .step s = .next t → ∀ R C,
      (interior (width s.cfg) (height s.cfg) R C = true →
        cur t R C = steppedWord s R C ∧ nxt t R C = cur s R C) ∧
      (ghostRegion (width s.cfg) (height s.cfg) R C = true →
        cur t R C = nxt s R C ∧ nxt t R C = cur (ghost s) R C)

/-- "The reported error is deterministically the one from the lowest row-chunk index" (R239): when `c` is the least
with `FAIL[c] = 1` at the join, whatever fails above it and in whatever order of time, the `STEP` ends as R204 and R231
say, with `c` in `ERRCHUNK` and in the response. When `FAIL[c]` is 1, in terms of the events a draw lists (the model's
form, log 5): a draw that fails `c` and does not end its task sets it, and one that does not fail `c` leaves it 0.
What the spec marks as its own decision: R231 (D17), R236 (D25). -/
def Obligations.LowestFailedChunkIsReported : Prop :=
  (∀ (s : State) (c : Nat), LegalHardware s.hw → StepAccepted s → LowestFailure s c →
    ∃ t, exec .step s = .next t ∧ Failed c s t) ∧
  (∀ (s : State) (es : List WorkerEvent) (c : Nat), c < s.hw.workers →
    (.fail c ∈ es → .finish c ∉ es → (joinWorkers es s)[c]?.map (·.fail) = some true) ∧
    (.fail c ∉ es → (joinWorkers es s)[c]?.map (·.fail) = some false))

/-- Whatever the draw, a `STEP` ends in `Ready` by R203 or in `Terminated` by R204 (R206, R234). The draw is the model's
form (log 4, log 5).
What the spec marks as derived: R206, R275. -/
def Obligations.StepEndsAdvancedOrFailed : Prop :=
  ∀ s : State, LegalHardware s.hw → StepAccepted s →
    ∃ t, exec .step s = .next t ∧ (Advanced s t ∨ ∃ c, c < s.hw.workers ∧ Failed c s t)

/-- A failed `STEP` is transactional (R204, R234, R241): the host reads the grid and `GEN` as before, no role is
exchanged, every interior word of `current` is unchanged, its ghost region is as `GHOST` left it, and no word of
`next` in the ghost region is written. -/
def Obligations.FailedStepKeepsVisibleGrid : Prop :=
  ∀ s t : State, StepAccepted s → (nextMemory s).wf = true → exec .step s = .next t → t.state = .terminated →
    SameReads s t ∧ t.sel = s.sel ∧
    ∀ R C,
      (interior (width s.cfg) (height s.cfg) R C = true → cur t R C = cur s R C) ∧
      (ghostRegion (width s.cfg) (height s.cfg) R C = true →
        cur t R C = cur (ghost s) R C ∧ nxt t R C = nxt s R C)

/-- After a failed `STEP` every interior word of `next` is its old value or the value `RULE` would have written
(U6, R236).
What the spec marks as its own decision: R236 (D25). -/
def Obligations.FailedStepLeavesOldOrNewWords : Prop :=
  ∀ s t : State, LegalHardware s.hw → StepAccepted s → (nextMemory s).wf = true →
    exec .step s = .next t → t.state = .terminated →
    ∀ R C, interior (width s.cfg) (height s.cfg) R C = true → nxt t R C = nxt s R C ∨ nxt t R C = steppedWord s R C

/-- Determinism (R206): when no chunk fails, the state after a `STEP` and its response do not depend on `T`, on
`NPLANES`, on `LANES`, on the selected lane width, or on the order in which workers and batches run. The
form of the draws is the model's (log 4, log 5).
What the spec marks as derived: R206, R176; as its own decision: R7 (D12). -/
def Obligations.StepIsIndependentOfWorkersLanesAndOrder : Prop :=
  ∀ (s t u : State) (p : Profile) (q : Hardware) (ds : List (List WorkerEvent)) (n : Nat),
    Inv s → StepAccepted s → NoFailure s →
    LegalHardware q → NoFailure { s with prof := p, hw := q, workerDraws := ds, drawCount := n } →
    exec .step s = .next t →
    exec .step { s with prof := p, hw := q, workerDraws := ds, drawCount := n } = .next u →
    u = { t with prof := p, hw := q, workerDraws := u.workerDraws, drawCount := u.drawCount }

/-- The fault environment may fail any subset of the chunks (R236): for every choice of chunks some worker draw fails
exactly those. The draw as a list of events is the model's form (log 5).
What the spec marks as its own decision: R236 (D25). -/
def Obligations.EveryFailSetIsDrawn : Prop :=
  ∀ (s : State) (failset : Nat → Bool),
    ∃ es, (joinWorkers es s).length = s.hw.workers ∧
      ∀ c q, (joinWorkers es s)[c]? = some q → q.fail = failset c

/-- At the join every task has ended, and a task that did not fail has written every word of its chunk (R202, R204,
R71 barrier B2). The draw as a list of events, the tasks left then ending in index order, is the model's form (log 5). -/
def Obligations.JoinWaitsForEveryTask : Prop :=
  ∀ (s : State) (es : List WorkerEvent), (joinWorkers es s).length = s.hw.workers ∧
    ∀ q ∈ joinWorkers es s, q.done = true ∧ (q.fail = false → q.pend = [])

/-- A worker writes only words of `next` that stand in its `PEND[c]`, so no ghost word, no word it has written and no
word of another chunk, and no other worker's registers (R67, R68, R202, R236): for an event of worker `c` with
registers `q`. The events are the model's form of the workers' moves (log 5).
What the spec marks as its own decision: R236 (D25). -/
def Obligations.WorkerWritesOnlyItsOwnSlice : Prop :=
  ∀ (v : WorkerView) (k : Running) (e : WorkerEvent) (c : Nat) (q : WorkerRegs),
    (∃ n, e = .batch c n) ∨ e = .fail c ∨ e = .finish c → k.workers[c]? = some q →
    (∀ p ∈ q.pend, p.2 < dataWords v.width) →
    (∀ c', c' ≠ c → (workerEvent v k e).workers[c']? = k.workers[c']?) ∧
    (∀ R C, C < wordsPerRow v.width → R = 0 ∨ C = 0 ∨ (R - 1, C - 1) ∉ q.pend →
      rd v.width (workerEvent v k e).next R C = rd v.width k.next R C)

/-- `STEP` in `Ready` at `GEN = 2^64 - 1` has no successor (U9): the model refuses it by name (log 11).
What the spec marks as its own decision: R26 (D22). -/
def Obligations.StepAtGenerationLimitIsRefused : Prop :=
  ∀ s : State, s.state = .ready → s.gen = BitVec.allOnes 64 → exec .step s = .refused .generationLimit

/-! ### The whole machine -/

/-- Every step keeps the invariant of the block between commands, `Inv` of Safety.lean: the registers (R25, R28, R29,
R31, R32, R207), the buffers once a grid exists (R34, R35, R267), and what is outstanding at the port, which has no
response yet (R90): a `NEW.*` whose symbols so far hold no `EOM` (R94), or an accepted `LIVE` of whose stream a proper
beginning has left (R268). The model's own, not the spec's: that a waiting `NEW.*` stands with its symbols taken
(log 7) and that a waiting `LIVE` stands with the accepted words in `stream` (log 15); that there is no buffer while
`Uninitialized` (log 2, the option U7 offers); that the transient registers are absent between commands (log 10); the
canonical form of a buffer (log 1); the bounds of the parameters (log 3).
What the spec marks as its own decision: R25 (D28), R28 (D2, D15), R31 (D17), R32 (D17), R207 (D23), R90 (D13),
R94 (D16), R268 (D13). -/
def Obligations.StepKeepsInvariant : Prop := ∀ s t : State, Inv s → step s = .next t → Inv t

/-- The reset state meets the invariant. That reset leaves no buffer and nothing at the port is the model's choice
(log 2, log 6).
What the spec marks as its own decision: R260 (D26). -/
def Obligations.ResetMeetsInvariant : Prop := Inv State.reset

/-- Every transition of the engine state machine and no other (R207): reset leads to `Uninitialized`; else a step
keeps the state, or leads from `Uninitialized` to `Ready`, or from `Ready` to `Terminated`, the last only when the
response is `StepExecutionError`.
What the spec marks as derived: R264; as its own decision: R207 (D23). -/
def Obligations.EngineStateTransitions : Prop :=
  ∀ s t : State, Inv s → step s = .next t →
    (noReset s = false → t.state = .uninitialized) ∧
    (noReset s = true →
      t.state = s.state ∨
      (s.state = .uninitialized ∧ t.state = .ready ∧ t.resp.map (·.code) = some 0x00) ∨
      (s.state = .ready ∧ t.state = .terminated ∧ t.resp.map (·.code) = some 0x02))

/-- `Terminated` is absorbing with respect to every command: only reset leaves it, and until then the host reads the
last good generation (R242, R264).
What the spec marks as derived: R264; as its own decision: R207 (D23). -/
def Obligations.TerminatedIsAbsorbing : Prop :=
  ∀ s t : State, Inv s → s.state = .terminated → noReset s = true → step s = .next t →
    t.state = .terminated ∧ t.err = s.err ∧ t.errChunk = s.errChunk ∧ SameReads s t

/-- `GEN` is incremented by 1 by each successful `STEP` and unchanged by a failed `STEP` and by every other command
once a grid exists; it never wraps (R26, R246).
What the spec marks as its own decision: R26 (D22), R246 (D30). -/
def Obligations.GenerationCountsSuccessfulSteps : Prop :=
  ∀ s t : State, Inv s → s.state ≠ .uninitialized → noReset s = true → step s = .next t →
    t.gen = s.gen ∨
      (∃ a c rest, s.outstanding = none ∧ s.inbox = a :: rest ∧ commandWord a = some c ∧ decode c = .instr .step ∧
        s.state = .ready ∧
        t.state = .ready ∧ t.gen.toNat = s.gen.toNat + 1)

/-- What the host reads changes only with a successful `STEP` (R36, R131): once a grid exists, a step that is not a
reset and leaves `GEN` as it is leaves every answer of `GETCELL`, `LIVE` and `GETGEN` as it was. -/
def Obligations.GridChangesOnlyWithGeneration : Prop :=
  ∀ s t : State, Inv s → s.state ≠ .uninitialized → noReset s = true → step s = .next t → t.gen = s.gen →
    SameReads s t

/-- Errors are precise (R241): a step that ends a command with a code other than `0x00` leaves everything the host
can read exactly as it was, and writes only the registers of the "recorded" column of R231, with the `data` of that
table.
What the spec marks as its own decision: R231 (D17). -/
def Obligations.ErrorsArePrecise : Prop :=
  ∀ (s t : State) (r : Response), Inv s →
    (s.outstanding ≠ none ∨ ∃ a c rest, s.inbox = a :: rest ∧ commandWord a = some c) →
    noReset s = true → step s = .next t → t.resp = some r → r.code ≠ 0x00 →
    SameReads s t ∧ t.gen = s.gen ∧ t.sel = s.sel ∧ t.cfg = s.cfg ∧ t.prof = s.prof ∧
      ((r.code = 0x01 ∧ r.data = 0 ∧ t.err = 0x01 ∧ t.errChunk = s.errChunk ∧ t.state = s.state ∧ t.bufs = s.bufs) ∨
       (r.code = 0x02 ∧ t.err = 0x02 ∧ r.data = t.errChunk.setWidth 64 ∧ t.state = .terminated) ∨
       ((r.code = 0x03 ∨ r.code = 0x04 ∨ r.code = 0x05) ∧ r.data = 0 ∧
         t.err = s.err ∧ t.errChunk = s.errChunk ∧ t.state = s.state ∧ t.bufs = s.bufs))

/-- In no state that meets the invariant does a step fault (the one fault is for the optional buffers of log 2, U7);
it is refused only when it runs a `STEP` in `Ready` at the generation limit (U9; log 11) or when the host sends a symbol
that no `NEW.*` asked for (R268; log 8).
What the spec marks as its own decision: R268 (D13). -/
def Obligations.StopsAreOnlyTheNamedOnes : Prop :=
  ∀ s : State, Inv s →
    (∀ f, step s ≠ .fault f) ∧
    (∀ r, step s = .refused r →
      (r = .generationLimit ∧ s.state = .ready ∧ s.gen = BitVec.allOnes 64 ∧ s.outstanding = none ∧
        ∃ a c rest, s.inbox = a :: rest ∧ commandWord a = some c ∧ decode c = .instr .step) ∨
      (r = .unsolicitedSymbol ∧
        (s.outstanding = none ∨ s.outstanding = some { instr := .live, cells := [] }) ∧
        ∃ c rest, s.inbox = .sym c :: rest))

/-- The elaboration parameters are constant (R7; log 3).
What the spec marks as its own decision: R7 (D12), R6 (D15, D29). -/
def Obligations.ElaborationParametersAreConstant : Prop := ∀ s t : State, step s = .next t → t.hw = s.hw

/-! ### The host and the coordinate stream -/

/-- A host that accepts `k` words of a `LIVE`'s stream (R268, "accept stream words until `END = 1`; otherwise the
command never completes"): while the stream is longer those `k` words have left, there is no response and the command
is outstanding, every register being as before; else the command has completed. The form of the action is the model's
choice (log 15).
What the spec marks as its own decision: R268 (D13), R95 (D21), R126 (D21). -/
def Obligations.LiveWaitsForTheHost : Prop :=
  ∀ (s : State) (c : Word) (k : Nat) (rest : List HostAction),
    s.outstanding = none → s.inbox = .cmdHold c k :: rest → decode c = .instr .live →
    s.state = .ready ∨ s.state = .terminated → s.bufs.isSome = true →
    ∃ t, exec .live { s with inbox := rest } = .next t ∧
      (k < t.stream.length → step s =
        .next { s with
          inbox := rest, stream := t.stream.take k, resp := none,
          outstanding := some { instr := .live, cells := [] } }) ∧
      (t.stream.length ≤ k → step s = .next t)

/-- A `LIVE` that waits for the host (R268): a proper beginning of its stream has left, so not `END`, and there is no
response; when the host accepts `k` further words they leave, and the command completes with the answer it would have
given at once when the last has; as long as the host accepts nothing and does not reset, nothing changes. The form of
the host's actions is the model's choice (log 15), as is the refusal of a symbol, which the last clause leaves out
(log 8).
What the spec marks as its own decision: R268 (D13), R95 (D21), R126 (D21), R90 (D13). -/
def Obligations.HeldLiveGoesOnAsTheHostAccepts : Prop :=
  ∀ s : State, Inv s → s.outstanding = some { instr := .live, cells := [] } →
    s.resp = none ∧
    (∃ t n, exec .live s = .next t ∧ n < t.stream.length ∧ s.stream = t.stream.take n) ∧
    (∀ k rest, s.inbox = .accept k :: rest →
      ∃ t, exec .live { s with inbox := rest } = .next t ∧
        (s.stream.length + k < t.stream.length →
          step s = .next { s with inbox := rest, stream := t.stream.take (s.stream.length + k) }) ∧
        (t.stream.length ≤ s.stream.length + k → step s = .next t)) ∧
    (noReset s = true → (∀ k rest, s.inbox ≠ .accept k :: rest) → (∀ a rest, s.inbox ≠ .sym a :: rest) →
      step s = .next s)
end

