-- ==== Sys2Proof/Laws/Memory.lean ====
section
/-! SUPPORT. The laws of buffer words: read after write, the canonical form, extensionality, and word indices. -/

namespace Sys2Proof.Machine

/-! ### One write -/

@[simp] theorem Memory.read_nil (a : Nat) : Memory.read [] a = Memory.unlisted := rfl

@[simp] theorem Memory.wf_nil : Memory.wf [] = true := rfl

theorem Memory.wf_cons {k : Nat} {v : Word} {t : Memory} :
    Memory.wf ((k, v) :: t) = true ↔
      v ≠ Memory.unlisted ∧ (∀ e ∈ t, k < e.1) ∧ Memory.wf t = true := by
  simp [Memory.wf, and_assoc]

/-- An index below every listed one reads as unlisted. -/
theorem Memory.read_of_lt (m : Memory) (a : Nat) (h : ∀ e ∈ m, a < e.1) : m.read a = Memory.unlisted := by
  induction m with
  | nil => rfl
  | cons e t ih =>
    have hlt : a < e.1 := h e (by simp)
    have hne : ¬ e.1 = a := by omega
    simp only [Memory.read, hne, if_false]
    exact ih fun e' he' => h e' (by simp [he'])

/-- Read after a write to the same index. -/
theorem Memory.read_write_same (m : Memory) (a : Nat) (v : Word) (h : m.wf = true) :
    (m.write a v).read a = v := by
  induction m with
  | nil => by_cases hv : v = Memory.unlisted <;> simp [Memory.write, Memory.read, hv]
  | cons e t ih =>
    obtain ⟨k, x⟩ := e
    obtain ⟨_, hlt, ht⟩ := Memory.wf_cons.1 h
    unfold Memory.write
    split
    · rename_i hak
      split
      · rename_i hv
        rw [hv]
        apply Memory.read_of_lt
        intro e he
        rcases List.mem_cons.1 he with rfl | he
        · exact hak
        · have := hlt e he; omega
      · simp [Memory.read]
    · split
      · rename_i _ hak
        split
        · rename_i hv
          rw [hv]
          exact Memory.read_of_lt _ _ fun e he => by rw [hak]; exact hlt e he
        · simp [Memory.read]
      · rename_i _ hak
        have hne : ¬ k = a := fun hk => hak hk.symm
        simp only [Memory.read, hne, if_false]
        exact ih ht

/-- A write leaves every other index alone. -/
theorem Memory.read_write_other (m : Memory) (a b : Nat) (v : Word) (h : a ≠ b) :
    (m.write a v).read b = m.read b := by
  induction m with
  | nil => by_cases hv : v = Memory.unlisted <;> simp [Memory.write, Memory.read, hv, h]
  | cons e t ih =>
    obtain ⟨k, x⟩ := e
    unfold Memory.write
    split
    · split <;> simp [Memory.read, h]
    · split
      · rename_i _ hak
        have hne : ¬ k = b := by omega
        split <;> simp [Memory.read, h, hne]
      · simp only [Memory.read, ih]

theorem Memory.read_write (m : Memory) (a b : Nat) (v : Word) (h : m.wf = true) :
    (m.write a v).read b = if a = b then v else m.read b := by
  split
  · rename_i hab; rw [← hab]; exact Memory.read_write_same m a v h
  · rename_i hab; exact Memory.read_write_other m a b v hab

/-- The indices a write leaves listed. -/
theorem Memory.mem_write (m : Memory) (a : Nat) (v : Word) (e : Nat × Word) (h : e ∈ m.write a v) :
    e = (a, v) ∨ e ∈ m := by
  induction m with
  | nil =>
    simp only [Memory.write] at h
    split at h
    · simp at h
    · left; simpa using h
  | cons e' t ih =>
    obtain ⟨k, x⟩ := e'
    simp only [Memory.write] at h
    split at h
    · split at h
      · exact .inr h
      · rcases List.mem_cons.1 h with h | h
        · exact .inl h
        · exact .inr h
    · split at h
      · split at h
        · exact .inr (by simp [h])
        · rcases List.mem_cons.1 h with h | h
          · exact .inl h
          · exact .inr (by simp [h])
      · rcases List.mem_cons.1 h with h | h
        · exact .inr (by simp [h])
        · rcases ih h with h | h
          · exact .inl h
          · exact .inr (by simp [h])

/-- A write keeps the canonical form. -/
theorem Memory.wf_write (m : Memory) (a : Nat) (v : Word) (h : m.wf = true) : (m.write a v).wf = true := by
  induction m with
  | nil => by_cases hv : v = Memory.unlisted <;> simp [Memory.write, Memory.wf, hv]
  | cons e t ih =>
    obtain ⟨k, x⟩ := e
    obtain ⟨hx, hlt, ht⟩ := Memory.wf_cons.1 h
    unfold Memory.write
    split
    · rename_i hak
      split
      · exact h
      · rename_i hv
        refine Memory.wf_cons.2 ⟨hv, ?_, h⟩
        intro e he
        rcases List.mem_cons.1 he with rfl | he
        · exact hak
        · have := hlt e he; omega
    · split
      · rename_i _ hak
        split
        · exact ht
        · rename_i hv
          exact Memory.wf_cons.2 ⟨hv, by rw [hak]; exact hlt, ht⟩
      · rename_i hak hne
        refine Memory.wf_cons.2 ⟨hx, ?_, ih ht⟩
        intro e he
        rcases Memory.mem_write t a v e he with rfl | he
        · show k < a; omega
        · exact hlt e he

/-- A write inside the buffer keeps every index inside it. -/
theorem Memory.below_write (n : Nat) (m : Memory) (a : Nat) (v : Word) (h : m.below n = true) (ha : a < n) :
    (m.write a v).below n = true := by
  simp only [Memory.below, List.all_eq_true, decide_eq_true_eq] at h ⊢
  intro e he
  rcases Memory.mem_write m a v e he with rfl | he
  · exact ha
  · exact h e he

/-- Two buffers in canonical form that read alike are the same list. -/
theorem Memory.ext (m n : Memory) (hm : m.wf = true) (hn : n.wf = true)
    (h : ∀ a, m.read a = n.read a) : m = n := by
  induction m generalizing n with
  | nil =>
    cases n with
    | nil => rfl
    | cons e t =>
      obtain ⟨k, x⟩ := e
      have := h k
      simp only [Memory.read, if_true] at this
      exact absurd this.symm (Memory.wf_cons.1 hn).1
  | cons e t ih =>
    obtain ⟨k, x⟩ := e
    obtain ⟨hx, hlt, ht⟩ := Memory.wf_cons.1 hm
    cases n with
    | nil =>
      have := h k
      simp only [Memory.read, if_true] at this
      exact absurd this hx
    | cons e' t' =>
      obtain ⟨k', x'⟩ := e'
      obtain ⟨hx', hlt', ht'⟩ := Memory.wf_cons.1 hn
      have hk : k = k' := by
        rcases Nat.lt_trichotomy k k' with hkk | hkk | hkk
        · have h1 : Memory.read ((k', x') :: t') k = Memory.unlisted := by
            apply Memory.read_of_lt
            intro e he
            rcases List.mem_cons.1 he with rfl | he
            · exact hkk
            · have := hlt' e he; omega
          have h2 := h k
          rw [h1] at h2
          simp only [Memory.read, if_true] at h2
          exact absurd h2 hx
        · exact hkk
        · have h1 : Memory.read ((k, x) :: t) k' = Memory.unlisted := by
            apply Memory.read_of_lt
            intro e he
            rcases List.mem_cons.1 he with rfl | he
            · exact hkk
            · have := hlt e he; omega
          have h2 := h k'
          rw [h1] at h2
          simp only [Memory.read, if_true] at h2
          exact absurd h2.symm hx'
      subst hk
      have hxx : x = x' := by simpa [Memory.read] using h k
      subst hxx
      have htt : t = t' := by
        apply ih t' ht ht'
        intro a
        by_cases hka : k = a
        · subst hka
          rw [Memory.read_of_lt t k hlt, Memory.read_of_lt t' k hlt']
        · simpa [Memory.read, hka] using h a
      rw [htt]

/-! ### Repeated writes -/

/-- What a loop leaves alone at an index that none of its steps touches. -/
theorem Memory.read_foldl_other {ι : Type} (f : Memory → ι → Memory) (a : Nat) (l : List ι)
    (h : ∀ m, ∀ i ∈ l, (f m i).read a = m.read a) (m : Memory) : (l.foldl f m).read a = m.read a := by
  induction l generalizing m with
  | nil => rfl
  | cons i l ih =>
    rw [List.foldl_cons, ih (fun m j hj => h m j (by simp [hj])), h m i (by simp)]

/-- A property that every step of a loop keeps holds after the loop. -/
theorem foldl_keeps {α ι : Type} (P : α → Prop) (f : α → ι → α) (l : List ι)
    (h : ∀ m, ∀ i ∈ l, P m → P (f m i)) (m : α) (hm : P m) : P (l.foldl f m) := by
  induction l generalizing m with
  | nil => exact hm
  | cons i l ih =>
    exact ih (fun m j hj => h m j (by simp [hj])) _ (h m i (by simp) hm)

/-- A loop that writes the word of step `i` at step `i` and does not touch it later leaves that word there:
`P` is kept by every step and `i` occurs once. -/
theorem Memory.read_foldl_at {ι : Type} (P : Memory → Prop) (f : Memory → ι → Memory) (a : Nat) (v : Word)
    (l : List ι) (i : ι) (hi : i ∈ l)
    (hP : ∀ m, ∀ j ∈ l, P m → P (f m j))
    (hat : ∀ m, P m → (f m i).read a = v)
    (hother : ∀ m, ∀ j ∈ l, j ≠ i → (f m j).read a = m.read a)
    (m : Memory) (hm : P m) : (l.foldl f m).read a = v := by
  induction l generalizing m with
  | nil => simp at hi
  | cons j l ih =>
    rw [List.foldl_cons]
    by_cases hil : i ∈ l
    · exact ih hil (fun m j hj => hP m j (by simp [hj]))
        (fun m j hj => hother m j (by simp [hj])) _ (hP m j (by simp) hm)
    · have hij : i = j := by
        rcases List.mem_cons.1 hi with h | h
        · exact h
        · exact absurd h hil
      subst hij
      rw [Memory.read_foldl_other f a l (fun m j hj => hother m j (by simp [hj]) (fun hji => hil (hji ▸ hj)))]
      exact hat m hm

/-! ### Word indices -/

/-- Positions with columns inside the row have different word indices (R61). -/
theorem wordIndex_inj {w R C R' C' : Nat} (hC : C < wordsPerRow w) (hC' : C' < wordsPerRow w)
    (h : wordIndex w R C = wordIndex w R' C') : R = R' ∧ C = C' := by
  unfold wordIndex at h
  have hRR : R = R' := by
    rcases Nat.lt_trichotomy R R' with hlt | heq | hgt
    · have : (R + 1) * wordsPerRow w ≤ R' * wordsPerRow w := Nat.mul_le_mul_right _ hlt
      rw [Nat.add_mul] at this
      omega
    · exact heq
    · have : (R' + 1) * wordsPerRow w ≤ R * wordsPerRow w := Nat.mul_le_mul_right _ hgt
      rw [Nat.add_mul] at this
      omega
  subst hRR
  exact ⟨rfl, by omega⟩

theorem wordIndex_ne {w R C R' C' : Nat} (hC : C < wordsPerRow w) (hC' : C' < wordsPerRow w)
    (h : R ≠ R' ∨ C ≠ C') : wordIndex w R C ≠ wordIndex w R' C' := fun he => by
  obtain ⟨h1, h2⟩ := wordIndex_inj hC hC' he
  rcases h with h | h
  · exact h h1
  · exact h h2

/-- Every position of a buffer has an index below `size` (R65). -/
theorem wordIndex_lt {w h R C : Nat} (hR : R < bufferRows h) (hC : C < wordsPerRow w) :
    wordIndex w R C < bufferSize w h := by
  unfold wordIndex bufferSize
  have : (R + 1) * wordsPerRow w ≤ bufferRows h * wordsPerRow w := Nat.mul_le_mul_right _ hR
  rw [Nat.add_mul, Nat.mul_comm (bufferRows h)] at this
  omega

theorem dataWords_lt_wordsPerRow (w : Nat) : dataWords w + 1 < wordsPerRow w := by
  unfold wordsPerRow; omega

/-- Cell `(x, y)` of the grid is in a data word (R63). -/
theorem dataColumn_lt {w x : Nat} (hx : x < w) : x / 64 + 1 ≤ dataWords w := by
  unfold dataWords; omega

/-! ### `Cur[R, C]` inside a buffer -/

theorem rd_wr_same {w : Nat} {m : Memory} {R C : Nat} {v : Word} (h : m.wf = true) :
    rd w (wr w m R C v) R C = v := Memory.read_write_same m _ v h

theorem rd_wr_other {w : Nat} {m : Memory} {R C R' C' : Nat} {v : Word} (hC : C < wordsPerRow w)
    (hC' : C' < wordsPerRow w) (h : R ≠ R' ∨ C ≠ C') : rd w (wr w m R C v) R' C' = rd w m R' C' :=
  Memory.read_write_other m _ _ v (wordIndex_ne hC hC' h)

theorem wf_wr {w : Nat} {m : Memory} {R C : Nat} {v : Word} (h : m.wf = true) : (wr w m R C v).wf = true :=
  Memory.wf_write m _ v h

theorem below_wr {w h : Nat} {m : Memory} {R C : Nat} {v : Word} (hm : m.below (bufferSize w h) = true)
    (hR : R < bufferRows h) (hC : C < wordsPerRow w) : (wr w m R C v).below (bufferSize w h) = true :=
  Memory.below_write _ m _ v hm (wordIndex_lt hR hC)

end Sys2Proof.Machine
end

