-- ==== Sys2Proof/Laws/Ghost.lean ====
section
/-! SUPPORT. What `GHOST` leaves in a buffer (R127 to R130): one reading lemma per policy, the canonical form, and
the frame. -/

namespace Sys2Proof.Machine

theorem rd_foldl_other {ι : Type} {w : Nat} (f : Memory → ι → Memory) {R C : Nat} (l : List ι)
    (h : ∀ m, ∀ i ∈ l, rd w (f m i) R C = rd w m R C) (m : Memory) : rd w (l.foldl f m) R C = rd w m R C :=
  Memory.read_foldl_other f _ l h m

theorem wordsPerRow_pos (w : Nat) : 0 < wordsPerRow w := by unfold wordsPerRow; omega

theorem lastColumn_lt (w : Nat) : wordsPerRow w - 1 < wordsPerRow w := by
  have := wordsPerRow_pos w; omega

/-! ### `DEAD` -/

/-- The side columns of `ghostDead`. -/
def deadSides (w h : Nat) (m : Memory) : Memory :=
  (List.range (h + 2)).foldl (fun m R => wr w (wr w m R 0 0) R (wordsPerRow w - 1) 0) m

theorem ghostDead_eq (w h : Nat) (m : Memory) :
    ghostDead w h m =
      (List.range (wordsPerRow w)).foldl (fun m C => wr w (wr w m 0 C 0) (h + 1) C 0) (deadSides w h m) := rfl

theorem wf_deadSides (w h : Nat) (m : Memory) (hm : m.wf = true) : (deadSides w h m).wf = true :=
  foldl_keeps (fun m : Memory => m.wf = true) _ _ (fun _ _ _ h => wf_wr (wf_wr h)) m hm

theorem wf_ghostDead (w h : Nat) (m : Memory) (hm : m.wf = true) : (ghostDead w h m).wf = true :=
  foldl_keeps (fun m : Memory => m.wf = true) _ _ (fun _ _ _ h => wf_wr (wf_wr h)) _ (wf_deadSides w h m hm)

theorem rd_deadSides_inner {w h R C : Nat} (m : Memory) (hC : C < wordsPerRow w) (h0 : C ≠ 0)
    (h1 : C ≠ wordsPerRow w - 1) : rd w (deadSides w h m) R C = rd w m R C := by
  apply rd_foldl_other
  intro m R' _
  rw [rd_wr_other (lastColumn_lt w) hC (.inr (Ne.symm h1)), rd_wr_other (wordsPerRow_pos w) hC (.inr (Ne.symm h0))]

theorem rd_deadSides_side {w h R C : Nat} (m : Memory) (hm : m.wf = true) (hR : R < h + 2)
    (hC : C = 0 ∨ C = wordsPerRow w - 1) : rd w (deadSides w h m) R C = 0 := by
  have hpos := wordsPerRow_pos w
  have hlast := lastColumn_lt w
  have hCl : C < wordsPerRow w := by omega
  apply Memory.read_foldl_at (fun m : Memory => m.wf = true) _ _ _ _ R (List.mem_range.2 hR)
  · exact fun _ _ _ h => wf_wr (wf_wr h)
  · intro m hm
    show rd w (wr w (wr w m R 0 0) R (wordsPerRow w - 1) 0) R C = 0
    by_cases hCC : C = wordsPerRow w - 1
    · subst hCC; exact rd_wr_same (wf_wr hm)
    · have hC0 : C = 0 := hC.resolve_right hCC
      subst hC0
      rw [rd_wr_other hlast hpos (.inr (Ne.symm hCC))]
      exact rd_wr_same hm
  · intro m R' _ hne
    show rd w (wr w (wr w m R' 0 0) R' (wordsPerRow w - 1) 0) R C = rd w m R C
    rw [rd_wr_other hlast hCl (.inl hne), rd_wr_other hpos hCl (.inl hne)]
  · exact hm

/-- `GHOST` under `DEAD` leaves every word outside the ghost region alone. -/
theorem rd_ghostDead_inner {w h R C : Nat} (m : Memory) (hC : C < wordsPerRow w) (hR0 : R ≠ 0) (hR1 : R ≠ h + 1)
    (hC0 : C ≠ 0) (hC1 : C ≠ wordsPerRow w - 1) : rd w (ghostDead w h m) R C = rd w m R C := by
  rw [ghostDead_eq, rd_foldl_other, rd_deadSides_inner m hC hC0 hC1]
  intro m C' hC'
  have hC' := List.mem_range.1 hC'
  rw [rd_wr_other hC' hC (.inl (Ne.symm hR1)), rd_wr_other hC' hC (.inl (Ne.symm hR0))]

/-- `GHOST` under `DEAD` writes 0 to every word of the ghost region (R128). -/
theorem rd_ghostDead_ghost {w h R C : Nat} (m : Memory) (hm : m.wf = true) (hg : ghostRegion w h R C = true) :
    rd w (ghostDead w h m) R C = 0 := by
  simp only [ghostRegion, bufferRows, Bool.and_eq_true, Bool.or_eq_true, decide_eq_true_eq] at hg
  obtain ⟨⟨hR, hC⟩, hor⟩ := hg
  rw [ghostDead_eq]
  by_cases hrow : R = 0 ∨ R = h + 1
  · apply Memory.read_foldl_at (fun m : Memory => m.wf = true) _ _ _ _ C (List.mem_range.2 hC)
    · exact fun _ _ _ h => wf_wr (wf_wr h)
    · intro m hm
      show rd w (wr w (wr w m 0 C 0) (h + 1) C 0) R C = 0
      rcases hrow with rfl | rfl
      · rw [rd_wr_other hC hC (.inl (by omega))]; exact rd_wr_same hm
      · exact rd_wr_same (wf_wr hm)
    · intro m C' hC' hne
      have hC' := List.mem_range.1 hC'
      show rd w (wr w (wr w m 0 C' 0) (h + 1) C' 0) R C = rd w m R C
      rw [rd_wr_other hC' hC (.inr hne), rd_wr_other hC' hC (.inr hne)]
    · exact wf_deadSides w h m hm
  · rw [rd_foldl_other, rd_deadSides_side m hm (of_decide_eq_true hR) (by omega)]
    intro m C' hC'
    have hC' := List.mem_range.1 hC'
    rw [rd_wr_other hC' hC (.inl (by omega)), rd_wr_other hC' hC (.inl (by omega))]

/-! ### `TORUS` -/

/-- The left ghost word of logical row `r` under `TORUS`: bit 63 is `cell(W-1, r)` (R129). -/
def leftGhost (w : Nat) (m : Memory) (r : Nat) : Word :=
  (BitVec.ofBool ((rd w m (r + 1) (dataWords w)).getLsbD ((w - 1) % 64))).setWidth 64 <<< 63

/-- The right ghost word of logical row `r` under `TORUS`: bit 0 is `cell(0, r)` (R129). -/
def rightGhost (w : Nat) (m : Memory) (r : Nat) : Word :=
  (BitVec.ofBool ((rd w m (r + 1) 1).getLsbD 0)).setWidth 64

theorem ghostSides_eq (w : Nat) (m : Memory) (r : Nat) :
    ghostSides w m r = wr w (wr w m (r + 1) 0 (leftGhost w m r)) (r + 1) (wordsPerRow w - 1) (rightGhost w m r) := rfl

/-- Stage a of `ghostTorus` (R129). -/
def torusSides (w h : Nat) (m : Memory) : Memory := (List.range h).foldl (ghostSides w) m

theorem ghostTorus_eq (w h : Nat) (m : Memory) :
    ghostTorus w h m = (List.range (wordsPerRow w)).foldl (ghostRows w h) (torusSides w h m) := rfl

theorem wf_ghostSides (w : Nat) (m : Memory) (r : Nat) (hm : m.wf = true) : (ghostSides w m r).wf = true := by
  rw [ghostSides_eq]; exact wf_wr (wf_wr hm)

theorem wf_ghostRows (w h : Nat) (m : Memory) (C : Nat) (hm : m.wf = true) : (ghostRows w h m C).wf = true :=
  wf_wr (wf_wr hm)

theorem wf_torusSides (w h : Nat) (m : Memory) (hm : m.wf = true) : (torusSides w h m).wf = true :=
  foldl_keeps (fun m : Memory => m.wf = true) _ _ (fun m r _ => wf_ghostSides w m r) m hm

theorem wf_ghostTorus (w h : Nat) (m : Memory) (hm : m.wf = true) : (ghostTorus w h m).wf = true :=
  foldl_keeps (fun m : Memory => m.wf = true) _ _ (fun m C _ => wf_ghostRows w h m C) _ (wf_torusSides w h m hm)

/-- Stage a leaves the rows it does not visit and the data columns alone. -/
theorem rd_ghostSides_other {w r R C : Nat} (m : Memory) (hC : C < wordsPerRow w)
    (h : R ≠ r + 1 ∨ (C ≠ 0 ∧ C ≠ wordsPerRow w - 1)) : rd w (ghostSides w m r) R C = rd w m R C := by
  rw [ghostSides_eq, rd_wr_other (lastColumn_lt w) hC (by omega), rd_wr_other (wordsPerRow_pos w) hC (by omega)]

theorem rd_torusSides_inner {w h R C : Nat} (m : Memory) (hC : C < wordsPerRow w) (h0 : C ≠ 0)
    (h1 : C ≠ wordsPerRow w - 1) : rd w (torusSides w h m) R C = rd w m R C :=
  rd_foldl_other _ _ (fun m _ _ => rd_ghostSides_other m hC (.inr ⟨h0, h1⟩)) m

theorem rd_torusSides_outside {w h R C : Nat} (m : Memory) (hC : C < wordsPerRow w) (hR : R = 0 ∨ h < R) :
    rd w (torusSides w h m) R C = rd w m R C :=
  rd_foldl_other _ _ (fun m r hr => rd_ghostSides_other m hC (by have := List.mem_range.1 hr; omega)) m

/-- The data columns decide what stage a writes, and stage a does not change them. -/
theorem ghostWords_torus_step {w : Nat} (hw : 1 ≤ w) (m : Memory) (r r' : Nat) :
    leftGhost w (ghostSides w m r') r = leftGhost w m r ∧ rightGhost w (ghostSides w m r') r = rightGhost w m r := by
  have hnd : 1 ≤ dataWords w := by unfold dataWords; omega
  have hlt := dataWords_lt_wordsPerRow w
  have h1 : dataWords w ≠ wordsPerRow w - 1 := by unfold wordsPerRow; omega
  have h2 : 1 ≠ wordsPerRow w - 1 := by unfold wordsPerRow; omega
  constructor
  · unfold leftGhost; rw [rd_ghostSides_other m (by omega) (.inr ⟨by omega, h1⟩)]
  · unfold rightGhost; rw [rd_ghostSides_other m (by omega) (.inr ⟨by omega, h2⟩)]

/-- Stage a of R129, read back. -/
theorem rd_torusSides_side {w h r : Nat} (hw : 1 ≤ w) (m : Memory) (hm : m.wf = true) (hr : r < h) :
    rd w (torusSides w h m) (r + 1) 0 = leftGhost w m r ∧
      rd w (torusSides w h m) (r + 1) (wordsPerRow w - 1) = rightGhost w m r := by
  have hpos := wordsPerRow_pos w
  have hlast := lastColumn_lt w
  have hne : wordsPerRow w - 1 ≠ 0 := by unfold wordsPerRow; omega
  have key : ∀ (C : Nat) (v : Word), C < wordsPerRow w →
      (∀ m', m'.wf = true → leftGhost w m' r = leftGhost w m r → rightGhost w m' r = rightGhost w m r →
        rd w (ghostSides w m' r) (r + 1) C = v) → rd w (torusSides w h m) (r + 1) C = v := by
    intro C v hC hat
    apply Memory.read_foldl_at
      (fun m' : Memory => m'.wf = true ∧ leftGhost w m' r = leftGhost w m r ∧ rightGhost w m' r = rightGhost w m r)
      _ _ _ _ r (List.mem_range.2 hr)
    · intro m' r' _ ⟨h1, h2, h3⟩
      exact ⟨wf_ghostSides w m' r' h1, (ghostWords_torus_step hw m' r r').1.trans h2,
        (ghostWords_torus_step hw m' r r').2.trans h3⟩
    · exact fun m' ⟨h1, h2, h3⟩ => hat m' h1 h2 h3
    · exact fun m' r' _ hne => rd_ghostSides_other m' hC (.inl (by omega))
    · exact ⟨hm, rfl, rfl⟩
  constructor
  · refine key 0 _ hpos fun m' h1 h2 _ => ?_
    rw [ghostSides_eq, rd_wr_other hlast hpos (.inr hne), rd_wr_same h1, h2]
  · refine key _ _ hlast fun m' h1 _ h3 => ?_
    rw [ghostSides_eq, rd_wr_same (wf_wr h1), h3]

/-- Stage b leaves the rows of the grid alone. -/
theorem rd_ghostRows_other {w h R C C' : Nat} (m : Memory) (hC : C < wordsPerRow w) (hC' : C' < wordsPerRow w)
    (hR : (R ≠ 0 ∧ R ≠ h + 1) ∨ C ≠ C') : rd w (ghostRows w h m C') R C = rd w m R C := by
  show rd w (wr w (wr w m 0 C' _) (h + 1) C' _) R C = rd w m R C
  rw [rd_wr_other hC' hC (by omega), rd_wr_other hC' hC (by omega)]

theorem rd_ghostTorus_rows {w h R C : Nat} (m : Memory) (hC : C < wordsPerRow w) (hR0 : R ≠ 0) (hR1 : R ≠ h + 1) :
    rd w (ghostTorus w h m) R C = rd w (torusSides w h m) R C := by
  rw [ghostTorus_eq]
  exact rd_foldl_other _ _ (fun m C' hC' => rd_ghostRows_other m hC (List.mem_range.1 hC') (.inl ⟨hR0, hR1⟩)) _

/-- Stage b of R129, read back: row 0 is a copy of row `H`, row `H + 1` a copy of row 1. -/
theorem rd_ghostTorus_edges {w h C : Nat} (hh : 1 ≤ h) (m : Memory) (hm : m.wf = true) (hC : C < wordsPerRow w) :
    rd w (ghostTorus w h m) 0 C = rd w (torusSides w h m) h C ∧
      rd w (ghostTorus w h m) (h + 1) C = rd w (torusSides w h m) 1 C := by
  have key : ∀ (R : Nat) (v : Word),
      (∀ m', m'.wf = true → rd w m' h C = rd w (torusSides w h m) h C → rd w m' 1 C = rd w (torusSides w h m) 1 C →
        rd w (ghostRows w h m' C) R C = v) → rd w (ghostTorus w h m) R C = v := by
    intro R v hat
    rw [ghostTorus_eq]
    apply Memory.read_foldl_at
      (fun m' : Memory => m'.wf = true ∧ rd w m' h C = rd w (torusSides w h m) h C ∧
        rd w m' 1 C = rd w (torusSides w h m) 1 C) _ _ _ _ C (List.mem_range.2 hC)
    · intro m' C' hC' ⟨h1, h2, h3⟩
      have hC' := List.mem_range.1 hC'
      exact ⟨wf_ghostRows w h m' C' h1,
        (rd_ghostRows_other m' hC hC' (.inl ⟨by omega, by omega⟩)).trans h2,
        (rd_ghostRows_other m' hC hC' (.inl ⟨by omega, by omega⟩)).trans h3⟩
    · exact fun m' ⟨h1, h2, h3⟩ => hat m' h1 h2 h3
    · exact fun m' C' hC' hne => rd_ghostRows_other m' hC (List.mem_range.1 hC') (.inr (Ne.symm hne))
    · exact ⟨wf_torusSides w h m hm, rfl, rfl⟩
  constructor
  · refine key 0 _ fun m' h1 h2 _ => ?_
    show rd w (wr w (wr w m' 0 C (rd w m' h C)) (h + 1) C _) 0 C = _
    rw [rd_wr_other hC hC (.inl (by omega)), rd_wr_same h1, h2]
  · refine key (h + 1) _ fun m' h1 _ h3 => ?_
    show rd w (wr w (wr w m' 0 C (rd w m' h C)) (h + 1) C (rd w (wr w m' 0 C (rd w m' h C)) 1 C)) (h + 1) C = _
    rw [rd_wr_same (wf_wr h1), rd_wr_other hC hC (.inl (by omega)), h3]

/-! ### Either policy -/

theorem wf_ghostMemory (g : Cfg) (m : Memory) (hm : m.wf = true) : (ghostMemory g m).wf = true := by
  unfold ghostMemory
  cases g.bp
  · exact wf_ghostDead _ _ m hm
  · exact wf_ghostTorus _ _ m hm

/-- `GHOST` leaves every word outside the ghost region alone (R127). -/
theorem rd_ghostMemory_inner {g : Cfg} {R C : Nat} (m : Memory) (hC : C < wordsPerRow (width g)) (hR0 : R ≠ 0)
    (hR1 : R ≠ height g + 1) (hC0 : C ≠ 0) (hC1 : C ≠ wordsPerRow (width g) - 1) :
    rd (width g) (ghostMemory g m) R C = rd (width g) m R C := by
  unfold ghostMemory
  cases g.bp
  · exact rd_ghostDead_inner m hC hR0 hR1 hC0 hC1
  · exact (rd_ghostTorus_rows m hC hR0 hR1).trans (rd_torusSides_inner m hC hC0 hC1)

/-- `GHOST` writes no word outside the buffer. -/
theorem below_ghostMemory (g : Cfg) (m : Memory) (hm : m.below (bufferSize (width g) (height g)) = true) :
    (ghostMemory g m).below (bufferSize (width g) (height g)) = true := by
  have hpos := wordsPerRow_pos (width g)
  have hlast := lastColumn_lt (width g)
  unfold ghostMemory
  cases g.bp
  · show (ghostDead _ _ m).below _ = true
    rw [ghostDead_eq]
    refine foldl_keeps (fun m : Memory => m.below (bufferSize (width g) (height g)) = true) _ _ ?_ _ ?_
    · intro m C hC h
      have hC := List.mem_range.1 hC
      exact below_wr (below_wr h (by unfold bufferRows; omega) hC) (by unfold bufferRows; omega) hC
    · refine foldl_keeps (fun m : Memory => m.below (bufferSize (width g) (height g)) = true) _ _ ?_ _ hm
      intro m R hR h
      have hR := List.mem_range.1 hR
      exact below_wr (below_wr h (by unfold bufferRows; omega) hpos) (by unfold bufferRows; omega) hlast
  · show (ghostTorus _ _ m).below _ = true
    rw [ghostTorus_eq]
    refine foldl_keeps (fun m : Memory => m.below (bufferSize (width g) (height g)) = true) _ _ ?_ _ ?_
    · intro m C hC h
      have hC := List.mem_range.1 hC
      exact below_wr (below_wr h (by unfold bufferRows; omega) hC) (by unfold bufferRows; omega) hC
    · refine foldl_keeps (fun m : Memory => m.below (bufferSize (width g) (height g)) = true) _ _ ?_ _ hm
      intro m r hr h
      have hr := List.mem_range.1 hr
      rw [ghostSides_eq]
      exact below_wr (below_wr h (by unfold bufferRows; omega) hpos) (by unfold bufferRows; omega) hlast

end Sys2Proof.Machine
end

