-- ==== Sys2Proof/Laws/Scheduler.lean ====
section
/-! SUPPORT. What the workers of a `STEP` do: batches, chunks, and the invariant of the `RUNNING` phase (R180, R200,
R202, R236), from which the result of every schedule follows. -/

namespace Sys2Proof.Machine

open Sys2Proof.Config

/-! ### Batches -/

theorem laneNat_pos (l : LaneWidth) : 1 ≤ laneNat l := by cases l <;> decide

/-- The first data word of the batch that holds data word `j` (R180). -/
def batchStart (nd lane j : Nat) : Nat := if j < nd / lane * lane then j / lane * lane else j

/-- A batch that starts inside a row ends inside it. -/
theorem batchLength_fits {nd lane j : Nat} (hj : j < nd) : j + batchLength nd lane j ≤ nd := by
  unfold batchLength
  have hmul : nd / lane * lane ≤ nd := Nat.div_mul_le_self nd lane
  split
  · rename_i hlt
    split
    · rename_i hmod
      have hj' : j = j / lane * lane := by
        have := Nat.div_add_mod j lane
        rw [hmod, Nat.mul_comm] at this; omega
      have hdiv : j / lane < nd / lane := by
        by_contra hge
        have : nd / lane * lane ≤ j / lane * lane := Nat.mul_le_mul_right _ (by omega)
        omega
      have : (j / lane + 1) * lane ≤ nd / lane * lane := Nat.mul_le_mul_right _ hdiv
      rw [Nat.add_mul] at this
      omega
    · omega
  · omega

/-- Every data word of a row is in the batch at its `batchStart`. -/
theorem batchStart_spec {nd lane j : Nat} (hl : 1 ≤ lane) :
    batchStart nd lane j ≤ j ∧ j < batchStart nd lane j + batchLength nd lane (batchStart nd lane j) := by
  unfold batchStart
  split
  · rename_i hlt
    have h1 : j / lane * lane ≤ j := Nat.div_mul_le_self j lane
    have h2 : j < j / lane * lane + lane := by
      have hdm := Nat.div_add_mod j lane
      have hmod := Nat.mod_lt j hl
      rw [Nat.mul_comm] at hdm
      omega
    have h3 : batchLength nd lane (j / lane * lane) = lane := by
      unfold batchLength
      rw [if_pos (by omega), if_pos (Nat.mul_mod_left _ _)]
    rw [h3]; exact ⟨h1, h2⟩
  · rename_i hge
    have : batchLength nd lane j = 1 := by unfold batchLength; rw [if_neg hge]
    rw [this]; omega

/-- A data word is in one batch only. -/
theorem batchStart_unique {nd lane j j0 : Nat} (h1 : j0 ≤ j)
    (h2 : j < j0 + batchLength nd lane j0) : j0 = batchStart nd lane j := by
  unfold batchLength at h2
  unfold batchStart
  split at h2
  · rename_i hlt
    split at h2
    · rename_i hmod
      have hj0 : j0 = j0 / lane * lane := by
        have := Nat.div_add_mod j0 lane
        rw [hmod, Nat.mul_comm] at this; omega
      have hdiv : j0 / lane < nd / lane := by
        by_contra hge
        have : nd / lane * lane ≤ j0 / lane * lane := Nat.mul_le_mul_right _ (by omega)
        omega
      have hup : (j0 / lane + 1) * lane ≤ nd / lane * lane := Nat.mul_le_mul_right _ hdiv
      rw [Nat.add_mul] at hup
      rw [if_pos (by omega)]
      have hjj : j / lane = j0 / lane := by
        apply Nat.div_eq_of_lt_le
        · omega
        · rw [Nat.add_mul]; omega
      rw [hjj]; exact hj0
    · omega
  · rename_i hge
    have : j = j0 := by omega
    subst this
    rw [if_neg hge]

/-- What a batch writes and what it leaves alone (R180). -/
theorem rd_batch {v : WorkerView} {m : Memory} {r j0 n R C : Nat} (hm : m.wf = true)
    (hn : j0 + n ≤ dataWords v.width) (hC : C < wordsPerRow v.width) :
    rd v.width (batch v m r j0 n) R C =
      if R = r + 1 ∧ j0 + 1 ≤ C ∧ C ≤ j0 + n then nextWord v.planes v.width v.current r (C - 1)
      else rd v.width m R C := by
  have hcol : ∀ l, l < n → j0 + l + 1 < wordsPerRow v.width := by
    intro l hl; unfold wordsPerRow; omega
  split
  · rename_i h
    obtain ⟨rfl, h1, h2⟩ := h
    apply Memory.read_foldl_at (fun m : Memory => m.wf = true) _ _ _ _ (C - 1 - j0)
      (List.mem_range.2 (by omega))
    · exact fun _ _ _ h => wf_wr h
    · intro m' hm'
      have he : j0 + (C - 1 - j0) = C - 1 := by omega
      have he' : C - 1 + 1 = C := by omega
      show rd v.width (wr v.width m' (r + 1) (j0 + (C - 1 - j0) + 1) _) (r + 1) C = _
      rw [he, he', rd_wr_same hm']
    · intro m' l hl hne
      exact rd_wr_other (hcol l (List.mem_range.1 hl)) hC (.inr (by omega))
    · exact hm
  · rename_i h
    apply rd_foldl_other
    intro m' l hl
    have hl := List.mem_range.1 hl
    exact rd_wr_other (hcol l hl) hC (by omega)

theorem wf_batch {v : WorkerView} {m : Memory} {r j0 n : Nat} (hm : m.wf = true) : (batch v m r j0 n).wf = true :=
  foldl_keeps (fun m : Memory => m.wf = true) _ _ (fun _ _ _ h => wf_wr h) m hm

theorem below_batch {v : WorkerView} {m : Memory} {h r j0 n : Nat} (hm : m.below (bufferSize v.width h) = true)
    (hr : r < h) (hn : j0 + n ≤ dataWords v.width) : (batch v m r j0 n).below (bufferSize v.width h) = true := by
  refine foldl_keeps (fun m : Memory => m.below (bufferSize v.width h) = true) _ _ ?_ m hm
  intro m' l hl hm'
  have hl := List.mem_range.1 hl
  exact below_wr hm' (by unfold bufferRows; omega) (by unfold wordsPerRow; omega)

/-! ### Chunks -/

theorem chunkLo_mono {h t c c' : Nat} (hc : c ≤ c') : chunkLo h t c ≤ chunkLo h t c' :=
  Nat.div_le_div_right (Nat.mul_le_mul_right _ hc)

theorem mem_chunkWords {nd h t c r j : Nat} :
    (r, j) ∈ chunkWords nd h t c ↔ (chunkLo h t c ≤ r ∧ r < chunkHi h t c) ∧ j < nd := by
  unfold chunkWords
  simp only [List.mem_flatMap, List.mem_range'_1, List.mem_map, List.mem_range, Prod.mk.injEq]
  constructor
  · rintro ⟨r', hr, j', hj, rfl, rfl⟩
    exact ⟨⟨hr.1, by have := chunkLo_mono (h := h) (t := t) (Nat.le_succ c); unfold chunkHi at *; omega⟩, hj⟩
  · rintro ⟨hr, hj⟩
    exact ⟨r, ⟨hr.1, by omega⟩, j, hj, rfl, rfl⟩

/-- The last chunk ends with the last row (R201). -/
theorem chunkLo_last {h t : Nat} (ht : 1 ≤ t) : chunkLo h t t = h := by
  unfold chunkLo; exact Nat.mul_div_cancel_left h ht

/-- Every row of a chunk is a row of the grid. -/
theorem row_lt_height {h t c r : Nat} (hc : c < t) (hr : r < chunkHi h t c) : r < h := by
  have h1 : chunkHi h t c ≤ chunkLo h t t := chunkLo_mono hc
  rw [chunkLo_last (by omega)] at h1
  omega

/-- A row is in one chunk only (R201). -/
theorem chunk_unique {h t c c' r : Nat} (h1 : chunkLo h t c ≤ r ∧ r < chunkHi h t c)
    (h2 : chunkLo h t c' ≤ r ∧ r < chunkHi h t c') : c = c' := by
  unfold chunkHi at *
  by_contra hne
  rcases Nat.lt_or_gt_of_ne hne with hlt | hgt
  · have := chunkLo_mono (h := h) (t := t) hlt; simp only [Nat.succ_eq_add_one] at this; omega
  · have := chunkLo_mono (h := h) (t := t) hgt; simp only [Nat.succ_eq_add_one] at this; omega

/-- Every row of the grid is in a chunk (R201). -/
theorem exists_chunk {h t r : Nat} (ht : 1 ≤ t) (hr : r < h) :
    ∃ c, c < t ∧ chunkLo h t c ≤ r ∧ r < chunkHi h t c := by
  have key : ∀ n, n ≤ t → r < chunkLo h t n → ∃ c, c < n ∧ chunkLo h t c ≤ r ∧ r < chunkHi h t c := by
    intro n
    induction n with
    | zero => intro _ h0; simp [chunkLo] at h0
    | succ n ih =>
      intro hn hlt
      by_cases hge : chunkLo h t n ≤ r
      · exact ⟨n, by omega, hge, hlt⟩
      · obtain ⟨c, hc, hcr⟩ := ih (by omega) (by omega)
        exact ⟨c, by omega, hcr⟩
  obtain ⟨c, hc, hcr⟩ := key t (Nat.le_refl t) (by rw [chunkLo_last ht]; exact hr)
  exact ⟨c, hc, hcr⟩

/-! ### One event -/

theorem mem_batchStarts {v : WorkerView} {pend : List (Nat × Nat)} {p : Nat × Nat} :
    p ∈ batchStarts v pend ↔
      p ∈ pend ∧ runLength v p ≠ 0 ∧ ∀ l, l < runLength v p → (p.1, p.2 + l) ∈ pend := by
  unfold batchStarts runLength
  simp [List.mem_filter]

theorem mem_removeRun {r j0 n : Nat} {pend : List (Nat × Nat)} {p : Nat × Nat} :
    p ∈ removeRun r j0 n pend ↔ p ∈ pend ∧ ¬ (p.1 = r ∧ j0 ≤ p.2 ∧ p.2 < j0 + n) := by
  unfold removeRun
  simp only [List.mem_filter, Bool.not_eq_true', Bool.and_eq_false_imp, beq_iff_eq,
    decide_eq_false_iff_not, Bool.and_eq_true, decide_eq_true_eq]
  constructor
  · rintro ⟨h1, h2⟩; exact ⟨h1, fun ⟨a, b, c⟩ => h2 ⟨a, b⟩ c⟩
  · rintro ⟨h1, h2⟩; exact ⟨h1, fun ⟨a, b⟩ c => h2 ⟨a, b, c⟩⟩

/-- The worker an event belongs to. -/
def eventWorker : WorkerEvent → Nat
  | .batch c _ => c
  | .fail c    => c
  | .finish c  => c

/-- Everything one event can do (R202, R236). -/
theorem workerEvent_cases (v : WorkerView) (k : Running) (e : WorkerEvent) :
    workerEvent v k e = k ∨
    ∃ q, k.workers[eventWorker e]? = some q ∧ q.done = false ∧
      ((∃ n p, e = .batch (eventWorker e) n ∧ p ∈ batchStarts v q.pend ∧
          workerEvent v k e = takeBatch v (eventWorker e) q p k) ∨
       (e = .fail (eventWorker e) ∧
          workerEvent v k e =
            { k with workers := k.workers.set (eventWorker e) { q with fail := true, done := true } }) ∨
       (e = .finish (eventWorker e) ∧ q.pend = [] ∧
          workerEvent v k e = { k with workers := k.workers.set (eventWorker e) { q with done := true } })) := by
  cases e with
  | batch c n =>
    cases hq : k.workers[c]? with
    | none => left; simp [workerEvent, hq]
    | some q =>
      cases hd : q.done with
      | true => left; simp [workerEvent, hq, hd]
      | false =>
        cases hp : (batchStarts v q.pend)[n]? with
        | none => left; simp [workerEvent, hq, hd, hp]
        | some p =>
          right
          refine ⟨q, hq, hd, .inl ⟨n, p, rfl, List.mem_of_getElem? hp, ?_⟩⟩
          simp [workerEvent, hq, hd, hp, eventWorker]
  | fail c =>
    cases hq : k.workers[c]? with
    | none => left; simp [workerEvent, hq]
    | some q =>
      cases hd : q.done with
      | true => left; simp [workerEvent, hq, hd]
      | false => right; exact ⟨q, hq, hd, .inr (.inl ⟨rfl, by simp [workerEvent, hq, hd, eventWorker]⟩)⟩
  | finish c =>
    cases hq : k.workers[c]? with
    | none => left; simp [workerEvent, hq]
    | some q =>
      cases hd : q.done with
      | true => left; simp [workerEvent, hq, hd]
      | false =>
        cases hp : q.pend with
        | nil => right; exact ⟨q, hq, hd, .inr (.inr ⟨rfl, hp, by simp [workerEvent, hq, hd, hp, eventWorker]⟩)⟩
        | cons a b => left; simp [workerEvent, hq, hd, hp]

/-! ### The invariant of the `RUNNING` phase -/

/-- What holds of worker `c` between two events, `base` being `next` at barrier B1. -/
structure WorkerInv (v : WorkerView) (base : Memory) (h t c : Nat) (m : Memory) (q : WorkerRegs) : Prop where
  inChunk : ∀ p ∈ q.pend, p ∈ chunkWords (dataWords v.width) h t c
  /-- `PEND[c]` holds whole batches. -/
  whole   : ∀ p ∈ q.pend, ∀ l, l < batchLength (dataWords v.width) v.lane (batchStart (dataWords v.width) v.lane p.2) →
    (p.1, batchStart (dataWords v.width) v.lane p.2 + l) ∈ q.pend
  written : ∀ p ∈ chunkWords (dataWords v.width) h t c, p ∉ q.pend →
    rd v.width m (p.1 + 1) (p.2 + 1) = nextWord v.planes v.width v.current p.1 p.2
  pending : ∀ p ∈ q.pend, rd v.width m (p.1 + 1) (p.2 + 1) = rd v.width base (p.1 + 1) (p.2 + 1)
  ended   : q.done = true → q.fail = true ∨ q.pend = []

/-- What holds between two events. -/
structure RunInv (v : WorkerView) (base : Memory) (h t : Nat) (k : Running) : Prop where
  count   : k.workers.length = t
  wf      : k.next.wf = true
  workers : ∀ c q, k.workers[c]? = some q → WorkerInv v base h t c k.next q
  outside : ∀ R C, C < wordsPerRow v.width → interior v.width h R C = false →
    rd v.width k.next R C = rd v.width base R C
  below   : base.below (bufferSize v.width h) = true → k.next.below (bufferSize v.width h) = true

theorem interior_iff {w h R C : Nat} :
    interior w h R C = true ↔ 1 ≤ R ∧ R ≤ h ∧ 1 ≤ C ∧ C ≤ dataWords w := by
  simp [interior, and_assoc]

/-- `RULE`'s words are where the interior is. -/
theorem WorkerInv.set_regs {v : WorkerView} {base m : Memory} {h t c : Nat} {q : WorkerRegs} {d f : Bool}
    (hq : WorkerInv v base h t c m q) (hd : d = true → f = true ∨ q.pend = []) :
    WorkerInv v base h t c m { q with done := d, fail := f } :=
  ⟨hq.inChunk, hq.whole, hq.written, hq.pending, hd⟩

/-- One event keeps the invariant. -/
theorem RunInv.event {v : WorkerView} {base : Memory} {h t : Nat} {k : Running} (hl : 1 ≤ v.lane)
    (hk : RunInv v base h t k) (e : WorkerEvent) : RunInv v base h t (workerEvent v k e) := by
  rcases workerEvent_cases v k e with heq | ⟨q, hq, hdone, hcase⟩
  · rw [heq]; exact hk
  have hlen : eventWorker e < k.workers.length := (List.getElem?_eq_some_iff.1 hq).1
  have hc : eventWorker e < t := hk.count ▸ hlen
  have hQ := hk.workers _ _ hq
  generalize eventWorker e = c at *
  rcases hcase with ⟨n, p, _, hp, heq⟩ | ⟨_, heq⟩ | ⟨_, hpend, heq⟩
  · rw [heq]
    obtain ⟨hpp, hlen0, hrun⟩ := mem_batchStarts.1 hp
    obtain ⟨r, j0⟩ := p
    have hch := mem_chunkWords.1 (hQ.inChunk _ hpp)
    have hr : r < h := row_lt_height hc hch.1.2
    have hfit : j0 + runLength v (r, j0) ≤ dataWords v.width := batchLength_fits hch.2
    set n0 := runLength v (r, j0) with hn0
    have hread : ∀ R C, C < wordsPerRow v.width →
        rd v.width (batch v k.next r j0 n0) R C =
          if R = r + 1 ∧ j0 + 1 ≤ C ∧ C ≤ j0 + n0 then nextWord v.planes v.width v.current r (C - 1)
          else rd v.width k.next R C := fun R C hC => rd_batch hk.wf hfit hC
    have hcolumn : ∀ j, j < dataWords v.width → j + 1 < wordsPerRow v.width := by
      intro j hj; unfold wordsPerRow; omega
    refine ⟨by simp [takeBatch, hk.count], wf_batch hk.wf, ?_, ?_, ?_⟩
    · intro c' q' hq'
      simp only [takeBatch, List.getElem?_set] at hq'
      by_cases hcc : c = c'
      · subst hcc
        rw [if_pos rfl, if_pos hlen] at hq'
        obtain rfl := Option.some.inj hq'
        refine ⟨?_, ?_, ?_, ?_, ?_⟩
        · exact fun p' hp' => hQ.inChunk p' (mem_removeRun.1 hp').1
        · intro p' hp' l hll
          obtain ⟨hp1, hp2⟩ := mem_removeRun.1 hp'
          refine mem_removeRun.2 ⟨hQ.whole p' hp1 l hll, ?_⟩
          rintro ⟨hr', hj1, hj2⟩
          apply hp2
          have hu1 : j0 = batchStart (dataWords v.width) v.lane (batchStart (dataWords v.width) v.lane p'.2 + l) :=
            batchStart_unique hj1 hj2
          have hu2 := batchStart_unique (nd := dataWords v.width) (lane := v.lane)
            (j := batchStart (dataWords v.width) v.lane p'.2 + l) (Nat.le_add_right _ l) (by omega)
          have hsp := batchStart_spec (nd := dataWords v.width) (j := p'.2) hl
          have he : batchStart (dataWords v.width) v.lane p'.2 = j0 := by rw [hu2, hu1]
          rw [he] at hsp
          exact ⟨hr', hsp.1, hsp.2⟩
        · intro p' hp' hnot
          have hp'' := mem_chunkWords.1 (show (p'.1, p'.2) ∈ _ from hp')
          show rd v.width (batch v k.next r j0 n0) (p'.1 + 1) (p'.2 + 1) = _
          rw [hread _ _ (hcolumn _ hp''.2)]
          split
          · rename_i hin
            have : p'.1 = r := by omega
            rw [this, Nat.add_sub_cancel]
          · rename_i hout
            refine hQ.written p' hp' fun hin => hnot (mem_removeRun.2 ⟨hin, ?_⟩)
            rintro ⟨h1, h2, h3⟩
            exact hout ⟨by omega, by omega, by omega⟩
        · intro p' hp'
          obtain ⟨hp1, hp2⟩ := mem_removeRun.1 hp'
          have hp'' := mem_chunkWords.1 (hQ.inChunk p' hp1)
          show rd v.width (batch v k.next r j0 n0) (p'.1 + 1) (p'.2 + 1) = _
          rw [hread _ _ (hcolumn _ hp''.2), if_neg, hQ.pending p' hp1]
          rintro ⟨h1, h2, h3⟩
          exact hp2 ⟨by omega, by omega, by omega⟩
        · intro hd; rw [hdone] at hd; exact absurd hd (by decide)
      · rw [if_neg hcc] at hq'
        have hQ' := hk.workers c' q' hq'
        have hrow : ∀ p' ∈ chunkWords (dataWords v.width) h t c', p'.1 ≠ r := by
          intro p' hp' hpr
          have := mem_chunkWords.1 (show (p'.1, p'.2) ∈ _ from hp')
          exact hcc (chunk_unique hch.1 (hpr ▸ this.1))
        have hsame : ∀ p' ∈ chunkWords (dataWords v.width) h t c',
            rd v.width (batch v k.next r j0 n0) (p'.1 + 1) (p'.2 + 1) = rd v.width k.next (p'.1 + 1) (p'.2 + 1) := by
          intro p' hp'
          have hp'' := mem_chunkWords.1 (show (p'.1, p'.2) ∈ _ from hp')
          rw [hread _ _ (hcolumn _ hp''.2), if_neg]
          rintro ⟨h1, _⟩
          exact hrow p' hp' (by omega)
        exact ⟨hQ'.inChunk, hQ'.whole, fun p' hp' hn => (hsame p' hp').trans (hQ'.written p' hp' hn),
          fun p' hp' => (hsame p' (hQ'.inChunk p' hp')).trans (hQ'.pending p' hp'), hQ'.ended⟩
    · intro R C hC hout
      show rd v.width (batch v k.next r j0 n0) R C = _
      rw [hread R C hC, if_neg, hk.outside R C hC hout]
      rintro ⟨h1, h2, h3⟩
      have : interior v.width h R C = true := interior_iff.2 ⟨by omega, by omega, by omega, by omega⟩
      rw [this] at hout
      exact absurd hout (by decide)
    · exact fun hb => below_batch (hk.below hb) hr hfit
  · rw [heq]
    refine ⟨by simp [hk.count], hk.wf, ?_, hk.outside, hk.below⟩
    intro c' q' hq'
    simp only [List.getElem?_set] at hq'
    by_cases hcc : c = c'
    · subst hcc
      rw [if_pos rfl, if_pos hlen] at hq'
      obtain rfl := Option.some.inj hq'
      exact hQ.set_regs fun _ => .inl rfl
    · rw [if_neg hcc] at hq'; exact hk.workers c' q' hq'
  · rw [heq]
    refine ⟨by simp [hk.count], hk.wf, ?_, hk.outside, hk.below⟩
    intro c' q' hq'
    simp only [List.getElem?_set] at hq'
    by_cases hcc : c = c'
    · subst hcc
      rw [if_pos rfl, if_pos hlen] at hq'
      obtain rfl := Option.some.inj hq'
      exact hQ.set_regs fun _ => .inr hpend
    · rw [if_neg hcc] at hq'; exact hk.workers c' q' hq'

/-- Any list of events keeps the invariant. -/
theorem RunInv.events {v : WorkerView} {base : Memory} {h t : Nat} {k : Running} (hl : 1 ≤ v.lane)
    (hk : RunInv v base h t k) (es : List WorkerEvent) : RunInv v base h t (runEvents v es k) :=
  foldl_keeps (RunInv v base h t) (workerEvent v) es (fun _ e _ hk => hk.event hl e) k hk

/-- The invariant holds at barrier B1 (R203 [2]). -/
theorem RunInv.start {v : WorkerView} {base : Memory} {h t : Nat} (hl : 1 ≤ v.lane) (hb : base.wf = true) :
    RunInv v base h t { next := base, workers := freshWorkers (dataWords v.width) h t } := by
  refine ⟨by simp [freshWorkers], hb, ?_, fun _ _ _ _ => rfl, fun h => h⟩
  intro c q hq
  simp only [freshWorkers, List.getElem?_map, Option.map_eq_some_iff] at hq
  obtain ⟨c', hc', rfl⟩ := hq
  have hcc : c' = c := by
    have := List.getElem?_eq_some_iff.1 hc'
    obtain ⟨h1, h2⟩ := this
    simpa using h2.symm
  subst hcc
  refine ⟨fun p hp => hp, ?_, fun p hp hn => absurd hp hn, fun _ _ => rfl, by simp⟩
  intro p hp l hll
  have hp' := mem_chunkWords.1 (show (p.1, p.2) ∈ _ from hp)
  refine mem_chunkWords.2 ⟨hp'.1, ?_⟩
  have hsp := batchStart_spec (nd := dataWords v.width) (j := p.2) hl
  have hfit := batchLength_fits (nd := dataWords v.width) (lane := v.lane)
    (j := batchStart (dataWords v.width) v.lane p.2) (by omega)
  omega

/-! ### The registers of the workers -/

/-- An event touches no other worker's registers. -/
theorem workerEvent_other (v : WorkerView) (k : Running) (e : WorkerEvent) {c : Nat} (hc : c ≠ eventWorker e) :
    (workerEvent v k e).workers[c]? = k.workers[c]? := by
  rcases workerEvent_cases v k e with heq | ⟨q, _, _, ⟨n, p, _, _, heq⟩ | ⟨_, heq⟩ | ⟨_, _, heq⟩⟩
  · rw [heq]
  · rw [heq]; simp [takeBatch, List.getElem?_set_ne (Ne.symm hc)]
  · rw [heq]; simp [List.getElem?_set_ne (Ne.symm hc)]
  · rw [heq]; simp [List.getElem?_set_ne (Ne.symm hc)]

theorem workerEvent_length (v : WorkerView) (k : Running) (e : WorkerEvent) :
    (workerEvent v k e).workers.length = k.workers.length := by
  rcases workerEvent_cases v k e with heq | ⟨q, _, _, ⟨n, p, _, _, heq⟩ | ⟨_, heq⟩ | ⟨_, _, heq⟩⟩ <;> rw [heq] <;>
    simp [takeBatch]

theorem runEvents_length (v : WorkerView) (es : List WorkerEvent) (k : Running) :
    (runEvents v es k).workers.length = k.workers.length :=
  foldl_keeps (fun k' : Running => k'.workers.length = k.workers.length) (workerEvent v) es
    (fun _ e _ h => (workerEvent_length v _ e).trans h) k rfl

/-- What an event leaves of its own worker's registers: `FAIL[c]` is set by `fail c` only, `DONE[c]` is never
cleared, and `DONE[c]` is set by `fail c` and `finish c` only. -/
theorem workerEvent_own (v : WorkerView) (k : Running) (e : WorkerEvent) {c : Nat} {q : WorkerRegs}
    (hq : k.workers[c]? = some q) :
    ∃ q', (workerEvent v k e).workers[c]? = some q' ∧
      (q.done = true → q' = q) ∧
      (e ≠ .fail c → q'.fail = q.fail) ∧
      (e ≠ .fail c → e ≠ .finish c → q'.done = q.done) ∧
      (e = .fail c → q.done = false → q'.fail = true ∧ q'.done = true) := by
  by_cases hc : c = eventWorker e
  · have hlen : c < k.workers.length := (List.getElem?_eq_some_iff.1 hq).1
    rcases workerEvent_cases v k e with heq | ⟨q0, hq0, hdone, hcase⟩
    · rw [heq]
      refine ⟨q, hq, fun _ => rfl, fun _ => rfl, fun _ _ => rfl, ?_⟩
      intro he hd
      subst he
      exfalso
      have := congrArg (fun k : Running => k.workers[c]?) heq
      simp only [workerEvent, hq, hd, Bool.false_eq_true, if_false, List.getElem?_set_self hlen] at this
      have h2 := congrArg WorkerRegs.done (Option.some.inj this)
      rw [hd] at h2
      cases h2
    · rw [← hc] at hq0 hcase
      obtain rfl : q = q0 := Option.some.inj (hq.symm.trans hq0)
      have hnd : q.done = true → False := by rw [hdone]; decide
      rcases hcase with ⟨n, p, he, _, heq⟩ | ⟨he, heq⟩ | ⟨he, _, heq⟩
      · refine ⟨{ q with pend := removeRun p.1 p.2 (runLength v p) q.pend }, ?_, fun h => (hnd h).elim, fun _ => rfl,
          fun _ _ => rfl, fun hf => ?_⟩
        · rw [heq]; simp [takeBatch, hlen]
        · rw [he] at hf; cases hf
      · refine ⟨{ q with fail := true, done := true }, ?_, fun h => (hnd h).elim, fun h => absurd he h,
          fun h => absurd he h, fun _ _ => ⟨rfl, rfl⟩⟩
        rw [heq]; simp [hlen]
      · refine ⟨{ q with done := true }, ?_, fun h => (hnd h).elim, fun _ => rfl, fun _ h => absurd he h, fun hf => ?_⟩
        · rw [heq]; simp [hlen]
        · rw [he] at hf; cases hf
  · refine ⟨q, (workerEvent_other v k e hc).trans hq, fun _ => rfl, fun _ => rfl, fun _ _ => rfl, ?_⟩
    intro he; subst he; exact absurd rfl hc

/-- Without a `fail c` event `FAIL[c]` does not change. -/
theorem runEvents_fail_same (v : WorkerView) (es : List WorkerEvent) {c : Nat} (hes : .fail c ∉ es) (k : Running)
    {q : WorkerRegs} (hq : k.workers[c]? = some q) :
    ∃ q', (runEvents v es k).workers[c]? = some q' ∧ q'.fail = q.fail := by
  induction es generalizing k q with
  | nil => exact ⟨q, hq, rfl⟩
  | cons e es ih =>
    obtain ⟨q1, hq1, _, hf, _⟩ := workerEvent_own v k e hq
    obtain ⟨q2, hq2, hf2⟩ := ih (fun h => hes (by simp [h])) _ hq1
    exact ⟨q2, hq2, hf2.trans (hf fun h => hes (by simp [h]))⟩

/-- A task that has ended takes no further event. -/
theorem runEvents_done (v : WorkerView) (es : List WorkerEvent) {c : Nat} (k : Running) {q : WorkerRegs}
    (hq : k.workers[c]? = some q) (hd : q.done = true) : (runEvents v es k).workers[c]? = some q := by
  induction es generalizing k with
  | nil => exact hq
  | cons e es ih =>
    obtain ⟨q1, hq1, hsame, _⟩ := workerEvent_own v k e hq
    rw [hsame hd] at hq1
    exact ih _ hq1

/-- A `fail c` event that comes before any `finish c` fails the task of `c` (R236). -/
theorem runEvents_fails (v : WorkerView) (es : List WorkerEvent) {c : Nat} (hes : .fail c ∈ es)
    (hfin : .finish c ∉ es) (k : Running) {q : WorkerRegs} (hq : k.workers[c]? = some q) (hd : q.done = false) :
    ∃ q', (runEvents v es k).workers[c]? = some q' ∧ q'.fail = true ∧ q'.done = true := by
  induction es generalizing k q with
  | nil => simp at hes
  | cons e es ih =>
    obtain ⟨q1, hq1, _, _, hdone, hfail⟩ := workerEvent_own v k e hq
    by_cases he : e = .fail c
    · obtain ⟨h1, h2⟩ := hfail he hd
      exact ⟨q1, runEvents_done v es _ hq1 h2, h1, h2⟩
    · have hin : .fail c ∈ es := by
        rcases List.mem_cons.1 hes with h | h
        · exact absurd h.symm he
        · exact h
      refine ih hin (fun h => hfin (by simp [h])) _ hq1 ?_
      rw [hdone he fun h => hfin (by simp [h])]; exact hd

/-! ### Every task ends -/

/-- A worker with words left has a batch to take. -/
theorem batchStarts_ne_nil {v : WorkerView} {base m : Memory} {h t c : Nat} {q : WorkerRegs} (hl : 1 ≤ v.lane)
    (hq : WorkerInv v base h t c m q) (hp : q.pend ≠ []) : batchStarts v q.pend ≠ [] := by
  obtain ⟨p, hpm⟩ := List.exists_mem_of_ne_nil _ hp
  have hsp := batchStart_spec (nd := dataWords v.width) (j := p.2) hl
  have hwhole := hq.whole p hpm
  apply List.ne_nil_of_mem (a := (p.1, batchStart (dataWords v.width) v.lane p.2))
  refine mem_batchStarts.2 ⟨?_, ?_, ?_⟩
  · simpa using hwhole 0 (by omega)
  · show batchLength (dataWords v.width) v.lane (batchStart (dataWords v.width) v.lane p.2) ≠ 0
    omega
  · exact hwhole

/-- Taking the first batch leaves fewer words. -/
theorem removeRun_length_lt {v : WorkerView} {pend : List (Nat × Nat)} {p : Nat × Nat} (hp : p ∈ batchStarts v pend) :
    (removeRun p.1 p.2 (runLength v p) pend).length < pend.length := by
  obtain ⟨hm, hn, _⟩ := mem_batchStarts.1 hp
  unfold removeRun
  apply List.length_filter_lt_length_iff_exists.2
  refine ⟨p, hm, ?_⟩
  simp; omega

/-- Enough batches empty `PEND[c]`. -/
theorem runBatches_pend {v : WorkerView} {base : Memory} {h t : Nat} (hl : 1 ≤ v.lane) (n c : Nat) (k : Running)
    (hk : RunInv v base h t k) {q : WorkerRegs} (hq : k.workers[c]? = some q) (hd : q.done = false)
    (hn : q.pend.length ≤ n) :
    ∃ q', (runEvents v (List.replicate n (.batch c 0)) k).workers[c]? = some q' ∧ q'.pend = [] ∧ q'.done = false := by
  induction n generalizing k q with
  | zero => exact ⟨q, hq, List.length_eq_zero_iff.1 (by omega), hd⟩
  | succ n ih =>
    have hlen : c < k.workers.length := (List.getElem?_eq_some_iff.1 hq).1
    rw [List.replicate_succ]
    show ∃ q', (runEvents v (List.replicate n (.batch c 0)) (workerEvent v k (.batch c 0))).workers[c]? = some q' ∧ _
    have hk' := hk.event hl (.batch c 0)
    cases hs : batchStarts v q.pend with
    | nil =>
      have hp : q.pend = [] := by
        by_contra hne
        exact batchStarts_ne_nil hl (hk.workers c q hq) hne hs
      have heq : workerEvent v k (.batch c 0) = k := by simp [workerEvent, hq, hd, hs]
      rw [heq] at hk' ⊢
      exact ih k hk' hq hd (by rw [hp]; exact Nat.zero_le _)
    | cons p ps =>
      have heq : workerEvent v k (.batch c 0) = takeBatch v c q p k := by simp [workerEvent, hq, hd, hs]
      rw [heq] at hk' ⊢
      have hlt := removeRun_length_lt (v := v) (pend := q.pend) (p := p) (by rw [hs]; simp)
      refine ih _ hk' (q := { q with pend := removeRun p.1 p.2 (runLength v p) q.pend }) ?_ hd ?_
      · simp [takeBatch, hlen]
      · show (removeRun _ _ _ _).length ≤ n; omega

/-- Running a task to its end: the invariant holds, the task has ended, nothing failed that had not. -/
theorem completeWorker_spec {v : WorkerView} {base : Memory} {h t : Nat} (hl : 1 ≤ v.lane) (k : Running)
    (hk : RunInv v base h t k) (c : Nat) :
    RunInv v base h t (completeWorker v k c) ∧
    (∀ c', c' ≠ c → (completeWorker v k c).workers[c']? = k.workers[c']?) ∧
    ∀ q, k.workers[c]? = some q →
      ∃ q', (completeWorker v k c).workers[c]? = some q' ∧ q'.done = true ∧ q'.fail = q.fail := by
  refine ⟨hk.events hl _, ?_, ?_⟩
  · intro c' hc'
    unfold completeWorker
    refine foldl_keeps (fun k' : Running => k'.workers[c']? = k.workers[c']?) (workerEvent v) _ ?_ k rfl
    intro k' e he h'
    rw [← h']
    apply workerEvent_other
    rcases List.mem_append.1 he with he | he
    · rw [List.eq_of_mem_replicate he]; exact hc'
    · rw [List.mem_singleton.1 he]; exact hc'
  · intro q hq
    cases hd : q.done with
    | true => exact ⟨q, runEvents_done v _ k hq hd, hd, rfl⟩
    | false =>
      have hpw : pendingWords k c = q.pend.length := by simp [pendingWords, hq]
      obtain ⟨q1, hq1, hp1, hd1⟩ := runBatches_pend hl (pendingWords k c) c k hk hq hd (by omega)
      have hf1 : q1.fail = q.fail := by
        obtain ⟨q2, hq2, hf2⟩ := runEvents_fail_same v (List.replicate (pendingWords k c) (.batch c 0)) (c := c)
          (fun hm => by have := List.eq_of_mem_replicate hm; cases this) k hq
        rw [hq1] at hq2; rw [Option.some.inj hq2]; exact hf2
      have hlen := (List.getElem?_eq_some_iff.1 hq1).1
      refine ⟨{ q1 with done := true }, ?_, rfl, hf1⟩
      unfold completeWorker runEvents
      rw [List.foldl_append]
      show (workerEvent v (runEvents v (List.replicate (pendingWords k c) (.batch c 0)) k) (.finish c)).workers[c]? = _
      simp only [workerEvent, hq1]
      simp [hd1, hp1, List.getElem?_set_self hlen]

/-- The join is reached: the invariant holds, every task has ended, nothing failed that had not (R202, R204). -/
theorem completeAll_spec {v : WorkerView} {base : Memory} {h t : Nat} (hl : 1 ≤ v.lane) (k : Running)
    (hk : RunInv v base h t k) :
    RunInv v base h t (completeAll v k) ∧
    ∀ (c : Nat) (q : WorkerRegs), k.workers[c]? = some q →
      ∃ q' : WorkerRegs, (completeAll v k).workers[c]? = some q' ∧ q'.done = true ∧ q'.fail = q.fail := by
  have key : ∀ n,
      RunInv v base h t ((List.range n).foldl (completeWorker v) k) ∧
      ∀ (c : Nat) (q : WorkerRegs), k.workers[c]? = some q →
        ∃ q' : WorkerRegs, ((List.range n).foldl (completeWorker v) k).workers[c]? = some q' ∧
          (c < n → q'.done = true) ∧ q'.fail = q.fail := by
    intro n
    induction n with
    | zero => exact ⟨hk, fun c q hq => ⟨q, hq, fun h => absurd h (Nat.not_lt_zero c), rfl⟩⟩
    | succ n ih =>
      rw [List.range_succ, List.foldl_append]
      obtain ⟨hI, hW⟩ := ih
      obtain ⟨h1, h2, h3⟩ := completeWorker_spec hl _ hI n
      refine ⟨h1, fun c q hq => ?_⟩
      obtain ⟨q', hq', hd', hf'⟩ := hW c q hq
      by_cases hcn : c = n
      · subst hcn
        obtain ⟨q2, hq2, hd2, hf2⟩ := h3 q' hq'
        exact ⟨q2, hq2, fun _ => hd2, hf2.trans hf'⟩
      · exact ⟨q', (h2 c hcn).trans hq', fun hlt => hd' (by omega), hf'⟩
  obtain ⟨hI, hW⟩ := key k.workers.length
  refine ⟨hI, fun c q hq => ?_⟩
  obtain ⟨q', hq', hd', hf'⟩ := hW c q hq
  exact ⟨q', hq', hd' (List.getElem?_eq_some_iff.1 hq).1, hf'⟩

/-- The whole `RUNNING` phase from barrier B1 to the join, whatever the schedule: the invariant, every task ended,
`FAIL[c] = 0` where no `fail c` was drawn and `FAIL[c] = 1` where one was drawn and no `finish c`. -/
theorem runTasks_spec {v : WorkerView} {base : Memory} {h t : Nat} (hl : 1 ≤ v.lane) (hb : base.wf = true)
    (es : List WorkerEvent) :
    RunInv v base h t (runTasks v es { next := base, workers := freshWorkers (dataWords v.width) h t }) ∧
    ∀ c, c < t → ∃ q,
      (runTasks v es { next := base, workers := freshWorkers (dataWords v.width) h t }).workers[c]? = some q ∧
      q.done = true ∧ (.fail c ∉ es → q.fail = false) ∧ (.fail c ∈ es → .finish c ∉ es → q.fail = true) := by
  have h0 := RunInv.start (t := t) (h := h) hl hb
  have h1 := h0.events hl es
  obtain ⟨h2, hW⟩ := completeAll_spec hl _ h1
  refine ⟨h2, fun c hc => ?_⟩
  have hq0 : (freshWorkers (dataWords v.width) h t)[c]? =
      some { pend := chunkWords (dataWords v.width) h t c, done := false, fail := false } := by
    simp [freshWorkers, hc]
  obtain ⟨q1, hq1⟩ : ∃ q, (runEvents v es
      { next := base, workers := freshWorkers (dataWords v.width) h t }).workers[c]? = some q := by
    have : c < (runEvents v es { next := base, workers := freshWorkers (dataWords v.width) h t }).workers.length := by
      rw [h1.count]; exact hc
    exact ⟨_, List.getElem?_eq_getElem this⟩
  obtain ⟨q2, hq2, hd2, hf2⟩ := hW c q1 hq1
  refine ⟨q2, hq2, hd2, fun hno => ?_, fun hf hfin => ?_⟩
  · obtain ⟨q3, hq3, hf3⟩ := runEvents_fail_same v es hno
      { next := base, workers := freshWorkers (dataWords v.width) h t } hq0
    rw [hq1] at hq3
    rw [hf2, Option.some.inj hq3, hf3]
  · obtain ⟨q3, hq3, hf3, _⟩ := runEvents_fails v es hf hfin
      { next := base, workers := freshWorkers (dataWords v.width) h t } hq0 rfl
    rw [hq1] at hq3
    rw [hf2, Option.some.inj hq3, hf3]

/-- When no task fails, every interior word is `RULE`'s word, whatever the schedule, `T`, `L` (R70, R206, R270). -/
theorem RunInv.all_written {v : WorkerView} {base : Memory} {h t : Nat} {k : Running} (hk : RunInv v base h t k)
    (ht : 1 ≤ t) (hdone : ∀ (c : Nat) (q : WorkerRegs), k.workers[c]? = some q → q.done = true ∧ q.fail = false) {R C : Nat}
    (hi : interior v.width h R C = true) :
    rd v.width k.next R C = nextWord v.planes v.width v.current (R - 1) (C - 1) := by
  obtain ⟨h1, h2, h3, h4⟩ := interior_iff.1 hi
  obtain ⟨c, hc, hrow⟩ := exists_chunk (h := h) (t := t) (r := R - 1) ht (by omega)
  have hlen : c < k.workers.length := by rw [hk.count]; exact hc
  have hq := List.getElem?_eq_getElem hlen
  have hQ := hk.workers c _ hq
  obtain ⟨hd, hf⟩ := hdone c _ hq
  have hp : (k.workers[c]).pend = [] := by
    rcases hQ.ended hd with hfail | hp
    · rw [hf] at hfail; exact absurd hfail (by decide)
    · exact hp
  have := hQ.written (R - 1, C - 1) (mem_chunkWords.2 ⟨hrow, by omega⟩) (by rw [hp]; simp)
  simpa [Nat.sub_add_cancel h1, Nat.sub_add_cancel h3] using this

/-- Failed or not, an interior word of `next` is its old value or `RULE`'s (U6). -/
theorem RunInv.old_or_new {v : WorkerView} {base : Memory} {h t : Nat} {k : Running} (hk : RunInv v base h t k)
    (ht : 1 ≤ t) {R C : Nat} (hi : interior v.width h R C = true) :
    rd v.width k.next R C = rd v.width base R C ∨
      rd v.width k.next R C = nextWord v.planes v.width v.current (R - 1) (C - 1) := by
  obtain ⟨h1, h2, h3, h4⟩ := interior_iff.1 hi
  obtain ⟨c, hc, hrow⟩ := exists_chunk (h := h) (t := t) (r := R - 1) ht (by omega)
  have hlen : c < k.workers.length := by rw [hk.count]; exact hc
  have hQ := hk.workers c _ (List.getElem?_eq_getElem hlen)
  have hmem : (R - 1, C - 1) ∈ chunkWords (dataWords v.width) h t c := mem_chunkWords.2 ⟨hrow, by omega⟩
  by_cases hp : (R - 1, C - 1) ∈ (k.workers[c]).pend
  · left; simpa [Nat.sub_add_cancel h1, Nat.sub_add_cancel h3] using hQ.pending _ hp
  · right; simpa [Nat.sub_add_cancel h1, Nat.sub_add_cancel h3] using hQ.written _ hmem hp

end Sys2Proof.Machine
end

