-- ==== Sys2Proof/Laws/Extended.lean ====
section
/-! SUPPORT. The regions of a buffer, and what `GHOST` establishes in them (R62, R130). -/

namespace Sys2Proof.Machine

open Sys2Proof.Config

theorem ghostRegion_iff {w h R C : Nat} :
    ghostRegion w h R C = true ↔
      R < h + 2 ∧ C < wordsPerRow w ∧ (R = 0 ∨ R = h + 1 ∨ C = 0 ∨ C = wordsPerRow w - 1) := by
  simp [ghostRegion, bufferRows, and_assoc, or_assoc]
  exact fun _ _ => ⟨of_decide_eq_true, decide_eq_true⟩

/-- Every word of a buffer is in the ghost region or in the interior, not in both (R62). -/
theorem region_cases {w h R C : Nat} (hR : R < bufferRows h) (hC : C < wordsPerRow w) :
    (ghostRegion w h R C = true ∧ interior w h R C = false) ∨
      (ghostRegion w h R C = false ∧ interior w h R C = true) := by
  unfold bufferRows at hR
  have hC' : C < dataWords w + 2 := hC
  rcases Bool.eq_false_or_eq_true (interior w h R C) with hi | hi
  · right
    refine ⟨?_, hi⟩
    rw [Bool.eq_false_iff, Ne, ghostRegion_iff]
    rw [interior_iff] at hi
    unfold wordsPerRow
    omega
  · left
    refine ⟨?_, hi⟩
    rw [Bool.eq_false_iff, Ne, interior_iff] at hi
    rw [ghostRegion_iff]
    unfold wordsPerRow
    omega

theorem interior_false_of_ghost {w h R C : Nat} (hg : ghostRegion w h R C = true) :
    C < wordsPerRow w ∧ interior w h R C = false := by
  have h := ghostRegion_iff.1 hg
  refine ⟨h.2.1, ?_⟩
  rcases region_cases h.1 h.2.1 with h | h
  · exact h.2
  · rw [hg] at h; simp at h

/-- Two buffers in canonical form inside the same buffer size that agree at every `(R, C)` are equal. -/
theorem Memory.ext_words {w h : Nat} {m n : Memory} (hm : m.wf = true) (hn : n.wf = true)
    (hbm : m.below (bufferSize w h) = true) (hbn : n.below (bufferSize w h) = true)
    (heq : ∀ R C, R < bufferRows h → C < wordsPerRow w → rd w m R C = rd w n R C) : m = n := by
  have hout : ∀ k : Memory, k.below (bufferSize w h) = true → ∀ a, bufferSize w h ≤ a → k.read a = Memory.unlisted := by
    intro k hk a ha
    induction k with
    | nil => rfl
    | cons e t ih =>
      simp only [Memory.below, List.all_cons, Bool.and_eq_true, decide_eq_true_eq] at hk
      simp only [Memory.read, show ¬ e.1 = a by omega, if_false]
      exact ih hk.2
  apply Memory.ext m n hm hn
  intro a
  by_cases ha : a < bufferSize w h
  · have hpos := wordsPerRow_pos w
    have := heq (a / wordsPerRow w) (a % wordsPerRow w)
      (by rw [Nat.div_lt_iff_lt_mul hpos, Nat.mul_comm]; exact ha) (Nat.mod_lt _ hpos)
    unfold rd wordIndex at this
    rwa [Nat.mul_comm, Nat.div_add_mod] at this
  · rw [hout m hbm a (by omega), hout n hbn a (by omega)]

/-! ### The extended cell function -/

/-- The row of the grid that buffer row `R` mirrors under `TORUS`. -/
def mirrorRow (h R : Nat) : Nat := if R = 0 then h - 1 else if R = h + 1 then 0 else R - 1

theorem mirrorRow_lt {h R : Nat} (hh : 1 ≤ h) (hR : R < h + 2) : mirrorRow h R < h := by
  unfold mirrorRow; split <;> [omega; split <;> omega]

theorem rd_ghostTorus_mirror {w h R C : Nat} (hh : 1 ≤ h) (m : Memory) (hm : m.wf = true) (hR : R < h + 2)
    (hC : C < wordsPerRow w) : rd w (ghostTorus w h m) R C = rd w (torusSides w h m) (mirrorRow h R + 1) C := by
  unfold mirrorRow
  split
  · rename_i h0; rw [h0, (rd_ghostTorus_edges hh m hm hC).1, Nat.sub_add_cancel hh]
  · split
    · rename_i h1; rw [h1, (rd_ghostTorus_edges hh m hm hC).2]
    · rw [rd_ghostTorus_rows m hC ‹_› ‹_›, Nat.sub_add_cancel (by omega)]

theorem mirrorRow_emod {h R : Nat} (hh : 1 ≤ h) (hR : R < h + 2) :
    (((R : Int) - 1) % (h : Int)).toNat = mirrorRow h R := by
  unfold mirrorRow
  split
  · rename_i h0
    subst h0
    have : ((0 : Nat) : Int) - 1 = ((h - 1 : Nat) : Int) + (h : Int) * (-1) := by omega
    rw [this, Int.add_mul_emod_self_left, Int.emod_eq_of_lt (by omega) (by omega)]
    omega
  · split
    · rename_i h1
      subst h1
      have : ((h + 1 : Nat) : Int) - 1 = h := by omega
      rw [this, Int.emod_self]; rfl
    · rw [Int.emod_eq_of_lt (by omega) (by omega)]; omega

theorem extCell_torus {w h : Nat} (c : Nat → Nat → Bool) (x y : Int) :
    extCell .torus w h c x y = c (x % (w : Int)).toNat (y % (h : Int)).toNat := by
  unfold extCell
  split
  · rename_i hx
    rw [Int.emod_eq_of_lt (by omega) (by omega), Int.emod_eq_of_lt (by omega) (by omega)]
  · rfl

theorem getLsbD_leftGhost (w : Nat) (m : Memory) (r n : Nat) :
    (leftGhost w m r).getLsbD n = (decide (n = 63) && (rd w m (r + 1) (dataWords w)).getLsbD ((w - 1) % 64)) := by
  unfold leftGhost
  cases (rd w m (r + 1) (dataWords w)).getLsbD ((w - 1) % 64)
  · simp
  · rw [show (BitVec.ofBool true).setWidth 64 <<< 63 = BitVec.twoPow 64 63 by decide]
    simp [BitVec.getLsbD_twoPow]
    omega

theorem getLsbD_rightGhost (w : Nat) (m : Memory) (r n : Nat) :
    (rightGhost w m r).getLsbD n = (decide (n = 0) && (rd w m (r + 1) 1).getLsbD 0) := by
  unfold rightGhost
  cases (rd w m (r + 1) 1).getLsbD 0
  · simp
  · rw [show (BitVec.ofBool true).setWidth 64 = BitVec.twoPow 64 0 by decide]
    simp [BitVec.getLsbD_twoPow]
    omega

theorem cellIn_eq (m : Memory) (w x y : Nat) : cellIn m w x y = (rd w m (y + 1) (x / 64 + 1)).getLsbD (x % 64) := rfl

/-- `GHOST` on a buffer establishes the extended cell function (R130). -/
theorem ghostMemory_ext {g : Cfg} {m : Memory} (hm : m.wf = true) (hw : 1 ≤ width g) (hh : 1 ≤ height g) {R : Nat}
    (hR : R < height g + 2) :
    (∀ x : Nat, x < width g → (rd (width g) (ghostMemory g m) R (x / 64 + 1)).getLsbD (x % 64) =
      extCell g.bp (width g) (height g) (cellIn m (width g)) x ((R : Int) - 1)) ∧
    (rd (width g) (ghostMemory g m) R 0).getLsbD 63 =
      extCell g.bp (width g) (height g) (cellIn m (width g)) (-1) ((R : Int) - 1) ∧
    (rd (width g) (ghostMemory g m) R (wordsPerRow (width g) - 1)).getLsbD 0 =
      extCell g.bp (width g) (height g) (cellIn m (width g)) (width g) ((R : Int) - 1) := by
  generalize hW : width g = w at *
  generalize hH : height g = h at *
  have hlast := lastColumn_lt w
  have hpos := wordsPerRow_pos w
  unfold ghostMemory
  cases hbp : g.bp with
  | dead =>
    simp only [hW, hH]
    refine ⟨fun x hx => ?_, ?_, ?_⟩
    · have hcol := dataColumn_lt hx
      by_cases hedge : R = 0 ∨ R = h + 1
      · rw [rd_ghostDead_ghost m hm (ghostRegion_iff.2 ⟨hR, by unfold wordsPerRow; omega, by omega⟩)]
        unfold extCell
        rw [if_neg (by omega)]; simp
      · rw [rd_ghostDead_inner m (by unfold wordsPerRow; omega) (by omega) (by omega) (by omega)
          (by unfold wordsPerRow; omega)]
        unfold extCell
        rw [if_pos (by omega), cellIn_eq]
        rw [show ((R : Int) - 1).toNat + 1 = R by omega]; simp
    · rw [rd_ghostDead_ghost m hm (ghostRegion_iff.2 ⟨hR, hpos, by omega⟩)]
      unfold extCell
      rw [if_neg (by omega)]; simp
    · rw [rd_ghostDead_ghost m hm (ghostRegion_iff.2 ⟨hR, hlast, by omega⟩)]
      unfold extCell
      rw [if_neg (by omega)]; simp
  | torus =>
    simp only [hW, hH]
    have hr := mirrorRow_lt hh hR
    refine ⟨fun x hx => ?_, ?_, ?_⟩
    · have hcol := dataColumn_lt hx
      rw [rd_ghostTorus_mirror hh m hm hR (by unfold wordsPerRow; omega),
        rd_torusSides_inner m (by unfold wordsPerRow; omega) (by omega) (by unfold wordsPerRow; omega),
        extCell_torus, mirrorRow_emod hh hR, Int.emod_eq_of_lt (by omega) (by omega)]
      rfl
    · rw [rd_ghostTorus_mirror hh m hm hR hpos, (rd_torusSides_side hw m hm hr).1, getLsbD_leftGhost,
        extCell_torus, mirrorRow_emod hh hR]
      have : ((-1 : Int) % (w : Int)).toNat = w - 1 := by
        have : (-1 : Int) = ((w - 1 : Nat) : Int) + (w : Int) * (-1) := by omega
        rw [this, Int.add_mul_emod_self_left, Int.emod_eq_of_lt (by omega) (by omega)]
        omega
      rw [this, cellIn_eq]
      have : (w - 1) / 64 + 1 = dataWords w := by unfold dataWords; omega
      rw [this]; simp
    · rw [rd_ghostTorus_mirror hh m hm hR hlast, (rd_torusSides_side hw m hm hr).2, getLsbD_rightGhost,
        extCell_torus, mirrorRow_emod hh hR, Int.emod_self]
      rw [cellIn_eq]; simp

end Sys2Proof.Machine
end

