-- ==== Sys2Proof/Laws/Build.lean ====
section
/-! SUPPORT. What `NEW.*` writes into `BUF[0]` (R121 step 4), bit by bit. -/

namespace Sys2Proof.Machine

open Sys2Proof.Config

theorem setCell_wf {w x y : Nat} {m : Memory} (h : m.wf = true) : (setCell w m x y).wf = true := Memory.wf_write _ _ _ h

theorem setCell_below {w h x y : Nat} {m : Memory} (hm : m.below (bufferSize w h) = true) (hx : x < w) (hy : y < h) :
    (setCell w m x y).below (bufferSize w h) = true := by
  have := dataColumn_lt hx
  exact Memory.below_write _ _ _ _ hm (wordIndex_lt (by unfold bufferRows; omega) (by unfold wordsPerRow; omega))

theorem buildRow_keeps {w h y : Nat} {m : Memory} {x : Nat} {row : List Bool} (hy : y < h) (hx : x + row.length ≤ w)
    (hm : m.wf = true ∧ m.below (bufferSize w h) = true) :
    (buildRow w y m x row).wf = true ∧ (buildRow w y m x row).below (bufferSize w h) = true := by
  induction row generalizing m x with
  | nil => exact hm
  | cons c t ih =>
    simp only [List.length_cons] at hx
    cases c with
    | false => exact ih (by omega) hm
    | true => exact ih (by omega) ⟨setCell_wf hm.1, setCell_below hm.2 (by omega) hy⟩

theorem buildRows_keeps {w h y : Nat} {m : Memory} {rows : List (List Bool)} (hy : y + rows.length ≤ h)
    (hr : ∀ row ∈ rows, row.length = w) (hm : m.wf = true ∧ m.below (bufferSize w h) = true) :
    (buildRows w m y rows).wf = true ∧ (buildRows w m y rows).below (bufferSize w h) = true := by
  induction rows generalizing m y with
  | nil => exact hm
  | cons row t ih =>
    simp only [List.length_cons] at hy
    exact ih (by omega) (fun r hr' => hr r (by simp [hr'])) (buildRow_keeps (by omega) (by rw [hr row (by simp)]; omega) hm)

/-- Reading one word after setting one cell. -/
theorem getLsbD_setCell {w x y R C n : Nat} {m : Memory} (hm : m.wf = true) (hx : x < w) (hC : C < wordsPerRow w) :
    (rd w (setCell w m x y) R C).getLsbD n =
      ((rd w m R C).getLsbD n || (decide (R = y + 1) && decide (C = x / 64 + 1) && decide (n = x % 64))) := by
  have hcol := dataColumn_lt hx
  have hb : x % 64 < 64 := Nat.mod_lt _ (by decide)
  by_cases h : R = y + 1 ∧ C = x / 64 + 1
  · obtain ⟨rfl, rfl⟩ := h
    show ((setCell w m x y).read _).getLsbD n = _
    unfold setCell
    rw [Memory.read_write_same m _ _ hm, BitVec.getLsbD_or,
      show (1#64 <<< (x % 64)) = BitVec.twoPow 64 (x % 64) by rw [BitVec.twoPow_eq], BitVec.getLsbD_twoPow]
    simp [hb, rd, eq_comm]
  · have : rd w (setCell w m x y) R C = rd w m R C := rd_wr_other (by unfold wordsPerRow; omega) hC (by omega)
    rw [this]
    by_cases h1 : R = y + 1
    · simp [h1, show C ≠ x / 64 + 1 from fun h2 => h ⟨h1, h2⟩]
    · simp [h1]

theorem getLsbD_buildRow {w y R C n : Nat} {m : Memory} {x : Nat} {row : List Bool} (hm : m.wf = true)
    (hx : x + row.length ≤ w) (hC : C < wordsPerRow w) (hn : n < 64) :
    (rd w (buildRow w y m x row) R C).getLsbD n =
      ((rd w m R C).getLsbD n || (decide (R = y + 1) && decide (1 ≤ C) && decide (x ≤ 64 * (C - 1) + n) &&
        row.getD (64 * (C - 1) + n - x) false)) := by
  induction row generalizing m x with
  | nil => simp [buildRow]
  | cons c t ih =>
    simp only [List.length_cons] at hx
    have hstep : ∀ b : Bool, (decide (x ≤ 64 * (C - 1) + n) && (b :: t).getD (64 * (C - 1) + n - x) false) =
        ((decide (x = 64 * (C - 1) + n) && b) ||
          (decide (x + 1 ≤ 64 * (C - 1) + n) && t.getD (64 * (C - 1) + n - (x + 1)) false)) := by
      intro b
      rcases Nat.lt_trichotomy x (64 * (C - 1) + n) with hlt | heq | hgt
      · rw [show 64 * (C - 1) + n - x = 64 * (C - 1) + n - (x + 1) + 1 by omega]
        simp [show x ≤ 64 * (C - 1) + n by omega, show x + 1 ≤ 64 * (C - 1) + n by omega, show ¬ x = 64 * (C - 1) + n by omega]
      · simp [heq]
      · simp [show ¬ x ≤ 64 * (C - 1) + n by omega, show ¬ x + 1 ≤ 64 * (C - 1) + n by omega, show ¬ x = 64 * (C - 1) + n by omega]
    cases c with
    | false =>
      show (rd w (buildRow w y m (x + 1) t) R C).getLsbD n = _
      rw [ih hm (by omega), Bool.and_assoc (decide _ && decide _), Bool.and_assoc (decide _ && decide _), hstep]
      simp
    | true =>
      show (rd w (buildRow w y (setCell w m x y) (x + 1) t) R C).getLsbD n = _
      rw [ih (setCell_wf hm) (by omega), getLsbD_setCell hm (by omega) hC, Bool.and_assoc (decide _ && decide _),
        Bool.and_assoc (decide _ && decide _), hstep]
      have : (decide (R = y + 1) && decide (C = x / 64 + 1) && decide (n = x % 64)) =
          (decide (R = y + 1) && decide (1 ≤ C) && decide (x = 64 * (C - 1) + n)) := by
        rw [Bool.eq_iff_iff]; simp; omega
      rw [this]
      cases decide (R = y + 1) <;> cases decide (1 ≤ C) <;> simp [Bool.or_assoc]

theorem getLsbD_buildRows {w y R C n : Nat} {m : Memory} {rows : List (List Bool)} (hm : m.wf = true)
    (hr : ∀ row ∈ rows, row.length = w) (hC : C < wordsPerRow w) (hn : n < 64) :
    (rd w (buildRows w m y rows) R C).getLsbD n =
      ((rd w m R C).getLsbD n || (decide (y + 1 ≤ R) && decide (1 ≤ C) &&
        (rows.getD (R - 1 - y) []).getD (64 * (C - 1) + n) false)) := by
  induction rows generalizing m y with
  | nil => simp [buildRows]
  | cons row t ih =>
    have hrow := hr row (by simp)
    have hwf : (buildRow w y m 0 row).wf = true := by
      clear ih hr
      have : ∀ (row : List Bool) (m : Memory) (x : Nat), m.wf = true → (buildRow w y m x row).wf = true := by
        intro row
        induction row with
        | nil => exact fun m x h => h
        | cons c t ih =>
          intro m x h
          cases c with
          | false => exact ih m _ h
          | true => exact ih _ _ (setCell_wf h)
      exact this row m 0 hm
    show (rd w (buildRows w (buildRow w y m 0 row) (y + 1) t) R C).getLsbD n = _
    rw [ih hwf (fun r h => hr r (by simp [h])), getLsbD_buildRow hm (by omega) hC hn]
    rcases Nat.lt_trichotomy R (y + 1) with hlt | heq | hgt
    · simp [show ¬ R = y + 1 by omega, show ¬ y + 1 + 1 ≤ R by omega, show ¬ y + 1 ≤ R by omega]
    · subst heq; simp
    · rw [show R - 1 - y = R - 1 - (y + 1) + 1 by omega]
      simp [show ¬ R = y + 1 by omega, show y + 1 + 1 ≤ R by omega, show y + 1 ≤ R by omega]

/-- Every bit of `BUF[0]` after a successful `NEW.*` (R121 step 4). -/
theorem getLsbD_buildMemory {w R C n : Nat} {m : List (List Bool)} (hr : ∀ row ∈ m, row.length = w)
    (hC : C < wordsPerRow w) (hn : n < 64) :
    (rd w (buildMemory w m) R C).getLsbD n =
      (decide (1 ≤ R) && decide (1 ≤ C) && (m.getD (R - 1) []).getD (64 * (C - 1) + n) false) := by
  unfold buildMemory
  rw [getLsbD_buildRows rfl hr hC hn]
  simp [rd, Memory.unlisted]

end Sys2Proof.Machine
end

