-- ==== Sys2Proof/Laws/Count.lean ====
section
/-! SUPPORT. Bits of the adder cells, of `VALID` and of the direction masks (R165, R167, R174). -/

namespace Sys2Proof.Machine

open Sys2Proof.Config

/-- Bit `n` of a half adder (R167). -/
theorem halfAdd_bits (a b : Word) (n : Nat) :
    ((halfAdd a b).1.getLsbD n) = (a.getLsbD n ^^ b.getLsbD n) ∧
    ((halfAdd a b).2.getLsbD n) = (a.getLsbD n && b.getLsbD n) := by
  simp [halfAdd]

/-- Bit `n` of a full adder (R167). -/
theorem fullAdd_bits (a b c : Word) (n : Nat) :
    ((fullAdd a b c).1.getLsbD n) = (a.getLsbD n ^^ b.getLsbD n ^^ c.getLsbD n) ∧
    ((fullAdd a b c).2.getLsbD n) =
      ((a.getLsbD n && b.getLsbD n) || (a.getLsbD n && c.getLsbD n) || (b.getLsbD n && c.getLsbD n)) := by
  simp [fullAdd]

/-- Bit `n` of `VALID(j)` (R174). -/
theorem getLsbD_validMask {w j n : Nat} (hj : j < dataWords w) (hn : n < 64) :
    (validMask w j).getLsbD n = decide (64 * j + n < w) := by
  unfold validMask lastWordCells dataWords at *
  rw [Bool.eq_iff_iff, decide_eq_true_eq]
  split
  · rename_i h
    rw [BitVec.getLsbD_allOnes, decide_eq_true_eq]
    rcases h with h | h <;> omega
  · have hlt : w % 64 < 64 := Nat.mod_lt _ (by decide)
    rw [BitVec.getLsbD_ofNat, Nat.testBit_two_pow_sub_one]
    simp [hn]; omega

/-- Bit `n` of a west mask (R165). -/
theorem getLsbD_westOf (m l : Word) {n : Nat} (hn : n < 64) :
    (westOf m l).getLsbD n = if n = 0 then l.getLsbD 63 else m.getLsbD (n - 1) := by
  unfold westOf
  rw [BitVec.getLsbD_or, BitVec.getLsbD_shiftLeft, BitVec.getLsbD_ushiftRight]
  split
  · rename_i h; subst h; simp
  · rename_i h
    rw [BitVec.getLsbD_of_ge l _ (by omega)]
    simp [hn]; omega

/-- Bit `n` of an east mask (R165). -/
theorem getLsbD_eastOf (e : Nat) (m r : Word) {n : Nat} (hn : n < 64) :
    (eastOf e m r).getLsbD n = (m.getLsbD (n + 1) || (decide (n = e) && r.getLsbD 0)) := by
  unfold eastOf
  rw [BitVec.getLsbD_or, BitVec.getLsbD_ushiftRight, BitVec.getLsbD_shiftLeft, Nat.add_comm 1 n]
  congr 1
  simp only [hn, BitVec.getLsbD_and, decide_true, Bool.true_and]
  by_cases h : n = e
  · subst h; simp
  · by_cases h2 : n < e
    · simp [h2, h]
    · simp [h]
      omega

/-! ### Padding -/

/-- Every bit above the grid in the last data word of a grid row is 0, in the rows `GHOST` has refreshed too. -/
theorem padding_bit {g : Cfg} {m : Memory} (hp : PaddingZero g m) {r n : Nat} (hr : r < height g) (hw : 1 ≤ width g)
    (hn : width g ≤ 64 * (dataWords (width g) - 1) + n) :
    (rd (width g) m (r + 1) (dataWords (width g))).getLsbD n = false := by
  by_cases h64 : n < 64
  · have h := congrArg (fun v : Word => v.getLsbD n) (hp r hr)
    have hv : (validMask (width g) (dataWords (width g) - 1)).getLsbD n = false := by
      rw [getLsbD_validMask (by unfold dataWords; omega) h64, decide_eq_false_iff_not]
      omega
    simp only [BitVec.getLsbD_and, BitVec.getLsbD_not, hv, h64, Bool.not_false, decide_true, Bool.and_true] at h
    rw [h]; simp
  · exact BitVec.getLsbD_of_ge _ _ (by omega)

/-- Bit `n` of the word at data column `j` of row `R` of `current` after `GHOST`, above the grid (R35, R128, R129). -/
theorem ghost_padding {g : Cfg} {m : Memory} (hm : m.wf = true) (hp : PaddingZero g m) (hw : 1 ≤ width g)
    (hh : 1 ≤ height g) {R n : Nat} (hR : R < height g + 2) (hn : width g ≤ 64 * (dataWords (width g) - 1) + n) :
    (rd (width g) (ghostMemory g m) R (dataWords (width g))).getLsbD n = false := by
  have hC : dataWords (width g) < wordsPerRow (width g) := by unfold wordsPerRow; omega
  have hd : 1 ≤ dataWords (width g) := by unfold dataWords; omega
  have hne : dataWords (width g) ≠ wordsPerRow (width g) - 1 := by unfold wordsPerRow; omega
  unfold ghostMemory
  cases g.bp with
  | dead =>
    dsimp only
    by_cases hedge : R = 0 ∨ R = height g + 1
    · rw [rd_ghostDead_ghost m hm (ghostRegion_iff.2 ⟨hR, hC, by omega⟩)]; simp
    · rw [rd_ghostDead_inner m hC (by omega) (by omega) (by omega) hne]
      have := padding_bit hp (r := R - 1) (by omega) hw hn
      rwa [Nat.sub_add_cancel (by omega)] at this
  | torus =>
    dsimp only
    rw [rd_ghostTorus_mirror hh m hm hR hC, rd_torusSides_inner m hC (by omega) hne]
    exact padding_bit hp (mirrorRow_lt hh hR) hw hn

theorem padding_ghost {g : Cfg} {m : Memory} (hp : PaddingZero g m) (hw : 1 ≤ width g) : PaddingZero g (ghostMemory g m) := by
  intro r hr
  have hd : 1 ≤ dataWords (width g) := by unfold dataWords; omega
  rw [rd_ghostMemory_inner m (by unfold wordsPerRow; omega) (by omega) (by omega) (by omega) (by unfold wordsPerRow; omega)]
  exact hp r hr

/-- `RULE` leaves the padding bits 0 (R175, R267). -/
theorem nextWord_padding (planes : PlaneCount) (w : Nat) (m : Memory) (r j : Nat) :
    nextWord planes w m r j &&& ~~~validMask w j = 0 := by
  unfold nextWord
  generalize addNet (dirMask w m r j) = d
  generalize (window w m r j).mz = z
  generalize validMask w j = v
  apply BitVec.eq_of_getLsbD_eq
  intro i hi
  cases planes <;> simp [ruleWord, hi]

/-! ### The masks of one row -/

/-- The horizontal neighbours of the cell at column `x` of buffer row `R` (R164, R165, R166). -/
theorem row_neighbours {g : Cfg} {m : Memory} (hm : m.wf = true) (hp : PaddingZero g m) (hw : 1 ≤ width g)
    (hh : 1 ≤ height g) {R x : Nat} (hR : R < height g + 2) (hx : x < width g) :
    (westOf (rd (width g) (ghostMemory g m) R (x / 64 + 1)) (rd (width g) (ghostMemory g m) R (x / 64))).getLsbD (x % 64) =
      extCell g.bp (width g) (height g) (cellIn m (width g)) ((x : Int) - 1) ((R : Int) - 1) ∧
    (rd (width g) (ghostMemory g m) R (x / 64 + 1)).getLsbD (x % 64) =
      extCell g.bp (width g) (height g) (cellIn m (width g)) x ((R : Int) - 1) ∧
    (eastOf (epos (width g) (x / 64)) (rd (width g) (ghostMemory g m) R (x / 64 + 1))
        (rd (width g) (ghostMemory g m) R (x / 64 + 2))).getLsbD (x % 64) =
      extCell g.bp (width g) (height g) (cellIn m (width g)) ((x : Int) + 1) ((R : Int) - 1) := by
  obtain ⟨hdata, hleft, hright⟩ := ghostMemory_ext hm hw hh hR
  have hb : x % 64 < 64 := Nat.mod_lt _ (by decide)
  refine ⟨?_, hdata x hx, ?_⟩
  · rw [getLsbD_westOf _ _ hb]
    split
    · rename_i h0
      by_cases hx0 : x = 0
      · subst hx0
        exact hleft
      · have h := hdata (x - 1) (by omega)
        rw [show (x - 1) / 64 + 1 = x / 64 by omega, show (x - 1) % 64 = 63 by omega] at h
        rw [h, show ((x - 1 : Nat) : Int) = (x : Int) - 1 by omega]
    · rename_i h0
      have h := hdata (x - 1) (by omega)
      rw [show (x - 1) / 64 + 1 = x / 64 + 1 by omega, show (x - 1) % 64 = x % 64 - 1 by omega] at h
      rw [h, show ((x - 1 : Nat) : Int) = (x : Int) - 1 by omega]
  · rw [getLsbD_eastOf _ _ _ hb]
    unfold epos
    by_cases hlast : x / 64 + 1 < dataWords (width g)
    · rw [if_pos hlast]
      have hx1 : x + 1 < width g := by unfold dataWords at hlast; omega
      have h := hdata (x + 1) hx1
      by_cases h63 : x % 64 = 63
      · rw [show (x + 1) / 64 + 1 = x / 64 + 2 by omega, show (x + 1) % 64 = 0 by omega] at h
        rw [h63, BitVec.getLsbD_of_ge _ 64 (by omega), h]
        simp
      · rw [show (x + 1) / 64 + 1 = x / 64 + 1 by omega, show (x + 1) % 64 = x % 64 + 1 by omega] at h
        rw [h]
        simp [h63]
    · rw [if_neg hlast]
      have hj : x / 64 + 1 = dataWords (width g) := by unfold dataWords at *; omega
      by_cases hx1 : x + 1 < width g
      · have h := hdata (x + 1) hx1
        have hne : ¬ x % 64 = (width g - 1) % 64 := by unfold dataWords at hj; omega
        have hlt : x % 64 + 1 < 64 := by unfold dataWords at hj; omega
        rw [show (x + 1) / 64 + 1 = x / 64 + 1 by omega, show (x + 1) % 64 = x % 64 + 1 by omega] at h
        rw [h]
        simp [hne]
      · have hxw : x = width g - 1 := by omega
        have hpad := ghost_padding hm hp hw hh (n := x % 64 + 1) hR (by omega)
        rw [hj, hpad, show x / 64 + 2 = wordsPerRow (width g) - 1 by unfold wordsPerRow; omega, hright, hxw]
        rw [show ((width g - 1 : Nat) : Int) + 1 = width g by omega]
        simp

end Sys2Proof.Machine
end

