-- ==== Sys2Proof/Laws/Encoding.lean ====
section
/-! SUPPORT. The fields of command words and of coordinate words. -/

namespace Sys2Proof.Machine

open Sys2Proof

/-- A word is its three fields (R91). -/
theorem fields_eq (c : Word) : c = opField c ++ aField c ++ bField c := by
  unfold opField aField bField
  apply BitVec.eq_of_getLsbD_eq
  intro i hi
  simp only [BitVec.getLsbD_append, BitVec.getLsbD_extractLsb']
  split
  · simp_all
  · split
    · simp_all
    · simp_all
      rw [show 56 + (i - 28 - 28) = i by omega, decide_eq_true (by omega : i - 28 - 28 < 8)]; simp [hi]

/-- The fields of a word written from its parts (R91). -/
theorem fields_of_parts (o : BitVec 8) (a b : BitVec 28) : opField (o ++ a ++ b) = o ∧ aField (o ++ a ++ b) = a ∧ bField (o ++ a ++ b) = b := by
  refine ⟨?_, ?_, ?_⟩ <;> apply BitVec.eq_of_getLsbD_eq <;> intro i hi <;>
    simp only [opField, aField, bField, BitVec.getLsbD_append, BitVec.getLsbD_extractLsb', hi, decide_true, Bool.true_and]
  · rw [if_neg (by omega), if_neg (by omega)]; congr 1; omega
  · rw [if_neg (by omega), if_pos (by omega)]; congr 1; omega
  · rw [if_pos (by omega)]; congr 1; omega

/-- The fields of an encoded command (R91, R96). -/
theorem fields_encode (i : Instr) : opField (encode i) = opcodeOf i ∧ aField (encode i) = BitVec.ofNat 28 (operandA i) ∧
    bField (encode i) = BitVec.ofNat 28 (operandB i) := fields_of_parts _ _ _

/-- Only well-formed commands are decoded (R91). -/
theorem decode_wellFormed {c : Word} {i : Instr} (h : decode c = .instr i) : WellFormed i = true := by
  have ha := (aField c).isLt
  have hb := (bField c).isLt
  have hz : ∀ j : Instr, WellFormed j = true → zFormat c j = .instr i → WellFormed i = true := by
    intro j hj hz
    unfold zFormat at hz
    split at hz
    · cases hz; exact hj
    · cases hz
  unfold decode at h
  split at h
  · cases h; simp [WellFormed, operandFits, ha, hb]
  split at h
  · cases h; simp [WellFormed, operandFits, ha, hb]
  split at h
  · exact hz _ rfl h
  split at h
  · cases h; simp [WellFormed, operandFits, ha, hb]
  split at h
  · exact hz _ rfl h
  split at h
  · exact hz _ rfl h
  split at h
  · exact hz _ rfl h
  · cases h

/-- The fields of a coordinate word (R95). -/
theorem coordWord_fields (x y : Nat) : (coordWord x y).extractLsb' 56 8 = 0 ∧
    (coordWord x y).extractLsb' 28 28 = BitVec.ofNat 28 x ∧ (coordWord x y).extractLsb' 0 28 = BitVec.ofNat 28 y :=
  fields_of_parts 0#8 (BitVec.ofNat 28 x) (BitVec.ofNat 28 y)

/-- No coordinate word is the end word (R95). -/
theorem coordWord_ne (x y : Nat) : coordWord x y ≠ endWord := by
  intro h
  have h1 := (fields_of_parts 0#8 (BitVec.ofNat 28 x) (BitVec.ofNat 28 y)).1
  have h2 : opField (coordWord x y) = 0#8 := h1
  rw [h] at h2
  exact absurd h2 (by decide)

end Sys2Proof.Machine
end

