-- ==== Sys2Proof/Laws/PerInstr.lean ====
section
/-! SUPPORT. The statements made per command: family `EncodedFields`, what stands in the three fields of an encoded
command. -/

namespace Sys2Proof.Laws.EncodedFields

/-- The word of a command has its opcode at 63:56 and its operands at 55:28 and 27:0 (R91, R96). -/
def Statement (i : Instr) : Prop :=
  WellFormed i = true →
    opField (encode i) = opcodeOf i ∧ (aField (encode i)).toNat = operandA i ∧ (bField (encode i)).toNat = operandB i

theorem of_operands (i : Instr) (ha : WellFormed i = true → operandA i < 2 ^ 28)
    (hb : WellFormed i = true → operandB i < 2 ^ 28) : Statement i := fun h => by
  obtain ⟨h1, h2, h3⟩ := Machine.fields_encode i
  rw [h2, h3, BitVec.toNat_ofNat, BitVec.toNat_ofNat, Nat.mod_eq_of_lt (ha h), Nat.mod_eq_of_lt (hb h)]
  exact ⟨h1, rfl, rfl⟩

theorem fits {a b : Nat} (h : (operandFits a && operandFits b) = true) : a < 2 ^ 28 ∧ b < 2 ^ 28 := by
  simpa [operandFits] using h

theorem newDead (w h : Nat) : Statement (.newDead w h) := of_operands _ (fun hw => (fits hw).1) (fun hw => (fits hw).2)
theorem newTorus (w h : Nat) : Statement (.newTorus w h) := of_operands _ (fun hw => (fits hw).1) (fun hw => (fits hw).2)
theorem step : Statement .step := of_operands _ (fun _ => by decide) (fun _ => by decide)
theorem getCell (x y : Nat) : Statement (.getCell x y) := of_operands _ (fun hw => (fits hw).1) (fun hw => (fits hw).2)
theorem live : Statement .live := of_operands _ (fun _ => by decide) (fun _ => by decide)
theorem getGen : Statement .getGen := of_operands _ (fun _ => by decide) (fun _ => by decide)
theorem status : Statement .status := of_operands _ (fun _ => by decide) (fun _ => by decide)

end Sys2Proof.Laws.EncodedFields
end

