-- ==== Sys2Proof/Laws/State.lean ====
section
/-! SUPPORT. One lemma per field per update of the state, so that no proof unfolds a record update. -/

namespace Sys2Proof.Machine

open Sys2Proof.Config

/-! ### `respond` -/

@[simp] theorem respond_state (code : BitVec 8) (data : Word) (s : State) : (respond code data s).state = s.state := rfl
@[simp] theorem respond_gen (code : BitVec 8) (data : Word) (s : State) : (respond code data s).gen = s.gen := rfl
@[simp] theorem respond_sel (code : BitVec 8) (data : Word) (s : State) : (respond code data s).sel = s.sel := rfl
@[simp] theorem respond_cfg (code : BitVec 8) (data : Word) (s : State) : (respond code data s).cfg = s.cfg := rfl
@[simp] theorem respond_prof (code : BitVec 8) (data : Word) (s : State) : (respond code data s).prof = s.prof := rfl
@[simp] theorem respond_err (code : BitVec 8) (data : Word) (s : State) : (respond code data s).err = s.err := rfl
@[simp] theorem respond_errChunk (code : BitVec 8) (data : Word) (s : State) : (respond code data s).errChunk = s.errChunk := rfl
@[simp] theorem respond_bufs (code : BitVec 8) (data : Word) (s : State) : (respond code data s).bufs = s.bufs := rfl
@[simp] theorem respond_seq (code : BitVec 8) (data : Word) (s : State) : (respond code data s).seq = s.seq := rfl
@[simp] theorem respond_inbox (code : BitVec 8) (data : Word) (s : State) : (respond code data s).inbox = s.inbox := rfl
@[simp] theorem respond_outstanding (code : BitVec 8) (data : Word) (s : State) : (respond code data s).outstanding = none := rfl
@[simp] theorem respond_stream (code : BitVec 8) (data : Word) (s : State) : (respond code data s).stream = [] := rfl
@[simp] theorem respond_resp (code : BitVec 8) (data : Word) (s : State) : (respond code data s).resp = some { code := code, data := data } := rfl
@[simp] theorem respond_hw (code : BitVec 8) (data : Word) (s : State) : (respond code data s).hw = s.hw := rfl
@[simp] theorem respond_calDraws (code : BitVec 8) (data : Word) (s : State) : (respond code data s).calDraws = s.calDraws := rfl
@[simp] theorem respond_workerDraws (code : BitVec 8) (data : Word) (s : State) : (respond code data s).workerDraws = s.workerDraws := rfl
@[simp] theorem respond_drawCount (code : BitVec 8) (data : Word) (s : State) : (respond code data s).drawCount = s.drawCount := rfl

/-! ### `emit` -/

@[simp] theorem emit_state (ws : List Word) (s : State) : (emit ws s).state = s.state := rfl
@[simp] theorem emit_gen (ws : List Word) (s : State) : (emit ws s).gen = s.gen := rfl
@[simp] theorem emit_sel (ws : List Word) (s : State) : (emit ws s).sel = s.sel := rfl
@[simp] theorem emit_cfg (ws : List Word) (s : State) : (emit ws s).cfg = s.cfg := rfl
@[simp] theorem emit_prof (ws : List Word) (s : State) : (emit ws s).prof = s.prof := rfl
@[simp] theorem emit_err (ws : List Word) (s : State) : (emit ws s).err = s.err := rfl
@[simp] theorem emit_errChunk (ws : List Word) (s : State) : (emit ws s).errChunk = s.errChunk := rfl
@[simp] theorem emit_bufs (ws : List Word) (s : State) : (emit ws s).bufs = s.bufs := rfl
@[simp] theorem emit_seq (ws : List Word) (s : State) : (emit ws s).seq = s.seq := rfl
@[simp] theorem emit_inbox (ws : List Word) (s : State) : (emit ws s).inbox = s.inbox := rfl
@[simp] theorem emit_outstanding (ws : List Word) (s : State) : (emit ws s).outstanding = s.outstanding := rfl
@[simp] theorem emit_stream (ws : List Word) (s : State) : (emit ws s).stream = ws := rfl
@[simp] theorem emit_resp (ws : List Word) (s : State) : (emit ws s).resp = s.resp := rfl
@[simp] theorem emit_hw (ws : List Word) (s : State) : (emit ws s).hw = s.hw := rfl
@[simp] theorem emit_calDraws (ws : List Word) (s : State) : (emit ws s).calDraws = s.calDraws := rfl
@[simp] theorem emit_workerDraws (ws : List Word) (s : State) : (emit ws s).workerDraws = s.workerDraws := rfl
@[simp] theorem emit_drawCount (ws : List Word) (s : State) : (emit ws s).drawCount = s.drawCount := rfl

/-! ### `holdStream` -/

@[simp] theorem holdStream_state (i : Instr) (n : Nat) (s : State) : (holdStream i n s).state = s.state := rfl
@[simp] theorem holdStream_gen (i : Instr) (n : Nat) (s : State) : (holdStream i n s).gen = s.gen := rfl
@[simp] theorem holdStream_sel (i : Instr) (n : Nat) (s : State) : (holdStream i n s).sel = s.sel := rfl
@[simp] theorem holdStream_cfg (i : Instr) (n : Nat) (s : State) : (holdStream i n s).cfg = s.cfg := rfl
@[simp] theorem holdStream_prof (i : Instr) (n : Nat) (s : State) : (holdStream i n s).prof = s.prof := rfl
@[simp] theorem holdStream_err (i : Instr) (n : Nat) (s : State) : (holdStream i n s).err = s.err := rfl
@[simp] theorem holdStream_errChunk (i : Instr) (n : Nat) (s : State) : (holdStream i n s).errChunk = s.errChunk := rfl
@[simp] theorem holdStream_bufs (i : Instr) (n : Nat) (s : State) : (holdStream i n s).bufs = s.bufs := rfl
@[simp] theorem holdStream_seq (i : Instr) (n : Nat) (s : State) : (holdStream i n s).seq = s.seq := rfl
@[simp] theorem holdStream_inbox (i : Instr) (n : Nat) (s : State) : (holdStream i n s).inbox = s.inbox := rfl
@[simp] theorem holdStream_outstanding (i : Instr) (n : Nat) (s : State) : (holdStream i n s).outstanding = some { instr := i, cells := [] } := rfl
@[simp] theorem holdStream_stream (i : Instr) (n : Nat) (s : State) : (holdStream i n s).stream = s.stream.take n := rfl
@[simp] theorem holdStream_resp (i : Instr) (n : Nat) (s : State) : (holdStream i n s).resp = none := rfl
@[simp] theorem holdStream_hw (i : Instr) (n : Nat) (s : State) : (holdStream i n s).hw = s.hw := rfl
@[simp] theorem holdStream_calDraws (i : Instr) (n : Nat) (s : State) : (holdStream i n s).calDraws = s.calDraws := rfl
@[simp] theorem holdStream_workerDraws (i : Instr) (n : Nat) (s : State) : (holdStream i n s).workerDraws = s.workerDraws := rfl
@[simp] theorem holdStream_drawCount (i : Instr) (n : Nat) (s : State) : (holdStream i n s).drawCount = s.drawCount := rfl

/-! ### `record` -/

@[simp] theorem record_gen (e : ErrorCause) (s : State) : (record e s).gen = s.gen := by cases e <;> rfl
@[simp] theorem record_sel (e : ErrorCause) (s : State) : (record e s).sel = s.sel := by cases e <;> rfl
@[simp] theorem record_cfg (e : ErrorCause) (s : State) : (record e s).cfg = s.cfg := by cases e <;> rfl
@[simp] theorem record_prof (e : ErrorCause) (s : State) : (record e s).prof = s.prof := by cases e <;> rfl
@[simp] theorem record_bufs (e : ErrorCause) (s : State) : (record e s).bufs = s.bufs := by cases e <;> rfl
@[simp] theorem record_inbox (e : ErrorCause) (s : State) : (record e s).inbox = s.inbox := by cases e <;> rfl
@[simp] theorem record_outstanding (e : ErrorCause) (s : State) : (record e s).outstanding = s.outstanding := by cases e <;> rfl
@[simp] theorem record_stream (e : ErrorCause) (s : State) : (record e s).stream = s.stream := by cases e <;> rfl
@[simp] theorem record_resp (e : ErrorCause) (s : State) : (record e s).resp = s.resp := by cases e <;> rfl
@[simp] theorem record_hw (e : ErrorCause) (s : State) : (record e s).hw = s.hw := by cases e <;> rfl
@[simp] theorem record_calDraws (e : ErrorCause) (s : State) : (record e s).calDraws = s.calDraws := by cases e <;> rfl
@[simp] theorem record_workerDraws (e : ErrorCause) (s : State) : (record e s).workerDraws = s.workerDraws := by cases e <;> rfl
@[simp] theorem record_drawCount (e : ErrorCause) (s : State) : (record e s).drawCount = s.drawCount := by cases e <;> rfl

/-! ### `raise` -/

@[simp] theorem raise_state (e : ErrorCause) (s : State) : (raise e s).state = (record e s).state := by cases e <;> rfl
@[simp] theorem raise_gen (e : ErrorCause) (s : State) : (raise e s).gen = s.gen := by cases e <;> rfl
@[simp] theorem raise_sel (e : ErrorCause) (s : State) : (raise e s).sel = s.sel := by cases e <;> rfl
@[simp] theorem raise_cfg (e : ErrorCause) (s : State) : (raise e s).cfg = s.cfg := by cases e <;> rfl
@[simp] theorem raise_prof (e : ErrorCause) (s : State) : (raise e s).prof = s.prof := by cases e <;> rfl
@[simp] theorem raise_err (e : ErrorCause) (s : State) : (raise e s).err = (record e s).err := by cases e <;> rfl
@[simp] theorem raise_errChunk (e : ErrorCause) (s : State) : (raise e s).errChunk = (record e s).errChunk := by cases e <;> rfl
@[simp] theorem raise_bufs (e : ErrorCause) (s : State) : (raise e s).bufs = s.bufs := by cases e <;> rfl
@[simp] theorem raise_seq (e : ErrorCause) (s : State) : (raise e s).seq = (record e s).seq := by cases e <;> rfl
@[simp] theorem raise_inbox (e : ErrorCause) (s : State) : (raise e s).inbox = s.inbox := by cases e <;> rfl
@[simp] theorem raise_outstanding (e : ErrorCause) (s : State) : (raise e s).outstanding = none := by cases e <;> rfl
@[simp] theorem raise_stream (e : ErrorCause) (s : State) : (raise e s).stream = [] := by cases e <;> rfl
@[simp] theorem raise_resp (e : ErrorCause) (s : State) : (raise e s).resp = some { code := errorCode e, data := errorData e } := by cases e <;> rfl
@[simp] theorem raise_hw (e : ErrorCause) (s : State) : (raise e s).hw = s.hw := by cases e <;> rfl
@[simp] theorem raise_calDraws (e : ErrorCause) (s : State) : (raise e s).calDraws = s.calDraws := by cases e <;> rfl
@[simp] theorem raise_workerDraws (e : ErrorCause) (s : State) : (raise e s).workerDraws = s.workerDraws := by cases e <;> rfl
@[simp] theorem raise_drawCount (e : ErrorCause) (s : State) : (raise e s).drawCount = s.drawCount := by cases e <;> rfl

/-! ### `setState` -/

@[simp] theorem setState_state (st : EngineState) (s : State) : (setState st s).state = st := rfl
@[simp] theorem setState_gen (st : EngineState) (s : State) : (setState st s).gen = s.gen := rfl
@[simp] theorem setState_sel (st : EngineState) (s : State) : (setState st s).sel = s.sel := rfl
@[simp] theorem setState_cfg (st : EngineState) (s : State) : (setState st s).cfg = s.cfg := rfl
@[simp] theorem setState_prof (st : EngineState) (s : State) : (setState st s).prof = s.prof := rfl
@[simp] theorem setState_err (st : EngineState) (s : State) : (setState st s).err = s.err := rfl
@[simp] theorem setState_errChunk (st : EngineState) (s : State) : (setState st s).errChunk = s.errChunk := rfl
@[simp] theorem setState_bufs (st : EngineState) (s : State) : (setState st s).bufs = s.bufs := rfl
@[simp] theorem setState_seq (st : EngineState) (s : State) : (setState st s).seq = s.seq := rfl
@[simp] theorem setState_inbox (st : EngineState) (s : State) : (setState st s).inbox = s.inbox := rfl
@[simp] theorem setState_outstanding (st : EngineState) (s : State) : (setState st s).outstanding = s.outstanding := rfl
@[simp] theorem setState_stream (st : EngineState) (s : State) : (setState st s).stream = s.stream := rfl
@[simp] theorem setState_resp (st : EngineState) (s : State) : (setState st s).resp = s.resp := rfl
@[simp] theorem setState_hw (st : EngineState) (s : State) : (setState st s).hw = s.hw := rfl
@[simp] theorem setState_calDraws (st : EngineState) (s : State) : (setState st s).calDraws = s.calDraws := rfl
@[simp] theorem setState_workerDraws (st : EngineState) (s : State) : (setState st s).workerDraws = s.workerDraws := rfl
@[simp] theorem setState_drawCount (st : EngineState) (s : State) : (setState st s).drawCount = s.drawCount := rfl

/-! ### `swap` -/

@[simp] theorem swap_state (s : State) : (swap s).state = s.state := rfl
@[simp] theorem swap_gen (s : State) : (swap s).gen = s.gen := rfl
@[simp] theorem swap_sel (s : State) : (swap s).sel = !s.sel := rfl
@[simp] theorem swap_cfg (s : State) : (swap s).cfg = s.cfg := rfl
@[simp] theorem swap_prof (s : State) : (swap s).prof = s.prof := rfl
@[simp] theorem swap_err (s : State) : (swap s).err = s.err := rfl
@[simp] theorem swap_errChunk (s : State) : (swap s).errChunk = s.errChunk := rfl
@[simp] theorem swap_bufs (s : State) : (swap s).bufs = s.bufs := rfl
@[simp] theorem swap_seq (s : State) : (swap s).seq = s.seq := rfl
@[simp] theorem swap_inbox (s : State) : (swap s).inbox = s.inbox := rfl
@[simp] theorem swap_outstanding (s : State) : (swap s).outstanding = s.outstanding := rfl
@[simp] theorem swap_stream (s : State) : (swap s).stream = s.stream := rfl
@[simp] theorem swap_resp (s : State) : (swap s).resp = s.resp := rfl
@[simp] theorem swap_hw (s : State) : (swap s).hw = s.hw := rfl
@[simp] theorem swap_calDraws (s : State) : (swap s).calDraws = s.calDraws := rfl
@[simp] theorem swap_workerDraws (s : State) : (swap s).workerDraws = s.workerDraws := rfl
@[simp] theorem swap_drawCount (s : State) : (swap s).drawCount = s.drawCount := rfl

/-! ### `setCurrent` -/

@[simp] theorem setCurrent_state (m : Memory) (s : State) : (setCurrent m s).state = s.state := rfl
@[simp] theorem setCurrent_gen (m : Memory) (s : State) : (setCurrent m s).gen = s.gen := rfl
@[simp] theorem setCurrent_sel (m : Memory) (s : State) : (setCurrent m s).sel = s.sel := rfl
@[simp] theorem setCurrent_cfg (m : Memory) (s : State) : (setCurrent m s).cfg = s.cfg := rfl
@[simp] theorem setCurrent_prof (m : Memory) (s : State) : (setCurrent m s).prof = s.prof := rfl
@[simp] theorem setCurrent_err (m : Memory) (s : State) : (setCurrent m s).err = s.err := rfl
@[simp] theorem setCurrent_errChunk (m : Memory) (s : State) : (setCurrent m s).errChunk = s.errChunk := rfl
@[simp] theorem setCurrent_seq (m : Memory) (s : State) : (setCurrent m s).seq = s.seq := rfl
@[simp] theorem setCurrent_inbox (m : Memory) (s : State) : (setCurrent m s).inbox = s.inbox := rfl
@[simp] theorem setCurrent_outstanding (m : Memory) (s : State) : (setCurrent m s).outstanding = s.outstanding := rfl
@[simp] theorem setCurrent_stream (m : Memory) (s : State) : (setCurrent m s).stream = s.stream := rfl
@[simp] theorem setCurrent_resp (m : Memory) (s : State) : (setCurrent m s).resp = s.resp := rfl
@[simp] theorem setCurrent_hw (m : Memory) (s : State) : (setCurrent m s).hw = s.hw := rfl
@[simp] theorem setCurrent_calDraws (m : Memory) (s : State) : (setCurrent m s).calDraws = s.calDraws := rfl
@[simp] theorem setCurrent_workerDraws (m : Memory) (s : State) : (setCurrent m s).workerDraws = s.workerDraws := rfl
@[simp] theorem setCurrent_drawCount (m : Memory) (s : State) : (setCurrent m s).drawCount = s.drawCount := rfl

/-! ### `setNext` -/

@[simp] theorem setNext_state (m : Memory) (s : State) : (setNext m s).state = s.state := rfl
@[simp] theorem setNext_gen (m : Memory) (s : State) : (setNext m s).gen = s.gen := rfl
@[simp] theorem setNext_sel (m : Memory) (s : State) : (setNext m s).sel = s.sel := rfl
@[simp] theorem setNext_cfg (m : Memory) (s : State) : (setNext m s).cfg = s.cfg := rfl
@[simp] theorem setNext_prof (m : Memory) (s : State) : (setNext m s).prof = s.prof := rfl
@[simp] theorem setNext_err (m : Memory) (s : State) : (setNext m s).err = s.err := rfl
@[simp] theorem setNext_errChunk (m : Memory) (s : State) : (setNext m s).errChunk = s.errChunk := rfl
@[simp] theorem setNext_seq (m : Memory) (s : State) : (setNext m s).seq = s.seq := rfl
@[simp] theorem setNext_inbox (m : Memory) (s : State) : (setNext m s).inbox = s.inbox := rfl
@[simp] theorem setNext_outstanding (m : Memory) (s : State) : (setNext m s).outstanding = s.outstanding := rfl
@[simp] theorem setNext_stream (m : Memory) (s : State) : (setNext m s).stream = s.stream := rfl
@[simp] theorem setNext_resp (m : Memory) (s : State) : (setNext m s).resp = s.resp := rfl
@[simp] theorem setNext_hw (m : Memory) (s : State) : (setNext m s).hw = s.hw := rfl
@[simp] theorem setNext_calDraws (m : Memory) (s : State) : (setNext m s).calDraws = s.calDraws := rfl
@[simp] theorem setNext_workerDraws (m : Memory) (s : State) : (setNext m s).workerDraws = s.workerDraws := rfl
@[simp] theorem setNext_drawCount (m : Memory) (s : State) : (setNext m s).drawCount = s.drawCount := rfl

/-! ### `ghost` -/

@[simp] theorem ghost_state (s : State) : (ghost s).state = s.state := rfl
@[simp] theorem ghost_gen (s : State) : (ghost s).gen = s.gen := rfl
@[simp] theorem ghost_sel (s : State) : (ghost s).sel = s.sel := rfl
@[simp] theorem ghost_cfg (s : State) : (ghost s).cfg = s.cfg := rfl
@[simp] theorem ghost_prof (s : State) : (ghost s).prof = s.prof := rfl
@[simp] theorem ghost_err (s : State) : (ghost s).err = s.err := rfl
@[simp] theorem ghost_errChunk (s : State) : (ghost s).errChunk = s.errChunk := rfl
@[simp] theorem ghost_seq (s : State) : (ghost s).seq = s.seq := rfl
@[simp] theorem ghost_inbox (s : State) : (ghost s).inbox = s.inbox := rfl
@[simp] theorem ghost_outstanding (s : State) : (ghost s).outstanding = s.outstanding := rfl
@[simp] theorem ghost_stream (s : State) : (ghost s).stream = s.stream := rfl
@[simp] theorem ghost_resp (s : State) : (ghost s).resp = s.resp := rfl
@[simp] theorem ghost_hw (s : State) : (ghost s).hw = s.hw := rfl
@[simp] theorem ghost_calDraws (s : State) : (ghost s).calDraws = s.calDraws := rfl
@[simp] theorem ghost_workerDraws (s : State) : (ghost s).workerDraws = s.workerDraws := rfl
@[simp] theorem ghost_drawCount (s : State) : (ghost s).drawCount = s.drawCount := rfl

/-! ### `enterStepping` -/

@[simp] theorem enterStepping_state (s : State) : (enterStepping s).state = .stepping := rfl
@[simp] theorem enterStepping_gen (s : State) : (enterStepping s).gen = s.gen := rfl
@[simp] theorem enterStepping_sel (s : State) : (enterStepping s).sel = s.sel := rfl
@[simp] theorem enterStepping_cfg (s : State) : (enterStepping s).cfg = s.cfg := rfl
@[simp] theorem enterStepping_prof (s : State) : (enterStepping s).prof = s.prof := rfl
@[simp] theorem enterStepping_err (s : State) : (enterStepping s).err = s.err := rfl
@[simp] theorem enterStepping_errChunk (s : State) : (enterStepping s).errChunk = s.errChunk := rfl
@[simp] theorem enterStepping_bufs (s : State) : (enterStepping s).bufs = s.bufs := rfl
@[simp] theorem enterStepping_inbox (s : State) : (enterStepping s).inbox = s.inbox := rfl
@[simp] theorem enterStepping_outstanding (s : State) : (enterStepping s).outstanding = s.outstanding := rfl
@[simp] theorem enterStepping_stream (s : State) : (enterStepping s).stream = s.stream := rfl
@[simp] theorem enterStepping_resp (s : State) : (enterStepping s).resp = s.resp := rfl
@[simp] theorem enterStepping_hw (s : State) : (enterStepping s).hw = s.hw := rfl
@[simp] theorem enterStepping_calDraws (s : State) : (enterStepping s).calDraws = s.calDraws := rfl
@[simp] theorem enterStepping_workerDraws (s : State) : (enterStepping s).workerDraws = s.workerDraws := rfl
@[simp] theorem enterStepping_drawCount (s : State) : (enterStepping s).drawCount = s.drawCount := rfl

/-! ### `partition` -/

@[simp] theorem partition_state (s : State) : (partition s).state = s.state := rfl
@[simp] theorem partition_gen (s : State) : (partition s).gen = s.gen := rfl
@[simp] theorem partition_sel (s : State) : (partition s).sel = s.sel := rfl
@[simp] theorem partition_cfg (s : State) : (partition s).cfg = s.cfg := rfl
@[simp] theorem partition_prof (s : State) : (partition s).prof = s.prof := rfl
@[simp] theorem partition_err (s : State) : (partition s).err = s.err := rfl
@[simp] theorem partition_errChunk (s : State) : (partition s).errChunk = s.errChunk := rfl
@[simp] theorem partition_bufs (s : State) : (partition s).bufs = s.bufs := rfl
@[simp] theorem partition_inbox (s : State) : (partition s).inbox = s.inbox := rfl
@[simp] theorem partition_outstanding (s : State) : (partition s).outstanding = s.outstanding := rfl
@[simp] theorem partition_stream (s : State) : (partition s).stream = s.stream := rfl
@[simp] theorem partition_resp (s : State) : (partition s).resp = s.resp := rfl
@[simp] theorem partition_hw (s : State) : (partition s).hw = s.hw := rfl
@[simp] theorem partition_calDraws (s : State) : (partition s).calDraws = s.calDraws := rfl
@[simp] theorem partition_workerDraws (s : State) : (partition s).workerDraws = s.workerDraws := rfl
@[simp] theorem partition_drawCount (s : State) : (partition s).drawCount = s.drawCount := rfl

/-! ### `setPhase` -/

@[simp] theorem setPhase_state (p : Phase) (s : State) : (setPhase p s).state = s.state := rfl
@[simp] theorem setPhase_gen (p : Phase) (s : State) : (setPhase p s).gen = s.gen := rfl
@[simp] theorem setPhase_sel (p : Phase) (s : State) : (setPhase p s).sel = s.sel := rfl
@[simp] theorem setPhase_cfg (p : Phase) (s : State) : (setPhase p s).cfg = s.cfg := rfl
@[simp] theorem setPhase_prof (p : Phase) (s : State) : (setPhase p s).prof = s.prof := rfl
@[simp] theorem setPhase_err (p : Phase) (s : State) : (setPhase p s).err = s.err := rfl
@[simp] theorem setPhase_errChunk (p : Phase) (s : State) : (setPhase p s).errChunk = s.errChunk := rfl
@[simp] theorem setPhase_bufs (p : Phase) (s : State) : (setPhase p s).bufs = s.bufs := rfl
@[simp] theorem setPhase_inbox (p : Phase) (s : State) : (setPhase p s).inbox = s.inbox := rfl
@[simp] theorem setPhase_outstanding (p : Phase) (s : State) : (setPhase p s).outstanding = s.outstanding := rfl
@[simp] theorem setPhase_stream (p : Phase) (s : State) : (setPhase p s).stream = s.stream := rfl
@[simp] theorem setPhase_resp (p : Phase) (s : State) : (setPhase p s).resp = s.resp := rfl
@[simp] theorem setPhase_hw (p : Phase) (s : State) : (setPhase p s).hw = s.hw := rfl
@[simp] theorem setPhase_calDraws (p : Phase) (s : State) : (setPhase p s).calDraws = s.calDraws := rfl
@[simp] theorem setPhase_workerDraws (p : Phase) (s : State) : (setPhase p s).workerDraws = s.workerDraws := rfl
@[simp] theorem setPhase_drawCount (p : Phase) (s : State) : (setPhase p s).drawCount = s.drawCount := rfl

/-! ### `buildGrid` -/

@[simp] theorem buildGrid_state (bp : Boundary) (a b : Nat) (m : List (List Bool)) (s : State) : (buildGrid bp a b m s).state = s.state := rfl
@[simp] theorem buildGrid_gen (bp : Boundary) (a b : Nat) (m : List (List Bool)) (s : State) : (buildGrid bp a b m s).gen = 0 := rfl
@[simp] theorem buildGrid_sel (bp : Boundary) (a b : Nat) (m : List (List Bool)) (s : State) : (buildGrid bp a b m s).sel = false := rfl
@[simp] theorem buildGrid_cfg (bp : Boundary) (a b : Nat) (m : List (List Bool)) (s : State) : (buildGrid bp a b m s).cfg = { w := BitVec.ofNat 28 a, h := BitVec.ofNat 28 b, bp := bp } := rfl
@[simp] theorem buildGrid_prof (bp : Boundary) (a b : Nat) (m : List (List Bool)) (s : State) : (buildGrid bp a b m s).prof = s.prof := rfl
@[simp] theorem buildGrid_err (bp : Boundary) (a b : Nat) (m : List (List Bool)) (s : State) : (buildGrid bp a b m s).err = 0x00 := rfl
@[simp] theorem buildGrid_errChunk (bp : Boundary) (a b : Nat) (m : List (List Bool)) (s : State) : (buildGrid bp a b m s).errChunk = 0 := rfl
@[simp] theorem buildGrid_bufs (bp : Boundary) (a b : Nat) (m : List (List Bool)) (s : State) : (buildGrid bp a b m s).bufs = some { buf0 := buildMemory a m, buf1 := [] } := rfl
@[simp] theorem buildGrid_seq (bp : Boundary) (a b : Nat) (m : List (List Bool)) (s : State) : (buildGrid bp a b m s).seq = s.seq := rfl
@[simp] theorem buildGrid_inbox (bp : Boundary) (a b : Nat) (m : List (List Bool)) (s : State) : (buildGrid bp a b m s).inbox = s.inbox := rfl
@[simp] theorem buildGrid_outstanding (bp : Boundary) (a b : Nat) (m : List (List Bool)) (s : State) : (buildGrid bp a b m s).outstanding = s.outstanding := rfl
@[simp] theorem buildGrid_stream (bp : Boundary) (a b : Nat) (m : List (List Bool)) (s : State) : (buildGrid bp a b m s).stream = s.stream := rfl
@[simp] theorem buildGrid_resp (bp : Boundary) (a b : Nat) (m : List (List Bool)) (s : State) : (buildGrid bp a b m s).resp = s.resp := rfl
@[simp] theorem buildGrid_hw (bp : Boundary) (a b : Nat) (m : List (List Bool)) (s : State) : (buildGrid bp a b m s).hw = s.hw := rfl
@[simp] theorem buildGrid_calDraws (bp : Boundary) (a b : Nat) (m : List (List Bool)) (s : State) : (buildGrid bp a b m s).calDraws = s.calDraws := rfl
@[simp] theorem buildGrid_workerDraws (bp : Boundary) (a b : Nat) (m : List (List Bool)) (s : State) : (buildGrid bp a b m s).workerDraws = s.workerDraws := rfl
@[simp] theorem buildGrid_drawCount (bp : Boundary) (a b : Nat) (m : List (List Bool)) (s : State) : (buildGrid bp a b m s).drawCount = s.drawCount := rfl

/-! ### `dropCalDraw` -/

@[simp] theorem dropCalDraw_state (s : State) : (dropCalDraw s).state = s.state := by unfold dropCalDraw; split <;> rfl
@[simp] theorem dropCalDraw_gen (s : State) : (dropCalDraw s).gen = s.gen := by unfold dropCalDraw; split <;> rfl
@[simp] theorem dropCalDraw_sel (s : State) : (dropCalDraw s).sel = s.sel := by unfold dropCalDraw; split <;> rfl
@[simp] theorem dropCalDraw_cfg (s : State) : (dropCalDraw s).cfg = s.cfg := by unfold dropCalDraw; split <;> rfl
@[simp] theorem dropCalDraw_prof (s : State) : (dropCalDraw s).prof = s.prof := by unfold dropCalDraw; split <;> rfl
@[simp] theorem dropCalDraw_err (s : State) : (dropCalDraw s).err = s.err := by unfold dropCalDraw; split <;> rfl
@[simp] theorem dropCalDraw_errChunk (s : State) : (dropCalDraw s).errChunk = s.errChunk := by unfold dropCalDraw; split <;> rfl
@[simp] theorem dropCalDraw_bufs (s : State) : (dropCalDraw s).bufs = s.bufs := by unfold dropCalDraw; split <;> rfl
@[simp] theorem dropCalDraw_seq (s : State) : (dropCalDraw s).seq = s.seq := by unfold dropCalDraw; split <;> rfl
@[simp] theorem dropCalDraw_inbox (s : State) : (dropCalDraw s).inbox = s.inbox := by unfold dropCalDraw; split <;> rfl
@[simp] theorem dropCalDraw_outstanding (s : State) : (dropCalDraw s).outstanding = s.outstanding := by unfold dropCalDraw; split <;> rfl
@[simp] theorem dropCalDraw_stream (s : State) : (dropCalDraw s).stream = s.stream := by unfold dropCalDraw; split <;> rfl
@[simp] theorem dropCalDraw_resp (s : State) : (dropCalDraw s).resp = s.resp := by unfold dropCalDraw; split <;> rfl
@[simp] theorem dropCalDraw_hw (s : State) : (dropCalDraw s).hw = s.hw := by unfold dropCalDraw; split <;> rfl
@[simp] theorem dropCalDraw_workerDraws (s : State) : (dropCalDraw s).workerDraws = s.workerDraws := by unfold dropCalDraw; split <;> rfl

/-! ### `dropWorkerDraw` -/

@[simp] theorem dropWorkerDraw_state (s : State) : (dropWorkerDraw s).state = s.state := by unfold dropWorkerDraw; split <;> rfl
@[simp] theorem dropWorkerDraw_gen (s : State) : (dropWorkerDraw s).gen = s.gen := by unfold dropWorkerDraw; split <;> rfl
@[simp] theorem dropWorkerDraw_sel (s : State) : (dropWorkerDraw s).sel = s.sel := by unfold dropWorkerDraw; split <;> rfl
@[simp] theorem dropWorkerDraw_cfg (s : State) : (dropWorkerDraw s).cfg = s.cfg := by unfold dropWorkerDraw; split <;> rfl
@[simp] theorem dropWorkerDraw_prof (s : State) : (dropWorkerDraw s).prof = s.prof := by unfold dropWorkerDraw; split <;> rfl
@[simp] theorem dropWorkerDraw_err (s : State) : (dropWorkerDraw s).err = s.err := by unfold dropWorkerDraw; split <;> rfl
@[simp] theorem dropWorkerDraw_errChunk (s : State) : (dropWorkerDraw s).errChunk = s.errChunk := by unfold dropWorkerDraw; split <;> rfl
@[simp] theorem dropWorkerDraw_bufs (s : State) : (dropWorkerDraw s).bufs = s.bufs := by unfold dropWorkerDraw; split <;> rfl
@[simp] theorem dropWorkerDraw_seq (s : State) : (dropWorkerDraw s).seq = s.seq := by unfold dropWorkerDraw; split <;> rfl
@[simp] theorem dropWorkerDraw_inbox (s : State) : (dropWorkerDraw s).inbox = s.inbox := by unfold dropWorkerDraw; split <;> rfl
@[simp] theorem dropWorkerDraw_outstanding (s : State) : (dropWorkerDraw s).outstanding = s.outstanding := by unfold dropWorkerDraw; split <;> rfl
@[simp] theorem dropWorkerDraw_stream (s : State) : (dropWorkerDraw s).stream = s.stream := by unfold dropWorkerDraw; split <;> rfl
@[simp] theorem dropWorkerDraw_resp (s : State) : (dropWorkerDraw s).resp = s.resp := by unfold dropWorkerDraw; split <;> rfl
@[simp] theorem dropWorkerDraw_hw (s : State) : (dropWorkerDraw s).hw = s.hw := by unfold dropWorkerDraw; split <;> rfl
@[simp] theorem dropWorkerDraw_calDraws (s : State) : (dropWorkerDraw s).calDraws = s.calDraws := by unfold dropWorkerDraw; split <;> rfl

/-! ### `detect` -/

@[simp] theorem detect_state (s : State) : (detect s).state = s.state := by simp [detect]
@[simp] theorem detect_gen (s : State) : (detect s).gen = s.gen := by simp [detect]
@[simp] theorem detect_sel (s : State) : (detect s).sel = s.sel := by simp [detect]
@[simp] theorem detect_cfg (s : State) : (detect s).cfg = s.cfg := by simp [detect]
@[simp] theorem detect_prof (s : State) : (detect s).prof = profileOf s.hw.lanes (calDraw s) := rfl
@[simp] theorem detect_err (s : State) : (detect s).err = s.err := by simp [detect]
@[simp] theorem detect_errChunk (s : State) : (detect s).errChunk = s.errChunk := by simp [detect]
@[simp] theorem detect_bufs (s : State) : (detect s).bufs = s.bufs := by simp [detect]
@[simp] theorem detect_seq (s : State) : (detect s).seq = s.seq := by simp [detect]
@[simp] theorem detect_inbox (s : State) : (detect s).inbox = s.inbox := by simp [detect]
@[simp] theorem detect_outstanding (s : State) : (detect s).outstanding = s.outstanding := by simp [detect]
@[simp] theorem detect_stream (s : State) : (detect s).stream = s.stream := by simp [detect]
@[simp] theorem detect_resp (s : State) : (detect s).resp = s.resp := by simp [detect]
@[simp] theorem detect_hw (s : State) : (detect s).hw = s.hw := by simp [detect]
@[simp] theorem detect_workerDraws (s : State) : (detect s).workerDraws = s.workerDraws := by simp [detect]

/-! ### `runPhase` -/

@[simp] theorem runPhase_state (es : List WorkerEvent) (s : State) : (runPhase es s).state = s.state := by unfold runPhase; split <;> rfl
@[simp] theorem runPhase_gen (es : List WorkerEvent) (s : State) : (runPhase es s).gen = s.gen := by unfold runPhase; split <;> rfl
@[simp] theorem runPhase_sel (es : List WorkerEvent) (s : State) : (runPhase es s).sel = s.sel := by unfold runPhase; split <;> rfl
@[simp] theorem runPhase_cfg (es : List WorkerEvent) (s : State) : (runPhase es s).cfg = s.cfg := by unfold runPhase; split <;> rfl
@[simp] theorem runPhase_prof (es : List WorkerEvent) (s : State) : (runPhase es s).prof = s.prof := by unfold runPhase; split <;> rfl
@[simp] theorem runPhase_err (es : List WorkerEvent) (s : State) : (runPhase es s).err = s.err := by unfold runPhase; split <;> rfl
@[simp] theorem runPhase_errChunk (es : List WorkerEvent) (s : State) : (runPhase es s).errChunk = s.errChunk := by unfold runPhase; split <;> rfl
@[simp] theorem runPhase_inbox (es : List WorkerEvent) (s : State) : (runPhase es s).inbox = s.inbox := by unfold runPhase; split <;> rfl
@[simp] theorem runPhase_outstanding (es : List WorkerEvent) (s : State) : (runPhase es s).outstanding = s.outstanding := by unfold runPhase; split <;> rfl
@[simp] theorem runPhase_stream (es : List WorkerEvent) (s : State) : (runPhase es s).stream = s.stream := by unfold runPhase; split <;> rfl
@[simp] theorem runPhase_resp (es : List WorkerEvent) (s : State) : (runPhase es s).resp = s.resp := by unfold runPhase; split <;> rfl
@[simp] theorem runPhase_hw (es : List WorkerEvent) (s : State) : (runPhase es s).hw = s.hw := by unfold runPhase; split <;> rfl
@[simp] theorem runPhase_calDraws (es : List WorkerEvent) (s : State) : (runPhase es s).calDraws = s.calDraws := by unfold runPhase; split <;> rfl
@[simp] theorem runPhase_workerDraws (es : List WorkerEvent) (s : State) : (runPhase es s).workerDraws = s.workerDraws := by unfold runPhase; split <;> rfl
@[simp] theorem runPhase_drawCount (es : List WorkerEvent) (s : State) : (runPhase es s).drawCount = s.drawCount := by unfold runPhase; split <;> rfl

/-! ### `resetInput` -/

@[simp] theorem resetInput_state (s : State) : (resetInput s).state = .uninitialized := rfl
@[simp] theorem resetInput_gen (s : State) : (resetInput s).gen = 0 := rfl
@[simp] theorem resetInput_sel (s : State) : (resetInput s).sel = false := rfl
@[simp] theorem resetInput_cfg (s : State) : (resetInput s).cfg = { w := 0, h := 0, bp := .dead } := rfl
@[simp] theorem resetInput_prof (s : State) : (resetInput s).prof = { l := .x1, fb := false } := rfl
@[simp] theorem resetInput_err (s : State) : (resetInput s).err = 0x00 := rfl
@[simp] theorem resetInput_errChunk (s : State) : (resetInput s).errChunk = 0 := rfl
@[simp] theorem resetInput_bufs (s : State) : (resetInput s).bufs = none := rfl
@[simp] theorem resetInput_seq (s : State) : (resetInput s).seq = none := rfl
@[simp] theorem resetInput_inbox (s : State) : (resetInput s).inbox = s.inbox := rfl
@[simp] theorem resetInput_outstanding (s : State) : (resetInput s).outstanding = none := rfl
@[simp] theorem resetInput_stream (s : State) : (resetInput s).stream = [] := rfl
@[simp] theorem resetInput_resp (s : State) : (resetInput s).resp = none := rfl
@[simp] theorem resetInput_hw (s : State) : (resetInput s).hw = s.hw := rfl
@[simp] theorem resetInput_calDraws (s : State) : (resetInput s).calDraws = s.calDraws := rfl
@[simp] theorem resetInput_workerDraws (s : State) : (resetInput s).workerDraws = s.workerDraws := rfl
@[simp] theorem resetInput_drawCount (s : State) : (resetInput s).drawCount = s.drawCount := rfl

/-! ### The roles of the buffers -/

@[simp] theorem setCurrent_bufs_isSome (m : Memory) (s : State) : (setCurrent m s).bufs.isSome = s.bufs.isSome := by
  simp [setCurrent]

@[simp] theorem setNext_bufs_isSome (m : Memory) (s : State) : (setNext m s).bufs.isSome = s.bufs.isSome := by
  simp [setNext]

theorem currentMemory_setCurrent (m : Memory) (s : State) (h : s.bufs.isSome = true) :
    currentMemory (setCurrent m s) = m := by
  obtain ⟨b, hb⟩ := Option.isSome_iff_exists.1 h
  cases hs : s.sel <;> simp [currentMemory, setCurrent, hb, hs]

theorem nextMemory_setNext (m : Memory) (s : State) (h : s.bufs.isSome = true) : nextMemory (setNext m s) = m := by
  obtain ⟨b, hb⟩ := Option.isSome_iff_exists.1 h
  cases hs : s.sel <;> simp [nextMemory, setNext, hb, hs]

@[simp] theorem nextMemory_setCurrent (m : Memory) (s : State) : nextMemory (setCurrent m s) = nextMemory s := by
  cases hb : s.bufs <;> cases hs : s.sel <;> simp [nextMemory, setCurrent, hb, hs]

@[simp] theorem currentMemory_setNext (m : Memory) (s : State) : currentMemory (setNext m s) = currentMemory s := by
  cases hb : s.bufs <;> cases hs : s.sel <;> simp [currentMemory, setNext, hb, hs]

/-- The roles depend on `SEL` and the buffers only. -/
theorem currentMemory_congr {s t : State} (hb : t.bufs = s.bufs) (hs : t.sel = s.sel) :
    currentMemory t = currentMemory s := by simp [currentMemory, hb, hs]

theorem nextMemory_congr {s t : State} (hb : t.bufs = s.bufs) (hs : t.sel = s.sel) :
    nextMemory t = nextMemory s := by simp [nextMemory, hb, hs]

/-- With `SEL` complemented the roles are exchanged (R131). -/
theorem currentMemory_swapped {s t : State} (hb : t.bufs = s.bufs) (hs : t.sel = !s.sel) :
    currentMemory t = nextMemory s := by
  cases hbb : s.bufs <;> cases hss : s.sel <;> simp [currentMemory, nextMemory, hb, hbb, hs, hss]

theorem nextMemory_swapped {s t : State} (hb : t.bufs = s.bufs) (hs : t.sel = !s.sel) :
    nextMemory t = currentMemory s := by
  cases hbb : s.bufs <;> cases hss : s.sel <;> simp [currentMemory, nextMemory, hb, hbb, hs, hss]

/-- Two states with equal roles and equal `SEL` hold the same buffers. -/
theorem bufs_eq_of_roles {s t : State} (hsel : t.sel = s.sel) (hs : s.bufs.isSome = true) (ht : t.bufs.isSome = true)
    (hc : currentMemory t = currentMemory s) (hn : nextMemory t = nextMemory s) : t.bufs = s.bufs := by
  obtain ⟨b, hb⟩ := Option.isSome_iff_exists.1 hs
  obtain ⟨d, hd⟩ := Option.isSome_iff_exists.1 ht
  rw [hb, hd]
  cases b
  cases d
  cases hss : s.sel <;> simp [currentMemory, nextMemory, hb, hd, hsel, hss] at hc hn <;> simp [hc, hn]

end Sys2Proof.Machine
end

