-- ==== Sys2Proof/Laws/Port.lean ====
section
/-! SUPPORT. The cell channel (R94), the draws, and everything a command and a step of the port can do, said once. -/

namespace Sys2Proof.Machine

open Sys2Proof.Config

/-! ### The cell channel -/

theorem collect_eom (l : List HostAction) : CellSym.eom ∉ (collect l).cells := by
  induction l with
  | nil => simp [collect]
  | cons a t ih =>
    cases a with
    | sym c => cases c <;> simp [collect, ih]
    | rst => simp [collect]
    | accept k => simp [collect, ih]
    | cmd w => simp [collect]
    | cmdHold w k => simp [collect]
    | cmdRst w k => simp [collect]

theorem collect_append_eom {cells : List CellSym} (h : CellSym.eom ∉ cells) (rest : List HostAction) :
    collect (cells.map .sym ++ .sym .eom :: rest) = { cells := cells, ended := true, rest := rest } := by
  induction cells with
  | nil => rfl
  | cons c t ih =>
    have ih := ih (fun hm => h (by simp [hm]))
    cases c with
    | eom => exact absurd (by simp) h
    | cell0 => simp [collect, ih]
    | cell1 => simp [collect, ih]
    | eor => simp [collect, ih]

theorem collect_append {cells : List CellSym} (h : CellSym.eom ∉ cells) (later : List HostAction) :
    collect (cells.map .sym ++ later) =
      { collect later with cells := cells ++ (collect later).cells } := by
  induction cells with
  | nil => rfl
  | cons c t ih =>
    have ih := ih (fun hm => h (by simp [hm]))
    cases c with
    | eom => exact absurd (by simp) h
    | cell0 => simp [collect, ih]
    | cell1 => simp [collect, ih]
    | eor => simp [collect, ih]

theorem parseFrom_cells (rows : List (List Bool)) (row bits : List Bool) (t : List CellSym) :
    parseFrom rows row (bits.map (fun b => if b then .cell1 else .cell0) ++ t) = parseFrom rows (row ++ bits) t := by
  induction bits generalizing row with
  | nil => simp
  | cons b bs ih => cases b <;> simp [parseFrom, ih]

theorem parseFrom_rows (rows m : List (List Bool)) (t : List CellSym) :
    parseFrom rows [] (m.flatMap rowStream ++ t) = parseFrom (rows ++ m) [] t := by
  induction m generalizing rows with
  | nil => simp
  | cons r m ih =>
    simp only [List.flatMap_cons, List.append_assoc, rowStream]
    rw [parseFrom_cells]
    simp [parseFrom, ih]

theorem eom_not_mem_rows (m : List (List Bool)) : CellSym.eom ∉ m.flatMap rowStream := by
  simp only [List.mem_flatMap, rowStream, List.mem_append, List.mem_map, List.mem_singleton, not_exists, not_and, not_or]
  intro r _
  refine ⟨fun b _ => by cases b <;> simp, by simp⟩

theorem validMatrix_iff {cap : Option Nat} {a b : Nat} {m : List (List Bool)} {tr : Bool} :
    validMatrix cap a b m tr = true ↔
      a ≠ 0 ∧ b ≠ 0 ∧ m.length = b ∧ (∀ row ∈ m, row.length = a) ∧ tr = false ∧ fitsCapacity cap a b = true := by
  unfold validMatrix
  simp [and_assoc]

/-! ### Construction -/

theorem dropCalDraw_eq (s : State) :
    dropCalDraw s = { s with calDraws := (dropCalDraw s).calDraws, drawCount := (dropCalDraw s).drawCount } := by
  unfold dropCalDraw; split <;> rfl

theorem calDraw_congr {s t : State} (h1 : t.calDraws = s.calDraws) (h2 : t.drawCount = s.drawCount) :
    calDraw t = calDraw s ∧ (dropCalDraw t).calDraws = (dropCalDraw s).calDraws ∧
      (dropCalDraw t).drawCount = (dropCalDraw s).drawCount := by
  unfold calDraw dropCalDraw
  rw [h1, h2]
  cases h : s.calDraws <;> simp_all

theorem statusWord_congr {s t : State} (h1 : t.errChunk = s.errChunk) (h2 : t.err = s.err) (h3 : t.prof = s.prof)
    (h4 : t.cfg.bp = s.cfg.bp) (h5 : t.state = s.state) : statusWord t = statusWord s := by
  unfold statusWord; rw [h1, h2, h3, h4, h5]

/-- The grid state of a successful `NEW.*` (R121 steps 2 to 7), field by field. -/
theorem construct_eq (bp : Boundary) (a b : Nat) (m : List (List Bool)) (s : State) :
    construct bp a b m s =
      { s with
        state := .ready, gen := 0, sel := false,
        cfg := { w := BitVec.ofNat 28 a, h := BitVec.ofNat 28 b, bp := bp },
        prof := profileOf s.hw.lanes (calDraw s), err := 0x00, errChunk := 0,
        bufs := some { buf0 := buildMemory a m, buf1 := [] },
        calDraws := (dropCalDraw s).calDraws, drawCount := (dropCalDraw s).drawCount } := by
  obtain ⟨h1, h2, h3⟩ := calDraw_congr (s := s) (t := setState .calibrating (buildGrid bp a b m s)) rfl rfl
  unfold construct detect
  rw [dropCalDraw_eq, h1, h2, h3]
  rfl

theorem newGrid_ended {i : Instr} {bp : Boundary} {a b : Nat} {s : State} {cells : List CellSym}
    {rest : List HostAction} (ho : s.outstanding = none) (hin : s.inbox = cells.map .sym ++ .sym .eom :: rest)
    (he : CellSym.eom ∉ cells) :
    newGrid i bp a b s = newEnded i bp a b cells { s with inbox := rest } := by
  unfold newGrid
  rw [hin, collect_append_eom he]
  simp only [if_true, receivedCells, ho, List.nil_append]

theorem mem_laneList_profileOf (ls : LaneSet) (d : CalDraw) :
    (profileOf ls d).l ∈ laneList ls ∧ ((profileOf ls d).fb = true → (profileOf ls d).l = .x1) := by
  unfold profileOf
  split
  · exact ⟨by simp [laneList], fun _ => rfl⟩
  · refine ⟨?_, fun h => by cases h⟩
    unfold bestLane
    have hpos : 0 < (laneList ls).length := by simp [laneList]
    have hlt := Nat.mod_lt d.pick hpos
    rw [List.getElem?_eq_getElem hlt]
    exact List.getElem_mem _

/-! ### What a command can do -/

/-- Nothing is written but the fields of the host port. -/
def OnlyPort (s t : State) : Prop :=
  t = { s with inbox := t.inbox, outstanding := t.outstanding, stream := t.stream, resp := t.resp }

theorem OnlyPort.same {s t : State} (h : OnlyPort s t) :
    t.state = s.state ∧ t.gen = s.gen ∧ t.sel = s.sel ∧ t.cfg = s.cfg ∧ t.prof = s.prof ∧ t.err = s.err ∧
      t.errChunk = s.errChunk ∧ t.bufs = s.bufs ∧ t.seq = s.seq ∧ t.hw = s.hw ∧ t.calDraws = s.calDraws ∧
      t.workerDraws = s.workerDraws ∧ t.drawCount = s.drawCount := by
  rw [OnlyPort] at h
  rw [h]
  exact ⟨rfl, rfl, rfl, rfl, rfl, rfl, rfl, rfl, rfl, rfl, rfl, rfl, rfl⟩

/-- What a `NEW.*` can do (R121, R124, R240; R94 while the stream has not ended). -/
theorem newGrid_cases (i : Instr) (bp : Boundary) (a b : Nat) (s : State) :
    (OnlyPort s (newGrid i bp a b s) ∧ (newGrid i bp a b s).resp = none ∧
      (newGrid i bp a b s).outstanding = some { instr := i, cells := receivedCells s ++ (collect s.inbox).cells }) ∨
    (OnlyPort s (newGrid i bp a b s) ∧ (newGrid i bp a b s).resp = some { code := 0x04, data := 0 } ∧
      (newGrid i bp a b s).outstanding = none) ∨
    (accepts i s.state = true ∧ newGrid i bp a b s = raise .configuration { s with inbox := (collect s.inbox).rest }) ∨
    (accepts i s.state = true ∧ ∃ m,
      validMatrix s.hw.cap a b m false = true ∧
      newGrid i bp a b s = respondStatus (construct bp a b m { s with inbox := (collect s.inbox).rest })) := by
  unfold newGrid
  split
  · unfold newEnded
    split
    · rename_i hacc
      split
      · rename_i hv
        right; right; right
        refine ⟨hacc, _, ?_, rfl⟩
        have : (parseCells (receivedCells s ++ (collect s.inbox).cells)).2 = false := by
          unfold validMatrix at hv
          simp only [Bool.and_eq_true, Bool.not_eq_true'] at hv
          exact hv.1.2
        rwa [this] at hv
      · exact .inr (.inr (.inl ⟨hacc, rfl⟩))
    · exact .inr (.inl ⟨rfl, rfl, rfl⟩)
  · exact .inl ⟨rfl, rfl, rfl⟩

/-- Everything a command that gives a next state can have done. -/
inductive Effect (i : Instr) (s t : State) : Prop where
  /-- It answered and wrote no register: a read, or a refusal. -/
  | answered (hp : OnlyPort s t) (ho : t.outstanding = none)
      (hr : ∃ r, t.resp = some r ∧ (r.code = 0x00 ∨ ((r.code = 0x04 ∨ r.code = 0x05) ∧ r.data = 0)))
  /-- A `NEW.*` waits for the rest of its stream (R94). -/
  | waits (hp : OnlyPort s t) (hr : t.resp = none) (hi : ∃ w h, i = .newDead w h ∨ i = .newTorus w h)
      (ho : t.outstanding = some { instr := i, cells := receivedCells s ++ (collect s.inbox).cells })
  /-- A `NEW.*` of a matrix that is not valid (R124, R232). -/
  | malformed (hs : s.state = .uninitialized)
      (ht : t = raise .configuration { s with inbox := (collect s.inbox).rest })
  /-- A `NEW.*` that succeeds (R121). -/
  | built (hs : s.state = .uninitialized) (a b : Nat) (bp : Boundary) (m : List (List Bool))
      (hi : i = .newDead a b ∨ i = .newTorus a b) (hv : validMatrix s.hw.cap a b m false = true)
      (ht : t = respondStatus (construct bp a b m { s with inbox := (collect s.inbox).rest }))
  /-- A `STEP` that runs (R203, R204). -/
  | stepped (hi : i = .step) (hs : s.state = .ready) (hg : s.gen ≠ BitVec.allOnes 64) (hb : s.bufs.isSome = true)
      (ht : t = stepGrid s)

theorem newGrid_effect {i : Instr} {bp : Boundary} {a b : Nat} {s t : State}
    (hi : i = .newDead a b ∨ i = .newTorus a b) (ht : newGrid i bp a b s = t) : Effect i s t := by
  have hacc : accepts i s.state = true → s.state = .uninitialized := by
    rcases hi with rfl | rfl <;> exact fun h => by simpa [accepts] using h
  have hc := newGrid_cases i bp a b s
  rw [ht] at hc
  rcases hc with ⟨h1, h2, h3⟩ | ⟨h1, h2, h3⟩ | ⟨h1, h2⟩ | ⟨h1, m, h2, h3⟩
  · exact .waits h1 h2 ⟨a, b, hi⟩ h3
  · exact .answered h1 h3 ⟨_, h2, .inr ⟨.inl rfl, rfl⟩⟩
  · exact .malformed (hacc h1) h2
  · exact .built (hacc h1) a b bp m hi h2 h3

theorem exec_effect {i : Instr} {s t : State} (h : exec i s = .next t) : Effect i s t := by
  cases i with
  | newDead a b => exact newGrid_effect (.inl rfl) (Host.Outcome.next.inj h)
  | newTorus a b => exact newGrid_effect (.inr rfl) (Host.Outcome.next.inj h)
  | step =>
    replace h : execStep s = .next t := h
    unfold execStep at h
    split at h
    · rename_i hacc
      have hr : s.state = .ready := by simpa [accepts] using hacc
      split at h
      · cases h
      · rename_i hg
        unfold withBuffers at h
        split at h
        · cases h
        · rename_i b hb
          exact .stepped rfl hr hg (by rw [hb]; rfl) (Host.Outcome.next.inj h).symm
    · obtain rfl := Host.Outcome.next.inj h
      exact .answered rfl rfl ⟨_, rfl, .inr ⟨.inl rfl, rfl⟩⟩
  | getCell x y =>
    replace h : execGetCell x y s = .next t := h
    unfold execGetCell withBuffers answerCell at h
    split at h
    · split at h
      · cases h
      · split at h
        · obtain rfl := Host.Outcome.next.inj h; exact .answered rfl rfl ⟨_, rfl, .inr ⟨.inr rfl, rfl⟩⟩
        · obtain rfl := Host.Outcome.next.inj h; exact .answered rfl rfl ⟨_, rfl, .inl rfl⟩
    · obtain rfl := Host.Outcome.next.inj h; exact .answered rfl rfl ⟨_, rfl, .inr ⟨.inl rfl, rfl⟩⟩
  | live =>
    replace h : execLive s = .next t := h
    unfold execLive withBuffers answerLive at h
    split at h
    · split at h
      · cases h
      · obtain rfl := Host.Outcome.next.inj h; exact .answered rfl rfl ⟨_, rfl, .inl rfl⟩
    · obtain rfl := Host.Outcome.next.inj h; exact .answered rfl rfl ⟨_, rfl, .inr ⟨.inl rfl, rfl⟩⟩
  | getGen =>
    replace h : execGetGen s = .next t := h
    unfold execGetGen at h
    split at h
    · obtain rfl := Host.Outcome.next.inj h; exact .answered rfl rfl ⟨_, rfl, .inl rfl⟩
    · obtain rfl := Host.Outcome.next.inj h; exact .answered rfl rfl ⟨_, rfl, .inr ⟨.inl rfl, rfl⟩⟩
  | status =>
    replace h : execStatus s = .next t := h
    unfold execStatus at h
    split at h
    · obtain rfl := Host.Outcome.next.inj h; exact .answered rfl rfl ⟨_, rfl, .inl rfl⟩
    · obtain rfl := Host.Outcome.next.inj h; exact .answered rfl rfl ⟨_, rfl, .inr ⟨.inl rfl, rfl⟩⟩

/-! ### The coordinate stream (R95, R268) -/

/-- Only a `LIVE` that runs emits words (R95). -/
theorem exec_stream_cases {i : Instr} {s t : State} (h : exec i s = .next t) :
    t.stream = [] ∨
      (i = .live ∧ (s.state = .ready ∨ s.state = .terminated) ∧ s.bufs.isSome = true ∧ t = answerLive s) := by
  have hnew : ∀ bp a b, (newGrid i bp a b s).stream = [] := by
    intro bp a b
    unfold newGrid newEnded
    split
    · split
      · split <;> rfl
      · rfl
    · rfl
  cases i with
  | newDead a b => exact .inl (Host.Outcome.next.inj h ▸ hnew _ _ _)
  | newTorus a b => exact .inl (Host.Outcome.next.inj h ▸ hnew _ _ _)
  | step =>
    replace h : execStep s = .next t := h
    unfold execStep withBuffers at h
    split at h
    · split at h
      · cases h
      · split at h
        · cases h
        · cases h
          unfold stepGrid commit
          split <;> exact .inl (by simp)
    · cases h; exact .inl rfl
  | getCell x y =>
    replace h : execGetCell x y s = .next t := h
    unfold execGetCell withBuffers answerCell at h
    split at h
    · split at h
      · cases h
      · split at h <;> cases h <;> exact .inl rfl
    · cases h; exact .inl rfl
  | live =>
    replace h : execLive s = .next t := h
    unfold execLive withBuffers at h
    split at h
    · rename_i hacc
      split at h
      · cases h
      · rename_i b hb
        exact .inr ⟨rfl, by simpa [accepts] using hacc, by rw [hb]; rfl, (Host.Outcome.next.inj h).symm⟩
    · cases h; exact .inl rfl
  | getGen =>
    replace h : execGetGen s = .next t := h
    unfold execGetGen at h
    split at h <;> cases h <;> exact .inl rfl
  | status =>
    replace h : execStatus s = .next t := h
    unfold execStatus at h
    split at h <;> cases h <;> exact .inl rfl

theorem exec_live {s : State} (hs : s.state = .ready ∨ s.state = .terminated) (hb : s.bufs.isSome = true) :
    exec .live s = .next (answerLive s) := by
  obtain ⟨b, hb⟩ := Option.isSome_iff_exists.1 hb
  show execLive s = _
  unfold execLive withBuffers
  rw [if_pos (by rcases hs with h | h <;> rw [h] <;> rfl), hb]

/-- A command in `s` goes on to `t`: it runs whole, or it is a `LIVE` of which the host accepted `n` words (R268). -/
inductive Ran (i : Instr) (s t : State) : Prop where
  | whole (h : exec i s = .next t)
  | held (n : Nat) (hi : i = .live) (hs : s.state = .ready ∨ s.state = .terminated) (hb : s.bufs.isSome = true)
      (hn : n < (liveStream s).length) (ht : t = holdStream .live n (answerLive s))

/-- A held command writes no register (R126). -/
theorem holdStream_onlyPort (i : Instr) (n : Nat) (s : State) : OnlyPort s (holdStream i n (answerLive s)) := rfl

theorem ran_of_acceptWords {i : Instr} {n : Nat} {s t : State} (h : acceptWords i n (exec i s) = .next t) :
    Ran i s t := by
  unfold acceptWords at h
  split at h
  · rename_i u hu
    split at h
    · rename_i hn
      rcases exec_stream_cases hu with h0 | ⟨rfl, hs, hb, rfl⟩
      · rw [h0] at hn; exact absurd hn (Nat.not_lt_zero _)
      · exact .held n rfl hs hb hn (Host.Outcome.next.inj h).symm
    · rw [← Host.Outcome.next.inj h]; exact .whole hu
  · cases h
  · cases h

/-- A command without a stream is not held (R268). -/
theorem acceptWords_whole {i : Instr} (hi : i ≠ .live) (n : Nat) (s : State) :
    acceptWords i n (exec i s) = exec i s := by
  unfold acceptWords
  cases h : exec i s with
  | next u =>
    rcases exec_stream_cases h with h0 | ⟨h0, _⟩
    · simp [h0]
    · exact absurd h0 hi
  | fault f => rfl
  | refused r => rfl

theorem emitsStream_iff {i : Instr} : emitsStream i = true ↔ i = .live := by cases i <;> simp [emitsStream]

/-! ### What a step can do -/

/-- What a step that is not a reset can be (R90, R240, R268): nothing moves but a ready host, an illegal word is
answered, a command goes on with its word, with its cells, or with the host's acceptance of its words. -/
inductive StepCase (s t : State) : Prop where
  | waits (ht : t = { s with inbox := t.inbox })
      (ho : (s.outstanding = none ∧ ∀ a rest, s.inbox = a :: rest → commandWord a = none) ∨
        ∃ o, s.outstanding = some o ∧ o.instr = .live)
  | illegal (a : HostAction) (c : Word) (rest : List HostAction) (r : Illegal) (ho : s.outstanding = none)
      (hin : s.inbox = a :: rest) (hc : commandWord a = some c) (hd : decode c = .illegal r)
      (ht : t = raise .illegalCommand { s with inbox := rest })
  | command (a : HostAction) (c : Word) (rest : List HostAction) (i : Instr) (ho : s.outstanding = none)
      (hin : s.inbox = a :: rest) (hc : commandWord a = some c) (hd : decode c = .instr i)
      (ht : Ran i { s with inbox := rest } t)
  | cells (o : Outstanding) (ho : s.outstanding = some o) (hi : o.instr ≠ .live) (ht : exec o.instr s = .next t)
  | words (o : Outstanding) (k : Nat) (rest : List HostAction) (ho : s.outstanding = some o) (hi : o.instr = .live)
      (hin : s.inbox = .accept k :: rest) (ht : Ran .live { s with inbox := rest } t)

theorem step_cases {s t : State} (hr : noReset s = true) (h : step s = .next t) : StepCase s t := by
  unfold step portStep at h
  unfold noReset at hr
  cases ho : s.outstanding with
  | none =>
    rw [ho] at h
    dsimp only at h
    unfold takeAction at h
    cases hi : s.inbox with
    | nil =>
      rw [hi] at h
      obtain rfl := Host.Outcome.next.inj h
      exact .waits rfl (.inl ⟨ho, by simp [hi]⟩)
    | cons a rest =>
      rw [hi] at h hr
      cases a with
      | rst => cases hr
      | cmdRst w k => cases hr
      | sym c => cases h
      | accept k =>
        obtain rfl := Host.Outcome.next.inj h
        exact .waits rfl (.inl ⟨ho, by rw [hi]; rintro a r h; cases h; rfl⟩)
      | cmd w =>
        dsimp only at h
        unfold takeCommand at h
        cases hd : decode w with
        | illegal r => rw [hd] at h; exact .illegal _ w rest r ho hi rfl hd (Host.Outcome.next.inj h).symm
        | instr i => rw [hd] at h; exact .command _ w rest i ho hi rfl hd (.whole h)
      | cmdHold w k =>
        dsimp only at h
        unfold takeCommandHeld at h
        cases hd : decode w with
        | illegal r => rw [hd] at h; exact .illegal _ w rest r ho hi rfl hd (Host.Outcome.next.inj h).symm
        | instr i => rw [hd] at h; exact .command _ w rest i ho hi rfl hd (ran_of_acceptWords h)
  | some o =>
    rw [ho] at h
    dsimp only at h
    by_cases hl : o.instr = .live
    · rw [if_pos (emitsStream_iff.2 hl)] at h
      have hwait : ∀ u, (.next s : Host.Outcome State Fault Refusal) = .next u → StepCase s u := by
        intro u h
        obtain rfl := Host.Outcome.next.inj h
        exact .waits rfl (.inr ⟨o, ho, hl⟩)
      unfold takeStalled at h
      cases hi : s.inbox with
      | nil => rw [hi] at h; exact hwait _ h
      | cons a rest =>
        rw [hi] at h hr
        cases a with
        | rst => cases hr
        | cmdRst w k => cases hr
        | sym c => cases h
        | cmd w => exact hwait _ h
        | cmdHold w k => exact hwait _ h
        | accept k => exact .words o k rest ho hl hi (hl ▸ ran_of_acceptWords h)
    · rw [if_neg (fun h => hl (emitsStream_iff.1 h))] at h
      unfold takeOutstanding at h
      refine .cells o ho hl ?_
      cases hi : s.inbox with
      | nil => rw [hi] at h; exact h
      | cons a rest =>
        rw [hi] at h hr
        cases a with
        | rst => cases hr
        | cmdRst w k => cases hr
        | accept k => exact h
        | sym c => exact h
        | cmd w => exact h
        | cmdHold w k => exact h

/-- A step that is a reset (R260, R261). -/
theorem step_reset {s t : State} (hr : noReset s = false) (h : step s = .next t) :
    ∃ rest ws, t = emit ws (resetInput { s with inbox := rest }) := by
  unfold step portStep at h
  unfold noReset at hr
  cases hi : s.inbox with
  | nil => rw [hi] at hr; cases hr
  | cons a rest =>
    rw [hi] at hr
    cases ho : s.outstanding <;> rw [ho] at h <;> dsimp only at h <;> (try split at h) <;>
      simp only [takeAction, takeOutstanding, takeStalled, hi] at h <;> rw [← ho] <;> cases a <;>
      first
        | (obtain rfl := Host.Outcome.next.inj h; exact ⟨rest, [], rfl⟩)
        | (obtain rfl := Host.Outcome.next.inj h; exact ⟨rest, _, rfl⟩)
        | exact absurd (show true = false from hr) (by decide)

end Sys2Proof.Machine
end

