-- ==== Sys2Proof/Laws/Reads.lean ====
section
/-! SUPPORT. What the commands that read answer, in terms of the cells (R125, R126). -/

namespace Sys2Proof.Machine

open Sys2Proof.Config

theorem accepts_read {st : EngineState} (h : st = .ready ∨ st = .terminated) (x y : Nat) :
    accepts (.getCell x y) st = true ∧ accepts .live st = true ∧ accepts .getGen st = true := by
  rcases h with rfl | rfl <;> exact ⟨rfl, rfl, rfl⟩

theorem mem_liveCells (s : State) (x y : Nat) :
    (x, y) ∈ liveCells s ↔ x < width s.cfg ∧ y < height s.cfg ∧ cell s x y = true := by
  unfold liveCells liveRow
  simp only [List.mem_flatMap, List.mem_range, List.mem_map, List.mem_filter, Prod.mk.injEq]
  constructor
  · rintro ⟨y', hy, x', ⟨hx, hc⟩, rfl, rfl⟩; exact ⟨hx, hy, hc⟩
  · rintro ⟨hx, hy, hc⟩; exact ⟨y, hy, x, ⟨hx, hc⟩, rfl, rfl⟩

theorem liveCells_sorted (s : State) :
    (liveCells s).Pairwise (fun p q => p.2 < q.2 ∨ (p.2 = q.2 ∧ p.1 < q.1)) := by
  unfold liveCells
  rw [List.pairwise_flatMap]
  constructor
  · intro y _
    unfold liveRow
    rw [List.pairwise_map]
    exact (List.Pairwise.filter _ List.pairwise_lt_range).imp (fun h => .inr ⟨rfl, h⟩)
  · refine List.pairwise_lt_range.imp ?_
    intro y y' hlt p hp q hq
    unfold liveRow at hp hq
    obtain ⟨x, _, rfl⟩ := List.mem_map.1 hp
    obtain ⟨x', _, rfl⟩ := List.mem_map.1 hq
    exact .inl hlt

theorem cell_congr {s t : State}
    (hcur : ∀ R C, interior (width s.cfg) (height s.cfg) R C = true → cur t R C = cur s R C) {x y : Nat}
    (hx : x < width s.cfg) (hy : y < height s.cfg) : cell t x y = cell s x y := by
  have := hcur (y + 1) (x / 64 + 1) (interior_iff.2 ⟨by omega, by omega, by omega, dataColumn_lt hx⟩)
  unfold cur at this
  unfold cell cellIn
  rw [this]

theorem liveCells_congr {s t : State} (hcfg : t.cfg = s.cfg)
    (hcell : ∀ x y, x < width s.cfg → y < height s.cfg → cell t x y = cell s x y) : liveCells t = liveCells s := by
  unfold liveCells
  rw [hcfg]
  apply List.flatMap_congr
  intro y hy
  unfold liveRow
  rw [hcfg]
  congr 1
  apply List.filter_congr
  intro x hx
  exact hcell x y (List.mem_range.1 hx) (List.mem_range.1 hy)

theorem sameReads_of_cells {s t : State} (hs : s.state = .ready ∨ s.state = .terminated)
    (ht : t.state = .ready ∨ t.state = .terminated) (hb : t.bufs.isSome = s.bufs.isSome) (hcfg : t.cfg = s.cfg)
    (hgen : t.gen = s.gen)
    (hcell : ∀ x y, x < width s.cfg → y < height s.cfg → cell t x y = cell s x y) : SameReads s t := by
  have key : ∀ a b : State, (s.bufs.isSome = true → answer (.next a) = answer (.next b)) →
      answer (withBuffers s a) = answer (withBuffers t b) := by
    intro a b hab
    unfold withBuffers
    cases h1 : s.bufs <;> cases h2 : t.bufs <;> simp only [h1, h2, Option.isSome_none, Option.isSome_some] at hb ⊢ <;>
      first | exact hab (by rw [h1]; rfl) | cases hb
  refine ⟨fun x y => ?_, ?_, ?_⟩
  · show answer (execGetCell x y s) = answer (execGetCell x y t)
    unfold execGetCell
    rw [if_pos (accepts_read hs x y).1, if_pos (accepts_read ht x y).1]
    apply key
    intro _
    unfold answerCell
    rw [hcfg]
    split
    · rfl
    · rename_i h
      rw [hcell x y (by omega) (by omega)]; rfl
  · show answer (execLive s) = answer (execLive t)
    unfold execLive
    rw [if_pos (accepts_read hs 0 0).2.1, if_pos (accepts_read ht 0 0).2.1]
    apply key
    intro _
    unfold answerLive liveStream
    rw [liveCells_congr hcfg hcell]
    rfl
  · show answer (execGetGen s) = answer (execGetGen t)
    unfold execGetGen
    rw [if_pos (accepts_read hs 0 0).2.2, if_pos (accepts_read ht 0 0).2.2, hgen]
    rfl

end Sys2Proof.Machine
end

