-- ==== Sys2Proof/Laws/Step.lean ====
section
/-! SUPPORT. What a `STEP` leaves at the join and after its commit (R203, R204), as one record update each. -/

namespace Sys2Proof.Machine

open Sys2Proof.Config

theorem ghost_bufs_isSome (s : State) : (ghost s).bufs.isSome = s.bufs.isSome := setCurrent_bufs_isSome _ _

theorem currentMemory_ghost {s : State} (h : s.bufs.isSome = true) :
    currentMemory (ghost s) = ghostMemory s.cfg (currentMemory s) := currentMemory_setCurrent _ _ h

theorem nextMemory_ghost (s : State) : nextMemory (ghost s) = nextMemory s := nextMemory_setCurrent _ _

theorem cur_ghost {s : State} (hs : s.bufs.isSome = true) (R C : Nat) :
    cur (ghost s) R C = rd (width s.cfg) (ghostMemory s.cfg (currentMemory s)) R C := by
  unfold cur; rw [currentMemory_ghost hs]; rfl

theorem rd_ghost_interior {s : State} {R C : Nat} (hi : interior (width s.cfg) (height s.cfg) R C = true) :
    rd (width s.cfg) (ghostMemory s.cfg (currentMemory s)) R C = cur s R C := by
  obtain ⟨h1, h2, h3, h4⟩ := interior_iff.1 hi
  exact rd_ghostMemory_inner _ (by unfold wordsPerRow; omega) (by omega) (by omega) (by omega) (by unfold wordsPerRow; omega)

/-- What the workers read while a `STEP` from `s` runs: `current` after `GHOST`. -/
def stepView (s : State) : WorkerView :=
  { width := width s.cfg, lane := laneNat s.prof.l, planes := s.hw.planes,
    current := ghostMemory s.cfg (currentMemory s) }

/-- `next` and the worker registers at the join of a `STEP` from `s`. -/
def stepRun (es : List WorkerEvent) (s : State) : Running :=
  runTasks (stepView s) es
    { next := nextMemory s, workers := freshWorkers (dataWords (width s.cfg)) (height s.cfg) s.hw.workers }

/-- The state at the join: `GHOST` ran on `current`, the tasks ran on `next` (R203 steps 1 to 4). -/
theorem stepToJoin_eq (es : List WorkerEvent) (s : State) (h : s.bufs.isSome = true) :
    stepToJoin es s =
      { setNext (stepRun es s).next (ghost s) with
        state := .stepping, seq := some { phase := .joined, workers := (stepRun es s).workers } } := by
  have h1 : workerView (setPhase .running (partition (ghost (enterStepping s)))) = stepView s := by
    show WorkerView.mk _ _ _ (currentMemory (ghost (enterStepping s))) = _
    rw [currentMemory_ghost (s := enterStepping s) h]
    rfl
  have h2 : nextMemory (setPhase .running (partition (ghost (enterStepping s)))) = nextMemory s :=
    nextMemory_ghost (enterStepping s)
  unfold stepToJoin
  unfold runPhase
  simp only [h1, h2]
  rfl

theorem dropWorkerDraw_cases (s : State) :
    dropWorkerDraw s = { s with workerDraws := (dropWorkerDraw s).workerDraws, drawCount := (dropWorkerDraw s).drawCount } := by
  unfold dropWorkerDraw; split <;> rfl

theorem stepRun_drop (es : List WorkerEvent) (s : State) : stepRun es (dropWorkerDraw s) = stepRun es s := by
  rw [dropWorkerDraw_cases]; rfl

/-- Where every task of a `STEP` has ended: the schedule-independent facts at the join. -/
theorem stepRun_spec (es : List WorkerEvent) (s : State) (hn : (nextMemory s).wf = true) :
    RunInv (stepView s) (nextMemory s) (height s.cfg) s.hw.workers (stepRun es s) ∧
    ∀ c, c < s.hw.workers → ∃ q, (stepRun es s).workers[c]? = some q ∧ q.done = true ∧
      (.fail c ∉ es → q.fail = false) ∧ (.fail c ∈ es → .finish c ∉ es → q.fail = true) :=
  runTasks_spec (v := stepView s) (laneNat_pos _) hn es

/-! ### The worker registers do not depend on what the buffers hold -/

theorem workerEvent_regs_congr (v v' : WorkerView) (k k' : Running) (e : WorkerEvent) (hw : v'.width = v.width)
    (hl : v'.lane = v.lane) (hk : k'.workers = k.workers) :
    (workerEvent v' k' e).workers = (workerEvent v k e).workers := by
  have hs : ∀ p, batchStarts v' p = batchStarts v p := fun p => by unfold batchStarts; rw [hw, hl]
  have hr : ∀ p, runLength v' p = runLength v p := fun p => by unfold runLength; rw [hw, hl]
  cases e with
  | batch c n =>
    simp only [workerEvent, hk]
    cases k.workers[c]? with
    | none => exact hk
    | some q =>
      simp only [hs]
      split
      · exact hk
      · cases (batchStarts v q.pend)[n]? with
        | none => exact hk
        | some p => simp [takeBatch, hr, hk]
  | fail c =>
    simp only [workerEvent, hk]
    cases k.workers[c]? with
    | none => exact hk
    | some q => dsimp only; split <;> simp [hk]
  | finish c =>
    simp only [workerEvent, hk]
    cases k.workers[c]? with
    | none => exact hk
    | some q => dsimp only; split <;> simp [hk]

theorem runEvents_regs_congr (v v' : WorkerView) (k k' : Running) (es : List WorkerEvent) (hw : v'.width = v.width)
    (hl : v'.lane = v.lane) (hk : k'.workers = k.workers) :
    (runEvents v' es k').workers = (runEvents v es k).workers := by
  induction es generalizing k k' with
  | nil => exact hk
  | cons e es ih => exact ih _ _ (workerEvent_regs_congr v v' k k' e hw hl hk)

theorem completeAll_regs_congr (v v' : WorkerView) (k k' : Running) (hw : v'.width = v.width) (hl : v'.lane = v.lane)
    (hk : k'.workers = k.workers) : (completeAll v' k').workers = (completeAll v k).workers := by
  have key : ∀ (cs : List Nat) (k k' : Running), k'.workers = k.workers →
      (cs.foldl (completeWorker v') k').workers = (cs.foldl (completeWorker v) k).workers := by
    intro cs
    induction cs with
    | nil => exact fun _ _ h => h
    | cons c cs ih =>
      intro k k' hk
      refine ih _ _ ?_
      unfold completeWorker
      rw [show pendingWords k' c = pendingWords k c by simp [pendingWords, hk]]
      exact runEvents_regs_congr v v' k k' _ hw hl hk
  unfold completeAll
  rw [hk]
  exact key _ _ _ hk

theorem runTasks_regs_congr (v v' : WorkerView) (k k' : Running) (es : List WorkerEvent) (hw : v'.width = v.width)
    (hl : v'.lane = v.lane) (hk : k'.workers = k.workers) :
    (runTasks v' es k').workers = (runTasks v es k).workers :=
  completeAll_regs_congr v v' _ _ hw hl (runEvents_regs_congr v v' k k' es hw hl hk)

/-- At the join of any `STEP`: every task has ended, one that did not fail has no word left, `FAIL[c] = 0` where no
`fail c` was drawn, `FAIL[c] = 1` where one was drawn and no `finish c` (R202, R236). -/
theorem join_workers (v : WorkerView) (hl : 1 ≤ v.lane) (m : Memory) (h t : Nat) (es : List WorkerEvent) :
    (runTasks v es { next := m, workers := freshWorkers (dataWords v.width) h t }).workers.length = t ∧
    ∀ c, c < t → ∃ q,
      (runTasks v es { next := m, workers := freshWorkers (dataWords v.width) h t }).workers[c]? = some q ∧
      q.done = true ∧ (q.fail = false → q.pend = []) ∧
      (.fail c ∉ es → q.fail = false) ∧ (.fail c ∈ es → .finish c ∉ es → q.fail = true) := by
  obtain ⟨hI, hW⟩ := runTasks_spec (v := v) (h := h) (t := t) (base := []) hl rfl es
  rw [runTasks_regs_congr v v { next := [], workers := freshWorkers (dataWords v.width) h t }
    { next := m, workers := freshWorkers (dataWords v.width) h t } es rfl rfl rfl]
  refine ⟨hI.count, fun c hc => ?_⟩
  obtain ⟨q, hq, hd, h1, h2⟩ := hW c hc
  refine ⟨q, hq, hd, fun hf => ?_, h1, h2⟩
  rcases (hI.workers c q hq).ended hd with h | h
  · rw [hf] at h; cases h
  · exact h

theorem stepRun_workers (es : List WorkerEvent) (s : State) :
    (stepRun es s).workers.length = s.hw.workers ∧
    ∀ c, c < s.hw.workers → ∃ q, (stepRun es s).workers[c]? = some q ∧ q.done = true ∧ (q.fail = false → q.pend = []) ∧
      (.fail c ∉ es → q.fail = false) ∧ (.fail c ∈ es → .finish c ∉ es → q.fail = true) :=
  join_workers (stepView s) (laneNat_pos _) _ _ _ es

theorem joinWorkers_eq {s : State} (es : List WorkerEvent) (h : s.bufs.isSome = true) :
    joinWorkers es s = (stepRun es s).workers := by
  unfold joinWorkers
  rw [stepToJoin_eq es s h]

/-- The worker registers at the join of any `STEP` (R202, R204, R236). -/
theorem joinWorkers_spec (es : List WorkerEvent) (s : State) :
    (joinWorkers es s).length = s.hw.workers ∧
    ∀ c, c < s.hw.workers → ∃ q, (joinWorkers es s)[c]? = some q ∧ q.done = true ∧ (q.fail = false → q.pend = []) ∧
      (.fail c ∉ es → q.fail = false) ∧ (.fail c ∈ es → .finish c ∉ es → q.fail = true) := by
  have h : nextMemory (setPhase .running (partition (ghost (enterStepping s)))) = nextMemory s :=
    nextMemory_ghost (enterStepping s)
  unfold joinWorkers stepToJoin runPhase
  simp only [h]
  exact join_workers (workerView (setPhase .running (partition (ghost (enterStepping s))))) (laneNat_pos _) _ _ _ es

/-- No chunk is the lowest that failed just when none has failed (R203, R204). -/
theorem lowestFailed_none_iff {k : Running} :
    k.workers.findIdx? (·.fail) = none ↔ ∀ q ∈ k.workers, q.fail = false := by
  simp [List.findIdx?_eq_none_iff]

/-! ### The commit -/

/-- The commit of a `STEP` from `s` when no task failed (R203). -/
theorem commit_advanced {es : List WorkerEvent} {s : State} (h : s.bufs.isSome = true)
    (hf : (stepRun es s).workers.findIdx? (·.fail) = none) :
    commit (stepToJoin es s) =
      { setNext (stepRun es s).next (ghost s) with
        state := .ready, gen := s.gen + 1, sel := !s.sel, seq := none, stream := [], outstanding := none,
        resp := some { code := 0x00, data := s.gen + 1 } } := by
  rw [stepToJoin_eq es s h]
  unfold commit lowestFailed
  simp only [hf]
  rfl

/-- The commit of a `STEP` from `s` when chunk `c` is the lowest that failed (R204). -/
theorem commit_failed {es : List WorkerEvent} {s : State} {c : Nat} (h : s.bufs.isSome = true)
    (hf : (stepRun es s).workers.findIdx? (·.fail) = some c) :
    commit (stepToJoin es s) =
      { setNext (stepRun es s).next (ghost s) with
        state := .terminated, err := 0x02, errChunk := BitVec.ofNat 32 c, seq := none, stream := [],
        outstanding := none, resp := some { code := 0x02, data := (BitVec.ofNat 32 c).setWidth 64 } } := by
  rw [stepToJoin_eq es s h]
  unfold commit lowestFailed
  simp only [hf]
  rfl

/-- The roles after the swap (R131, R203). -/
theorem stepped_roles {s : State} (hs : s.bufs.isSome = true) (m : Memory) {t : State}
    (hb : t.bufs = (setNext m (ghost (dropWorkerDraw s))).bufs) (hsel : t.sel = !s.sel) :
    currentMemory t = m ∧ nextMemory t = ghostMemory s.cfg (currentMemory s) := by
  have hd : (dropWorkerDraw s).bufs = s.bufs := by rw [dropWorkerDraw_cases]
  have hsd : (dropWorkerDraw s).sel = s.sel := by rw [dropWorkerDraw_cases]
  have hcd : (dropWorkerDraw s).cfg = s.cfg := by rw [dropWorkerDraw_cases]
  have h1 : (ghost (dropWorkerDraw s)).bufs.isSome = true := by rw [ghost_bufs_isSome, hd]; exact hs
  have hsel' : t.sel = !(setNext m (ghost (dropWorkerDraw s))).sel := by rw [setNext_sel, ghost_sel, hsd, hsel]
  rw [currentMemory_swapped hb hsel', nextMemory_swapped hb hsel', nextMemory_setNext _ _ h1, currentMemory_setNext,
    currentMemory_ghost (by rw [hd]; exact hs), hcd, currentMemory_congr hd hsd]
  exact ⟨rfl, rfl⟩

/-- The roles after a failed `STEP` (R204). -/
theorem failed_roles {s : State} (hs : s.bufs.isSome = true) (m : Memory) {t : State}
    (hb : t.bufs = (setNext m (ghost (dropWorkerDraw s))).bufs) (hsel : t.sel = s.sel) :
    nextMemory t = m ∧ currentMemory t = ghostMemory s.cfg (currentMemory s) := by
  have hd : (dropWorkerDraw s).bufs = s.bufs := by rw [dropWorkerDraw_cases]
  have hsd : (dropWorkerDraw s).sel = s.sel := by rw [dropWorkerDraw_cases]
  have hcd : (dropWorkerDraw s).cfg = s.cfg := by rw [dropWorkerDraw_cases]
  have h1 : (ghost (dropWorkerDraw s)).bufs.isSome = true := by rw [ghost_bufs_isSome, hd]; exact hs
  have hsel' : t.sel = (setNext m (ghost (dropWorkerDraw s))).sel := by rw [setNext_sel, ghost_sel, hsd, hsel]
  rw [currentMemory_congr hb hsel', nextMemory_congr hb hsel', nextMemory_setNext _ _ h1, currentMemory_setNext,
    currentMemory_ghost (by rw [hd]; exact hs), hcd, currentMemory_congr hd hsd]
  exact ⟨rfl, rfl⟩

end Sys2Proof.Machine
end

