-- ==== Sys2Proof/Tests/Slice0.lean ====
section
/-! SUPPORT. Tests of the model, expected values from 95_test_vectors.md or worked by hand from the rules named, and
for every statement with hypotheses a witness that meets them together. -/

namespace Sys2Proof.Tests

open Sys2Proof.Config Sys2Proof.Machine Sys2Proof.Claims

/-! ### WellFormed refuses, one ill-formed term for each check (R91) -/

theorem test_wf_refuses_wide_newDead : WellFormed (.newDead 268435456 1) = false := by decide
theorem test_wf_refuses_high_newDead : WellFormed (.newDead 1 268435456) = false := by decide
theorem test_wf_refuses_wide_newTorus : WellFormed (.newTorus 268435456 1) = false := by decide
theorem test_wf_refuses_high_newTorus : WellFormed (.newTorus 1 268435456) = false := by decide
theorem test_wf_refuses_x_getCell : WellFormed (.getCell 268435456 0) = false := by decide
theorem test_wf_refuses_y_getCell : WellFormed (.getCell 0 268435456) = false := by decide
theorem test_wf_admits_largest : WellFormed (.newDead 268435455 268435455) = true := by decide

/-! ### Decoding of words written out from R91 and R96 (V-E1, V-E2): `op` 8 bits, `a` 28 bits, `b` 28 bits -/

theorem test_decode_newDead :
    decode 0b00000001_0000000000000000000010000010_0000000000000000000000000011 = .instr (.newDead 130 3) := by decide
theorem test_decode_newTorus :
    decode 0b00000010_0000000000000000000001000001_0000000000000000000000000110 = .instr (.newTorus 65 6) := by decide
theorem test_decode_step :
    decode 0b00010000_0000000000000000000000000000_0000000000000000000000000000 = .instr .step := by decide
theorem test_decode_getCell :
    decode 0b00100000_0000000000000000000010000001_0000000000000000000000000010 = .instr (.getCell 129 2) := by decide
theorem test_decode_live :
    decode 0b00100001_0000000000000000000000000000_0000000000000000000000000000 = .instr .live := by decide
theorem test_decode_getGen :
    decode 0b00100010_0000000000000000000000000000_0000000000000000000000000000 = .instr .getGen := by decide
theorem test_decode_status :
    decode 0b00100011_0000000000000000000000000000_0000000000000000000000000000 = .instr .status := by decide
theorem test_decode_all_zero : decode 0x0000000000000000 = .illegal .unknownOpcode := by decide
theorem test_decode_all_ones : decode 0xFFFFFFFFFFFFFFFF = .illegal .unknownOpcode := by decide
theorem test_decode_step_operand : decode 0x1000000000000001 = .illegal .nonzeroOperand := by decide
theorem test_decode_live_operand : decode 0x2100000010000000 = .illegal .nonzeroOperand := by decide
theorem test_encode_getCell : encode (.getCell 64 1) = 0x2000000400000001 := by decide
theorem test_decodeTableWord_short : decodeTableWord 8 0x100000000000000 = none := by decide

/-! ### States -/

/-- The state after reset of a block with `T = 4`, `LANES = {1, 4, 8, 16}`, `NPLANES = 4`, no `CAP`, whose next
calibration draw is `best = 4` and whose next `STEP` fails nowhere. -/
def rig : State :=
  { State.reset with
    hw := { workers := 4, lanes := { has4 := true, has8 := true, has16 := true }, planes := .four, cap := none },
    calDraws := [{ calError := false, pick := 1 }], workerDraws := [[]] }

/-- The cells of S6. -/
def fixture : List (List Bool) :=
  [[false, true, true, false], [true, false, false, true], [true, false, false, true], [false, true, true, false]]

/-- The interior of S6 as buffer words (V-N1). -/
def fixtureWords : Memory := [(4, 6), (7, 9), (10, 9), (13, 6)]

/-- V-N1: the fixture constructed. -/
def pond : State :=
  { rig with
    state := .ready, cfg := { w := 4, h := 4, bp := .dead }, prof := { l := .x4, fb := false },
    bufs := some { buf0 := fixtureWords, buf1 := [] }, calDraws := [] }

/-- A block that ended in `Terminated` with chunk 1 (V-E5). -/
def lost : State := { pond with state := .terminated, err := 0x02, errChunk := 1 }

/-- V-H3: a torus of 64 by 2 cells. -/
def ring : State :=
  { pond with
    cfg := { w := 64, h := 2, bp := .torus },
    bufs := some { buf0 := [(4, 0x8000000000000001), (7, 1)], buf1 := [] } }

/-- The next state. -/
def after (o : Host.Outcome State Fault Refusal) : Option State :=
  match o with
  | .next t    => some t
  | .fault _   => none
  | .refused _ => none

/-- The buffers after a command. -/
def buffersAfter (o : Host.Outcome State Fault Refusal) : Option Buffers := (after o).bind (·.bufs)

theorem next_of_after {o : Host.Outcome State Fault Refusal} {t : State} (h : after o = some t) : o = .next t := by
  cases o with
  | next u    => exact congrArg _ (Option.some.inj h)
  | fault _   => cases h
  | refused _ => cases h

/-! ### NEW (R121, R124) -/

/-- The fixture presented to `rig` (V-E3). -/
def offered : State := { rig with inbox := (matrixStream fixture).map .sym ++ [.cmd 0x2300000000000000] }

theorem test_newDead_builds_fixture :
    buffersAfter (exec (.newDead 4 4) offered) = some { buf0 := fixtureWords, buf1 := [] } := by decide
theorem test_newDead_answers_status :
    answer (exec (.newDead 4 4) offered) = some ({ code := 0x00, data := 0x42 }, []) := by decide
theorem test_newTorus_rejects_short_row :
    answer (exec (.newTorus 2 2)
      { rig with inbox := [.sym .cell1, .sym .cell0, .sym .eor, .sym .cell1, .sym .eor, .sym .eom] }) =
      some ({ code := 0x01, data := 0 }, []) := by decide
theorem test_newTorus_capacity :
    answer (exec (.newTorus 4 4) { offered with hw := { offered.hw with cap := some 17 } }) =
      some ({ code := 0x01, data := 0 }, []) := by decide

/-! ### STEP (R203, R204) -/

theorem test_step_pond_is_still :
    (after (exec .step pond)).map (fun t => (t.gen, t.sel, t.state, t.bufs)) =
      some (1, true, .ready, some { buf0 := fixtureWords, buf1 := fixtureWords }) := by decide +kernel
theorem test_step_names_lowest_failed_chunk :
    answer (exec .step { pond with workerDraws := [[.fail 3, .batch 1 0, .fail 1]] }) =
      some ({ code := 0x02, data := 1 }, []) := by decide +kernel

/-! ### The commands that read (R125, R126, R211, R212) -/

theorem test_getCell_last_column : answer (exec (.getCell 3 1) pond) = some ({ code := 0x00, data := 1 }, []) := by decide
theorem test_getCell_outside : answer (exec (.getCell 4 0) pond) = some ({ code := 0x05, data := 0 }, []) := by decide
theorem test_live_fixture :
    answer (exec .live pond) =
      some ({ code := 0x00, data := 8 },
        [0x0000000010000000, 0x0000000020000000, 0x0000000000000001, 0x0000000030000001, 0x0000000000000002,
         0x0000000030000002, 0x0000000010000003, 0x0000000020000003, 0x8000000000000000]) := by decide +kernel
theorem test_live_refused_emits_nothing : answer (exec .live rig) = some ({ code := 0x04, data := 0 }, []) := by decide
theorem test_getGen_in_terminated :
    answer (exec .getGen { lost with gen := 7 }) = some ({ code := 0x00, data := 7 }, []) := by decide
theorem test_status_after_reset : answer (exec .status rig) = some ({ code := 0x00, data := 0x10 }, []) := by decide
theorem test_status_after_failure :
    answer (exec .status { lost with prof := { l := .x1, fb := true } }) =
      some ({ code := 0x00, data := 0x0000000100000A14 }, []) := by decide

/-! ### The port (R90, R101, R261) -/

theorem test_stepN_counts :
    (after (stepN 2 { pond with workerDraws := [[], []] })).map (·.gen) = some 2 := by decide +kernel
theorem test_reset_inside_live_drops_end_word :
    (after (Machine.step { pond with inbox := [.cmdRst 0x2100000000000000 2] })).map (fun t => (t.stream, t.resp)) =
      some ([0x0000000010000000, 0x0000000020000000], none) := by decide +kernel
/-- The first two words of the stream of the pond have left; R268. -/
def stalled : State :=
  { pond with
    outstanding := some { instr := .live, cells := [] }, stream := [0x0000000010000000, 0x0000000020000000] }

theorem test_live_waits_for_the_host :
    after (Machine.step { pond with inbox := [.cmdHold 0x2100000000000000 2] }) = some stalled := by decide +kernel
theorem test_live_completes_with_the_end_word :
    (after (Machine.step { stalled with inbox := [.accept 6] })).map (fun t => (t.stream.length, t.resp)) =
        some (8, none) ∧
      answer (Machine.step { stalled with inbox := [.accept 7] }) = answer (exec .live pond) := by decide +kernel
theorem test_withFetchWord_runs_from_reset :
    answer (Machine.step (State.withFetchWord rig 64 0x0100000000000000)) = some ({ code := 0x01, data := 0 }, []) := by
  decide

/-! ### Micro-operations -/

/-- V-H3. -/
theorem test_ghost_torus :
    (ghost ring).bufs.map (·.buf0) =
      some
        [(1, 1), (2, 1), (3, 0x8000000000000000), (4, 0x8000000000000001), (5, 1), (7, 1), (8, 1),
         (9, 0x8000000000000000), (10, 0x8000000000000001), (11, 1)] := by decide +kernel
/-- V-D6. -/
theorem test_dirMask_torus :
    dirMask 64 (currentMemory (ghost ring)) 0 0 =
      { nw := 0x2, n := 0x1, ne := 0x8000000000000000, wd := 0x3, e := 0xC000000000000000, sw := 0x2, s := 0x1,
        se := 0x8000000000000000 } := by decide +kernel
/-- V-D1. -/
theorem test_dirMask_pond :
    dirMask 4 fixtureWords 1 0 =
      { nw := 0xC, n := 0x6, ne := 0x3, wd := 0x12, e := 0x4, sw := 0x12, s := 0x9, se := 0x4 } := by decide
/-- V-A5. -/
theorem test_addNet_pond :
    addNet (dirMask 4 fixtureWords 1 0) =
      { t0 := 0x9, t1 := 0x6, b0 := 0x1F, b1 := 0, m0 := 0x16, m1 := 0, k1 := 0x1F, u0 := 0x6, u1 := 0, v := 0x6,
        p0 := 0x0, p1 := 0x19, p2 := 0x6, p3 := 0x0 } := by decide
/-- V-U1: count `i` at bits `i` and `16 + i`. -/
theorem test_rule_truth_table :
    ruleWord .four
      { t0 := 0, t1 := 0, b0 := 0, b1 := 0, m0 := 0, m1 := 0, k1 := 0, u0 := 0, u1 := 0, v := 0,
        p0 := 0x00AA00AA, p1 := 0x00CC00CC, p2 := 0x00F000F0, p3 := 0x01000100 }
      0x01FF0000 0xFFFFFFFFFFFFFFFF = 0x000C0008 := by decide
/-- The example of R200. -/
theorem test_partition :
    (List.range 5).map (chunkLo 10 4) = [0, 2, 5, 7, 10] ∧
      (List.range 9).map (chunkLo 3 8) = [0, 0, 0, 1, 1, 1, 2, 2, 3] := by decide
/-- R180: `nd = 11`, `L = 4` is two vector batches and three scalar ones. -/
theorem test_batches : (List.range 11).map (batchLength 11 4) = [4, 0, 0, 0, 4, 0, 0, 0, 1, 1, 1] := by decide
/-- The example of R150. -/
theorem test_profile :
    profileOf { has4 := true, has8 := true, has16 := false } { calError := false, pick := 2 } =
      { l := .x8, fb := false } := by decide

/-! ### States that meet the invariant -/

theorem legalHardware_rig : LegalHardware rig.hw := by decide

theorem rig_inv : Inv rig :=
  { hw := by decide, visible := .inl rfl, transient := rfl,
    unbuilt := fun _ => ⟨rfl, rfl, rfl, rfl, .inl rfl, rfl, rfl⟩, built := fun h => absurd rfl h,
    lane := by decide, fallback := by decide, readyErr := by decide, failedErr := by decide,
    outstanding := nofun }

theorem pond_padding : PaddingZero pond.cfg (currentMemory pond) := by
  show ∀ r, r < 4 → _
  decide

theorem pond_built : Built pond :=
  ⟨by decide, by decide, by decide, by decide, ⟨by decide, by decide⟩, ⟨by decide, by decide⟩, pond_padding⟩

theorem pond_inv : Inv pond :=
  { hw := by decide, visible := .inr (.inl rfl), transient := rfl, unbuilt := nofun,
    built := fun _ => pond_built, lane := by decide, fallback := by decide, readyErr := by decide,
    failedErr := by decide, outstanding := nofun }

theorem lost_inv : Inv lost :=
  { hw := by decide, visible := .inr (.inr rfl), transient := rfl, unbuilt := nofun,
    built := fun _ => ⟨by decide, by decide, by decide, by decide, ⟨by decide, by decide⟩, ⟨by decide, by decide⟩,
      pond_padding⟩,
    lane := by decide, fallback := by decide, readyErr := by decide, failedErr := by decide,
    outstanding := nofun }

/-- The invariant does not look at what the host sends or at the worker draws. -/
theorem inv_environment {s : State} (h : Inv s) (l : List HostAction) (ds : List (List WorkerEvent)) :
    Inv { s with inbox := l, workerDraws := ds } :=
  ⟨h.hw, h.visible, h.transient, fun hs => ⟨(h.unbuilt hs).gen, (h.unbuilt hs).sel, (h.unbuilt hs).cfg,
      (h.unbuilt hs).prof, (h.unbuilt hs).err, (h.unbuilt hs).errChunk, (h.unbuilt hs).bufs⟩,
    fun hs => ⟨(h.built hs).width_pos, (h.built hs).height_pos, (h.built hs).fits, (h.built hs).bufs,
      (h.built hs).current, (h.built hs).next, (h.built hs).padding⟩,
    h.lane, h.fallback, h.readyErr, h.failedErr, h.outstanding⟩

theorem inv_inbox {s : State} (h : Inv s) (l : List HostAction) : Inv { s with inbox := l } :=
  inv_environment h l s.workerDraws

theorem stalled_inv : Inv stalled :=
  { pond_inv with
    unbuilt := nofun, built := fun _ => ⟨by decide, by decide, by decide, by decide, ⟨by decide, by decide⟩,
      ⟨by decide, by decide⟩, pond_padding⟩
    readyErr := by decide, failedErr := by decide
    outstanding := by
      rintro o h
      cases h
      exact ⟨rfl, .inr ⟨rfl, .inl rfl, 2, by decide +kernel, by decide +kernel⟩⟩ }

/-- At the largest `GEN`, a `STEP` presented. -/
def full : State := { pond with gen := BitVec.allOnes 64 }

theorem full_inv : Inv full :=
  { pond_inv with
    unbuilt := nofun, built := fun _ => ⟨by decide, by decide, by decide, by decide, ⟨by decide, by decide⟩,
      ⟨by decide, by decide⟩, pond_padding⟩
    readyErr := by decide, failedErr := by decide, outstanding := nofun }

theorem pond_accepted : StepAccepted pond := ⟨rfl, by decide, rfl⟩

theorem pond_noFailure : NoFailure pond := by
  show ∀ q ∈ joinWorkers (workerDraw pond) pond, q.fail = false
  decide +kernel

/-- A `STEP` of the pond in which chunks 3 and 1 fail, 3 first in time. -/
def doomed : State := { pond with workerDraws := [[.fail 3, .batch 1 0, .fail 1]] }

theorem doomed_accepted : StepAccepted doomed := ⟨rfl, by decide, rfl⟩

/-! ### Witnesses: for each statement with hypotheses a state and operands that meet them together -/

theorem witness_DecodeOfEncodeGivesCommandBack :
    WellFormed (.newDead 0 268435455) = true ∧ WellFormed (.newTorus 268435455 0) = true ∧ WellFormed .step = true ∧
      WellFormed (.getCell 268435455 268435455) = true ∧ WellFormed .live = true ∧ WellFormed .getGen = true ∧
      WellFormed .status = true := by decide
theorem witness_EncodeOfDecodeGivesWordBack : decode 0x01FFFFFFFFFFFFFF = .instr (.newDead 268435455 268435455) := by
  decide
theorem witness_StepRunsDecodedCommand :
    pond.outstanding = none ∧ ({ pond with inbox := [.cmd 0x1000000000000000] } : State).inbox =
      .cmd 0x1000000000000000 :: [] ∧ decode 0x1000000000000000 = .instr .step ∧ Instr.step ≠ .live ∧
      ({ pond with inbox := [.cmdHold 0x1000000000000000 0] } : State).inbox =
        .cmdHold 0x1000000000000000 0 :: [] := by decide
theorem witness_IllegalWordIsAnswered :
    pond.outstanding = none ∧ ({ pond with inbox := [.cmd 0] } : State).inbox = .cmd 0 :: [] ∧
      commandWord (.cmd 0) = some 0 ∧ commandWord (.cmdHold 0 1) = some 0 ∧ decode 0 = .illegal .unknownOpcode := by decide
theorem witness_IdleBlockKeepsState :
    pond.outstanding = none ∧ pond.inbox = [] ∧ ({ pond with inbox := [.accept 1] } : State).inbox = .accept 1 :: [] := by
  decide
theorem witness_ResetInputGivesResetState :
    ({ pond with inbox := [.rst], outstanding := some { instr := .newDead 1 1, cells := [.cell1] } } : State).inbox =
      .rst :: [] ∧ stalled.outstanding ≠ none ∧
      ({ stalled with inbox := [.cmdRst 0 0] } : State).inbox = .cmdRst 0 0 :: [] := by decide
theorem witness_ResetAbandonsCommand :
    pond.outstanding = none ∧ pond.state = .ready ∧ pond.bufs.isSome = true ∧
      ({ pond with inbox := [.cmdRst 0x2100000000000000 3] } : State).inbox = .cmdRst 0x2100000000000000 3 :: [] ∧
      decode 0x2100000000000000 = .instr .live ∧ decode 0x1000000000000000 ≠ .instr .live ∧
      rig.outstanding = none ∧ rig.state ≠ .ready ∧ rig.state ≠ .terminated := by decide
theorem witness_LiveWaitsForTheHost :
    pond.outstanding = none ∧ ({ pond with inbox := [.cmdHold 0x2100000000000000 8] } : State).inbox =
      .cmdHold 0x2100000000000000 8 :: [] ∧ decode 0x2100000000000000 = .instr .live ∧ pond.state = .ready ∧
      pond.bufs.isSome = true := by decide
theorem witness_HeldLiveGoesOnAsTheHostAccepts :
    Inv { stalled with inbox := [.accept 7] } ∧ stalled.outstanding = some { instr := .live, cells := [] } ∧
      noReset { stalled with inbox := [.cmd 0x2300000000000000] } = true :=
  ⟨inv_inbox stalled_inv _, rfl, rfl⟩
theorem witness_StatusAnswersStatusWord :
    rig.state = .uninitialized ∧ pond.state = .ready ∧ lost.state = .terminated := by decide
theorem witness_GetGenAnswersGeneration : pond.state = .ready ∧ lost.state = .terminated := by decide
theorem witness_GetCellAnswersCell :
    lost.state = .terminated ∧ lost.bufs.isSome = true ∧ 3 < width lost.cfg ∧ 3 < height lost.cfg := by decide
theorem witness_GetCellOutsideGridIsBadCoordinate :
    pond.state = .ready ∧ pond.bufs.isSome = true ∧ width pond.cfg ≤ 4 ∧ height pond.cfg ≤ 4 := by decide
theorem witness_LiveStreamsTheLiveCells : pond.state = .ready ∧ pond.bufs.isSome = true := by decide
theorem witness_ReadingCommandsChangeNoState :
    (after (exec (.getCell 4 0) pond)).isSome = true ∧ (after (exec .live pond)).isSome = true ∧
      (after (exec .getGen rig)).isSome = true ∧ (after (exec .status lost)).isSome = true := by decide +kernel
theorem witness_RefusedCommandsAnswerIllegalState : rig.state = .uninitialized ∧ lost.state = .terminated := by decide
theorem witness_NewDeadConstructsGrid :
    WellFormed (.newDead 4 4) = true ∧ offered.state = .uninitialized ∧ offered.outstanding = none ∧
      fixture.length = 4 ∧ (∀ row ∈ fixture, row.length = 4) ∧ fitsCapacity offered.hw.cap 4 4 = true ∧
      offered.inbox = (matrixStream fixture).map .sym ++ [.cmd 0x2300000000000000] := by decide
theorem witness_NewTorusConstructsGrid :
    WellFormed (.newTorus 4 4) = true ∧ offered.state = .uninitialized ∧ offered.outstanding = none ∧
      fixture.length = 4 ∧ (∀ row ∈ fixture, row.length = 4) ∧ fitsCapacity offered.hw.cap 4 4 = true ∧
      offered.inbox = (matrixStream fixture).map .sym ++ [.cmd 0x2300000000000000] := by decide
theorem witness_CellStreamSpellsItsMatrix :
    CellSym.eom ∉ [CellSym.cell1, .eor, .eor] ∧ parseCells [.cell1, .eor, .eor] = ([[true], []], false) ∧
      [CellSym.cell0] ≠ [] ∧ (∀ c ∈ [CellSym.cell0], c = .cell0 ∨ c = .cell1) := by decide
/-- One witness for each clause of the last hypothesis; the other hypotheses hold for all of them. -/
theorem witness_MalformedMatrixIsConfigurationError :
    rig.state = .uninitialized ∧ rig.outstanding = none ∧
      parseCells [.eor] = ([[]], false) ∧ CellSym.eom ∉ [CellSym.eor] ∧
      parseCells [] = ([], false) ∧ CellSym.eom ∉ ([] : List CellSym) ∧
      parseCells [.cell1, .eor] = ([[true]], false) ∧ [[true]].length ≠ 2 ∧ (∃ row ∈ [[true]], row.length ≠ 2) ∧
      CellSym.eom ∉ [CellSym.cell1, .eor] ∧
      parseCells [.cell1, .eor, .cell1] = ([[true]], true) ∧ CellSym.eom ∉ [CellSym.cell1, .eor, .cell1] ∧
      8 < ((1 + 63) / 64 + 2) * (1 + 2) := by decide
theorem witness_NewOutsideUninitializedIsRefused :
    pond.state = .ready ∧ lost.state = .terminated ∧ pond.outstanding = none ∧ lost.outstanding = none ∧
      ({ pond with inbox := [.sym .cell1, .sym .eom] } : State).inbox = [CellSym.cell1].map .sym ++ .sym .eom :: [] ∧
      CellSym.eom ∉ [CellSym.cell1] := by decide
theorem witness_CellStreamMayArriveInPieces :
    rig.outstanding = none ∧ ({ rig with inbox := [.sym .cell1] } : State).inbox = [CellSym.cell1].map .sym ∧
      CellSym.eom ∉ [CellSym.cell1] ∧ noReset { rig with inbox := [.sym .eor, .sym .eom] } = true := by decide
theorem witness_CalibrationSelectsExposedWidth :
    rig.hw.lanes ≠ { has4 := false, has8 := false, has16 := false } ∧ (calDraw rig).calError = false ∧
      (calDraw { rig with calDraws := [{ calError := true, pick := 0 }] }).calError = true ∧
      LaneWidth.x16 ∈ laneList rig.hw.lanes := by decide
theorem witness_ProfileAndConfigurationAreWrittenOnce :
    Inv { offered with inbox := .cmd 0x0100000040000004 :: offered.inbox } ∧
      (after (Machine.step { offered with inbox := .cmd 0x0100000040000004 :: offered.inbox })).map (·.prof.l) =
        some .x4 :=
  ⟨inv_inbox rig_inv _, by decide +kernel⟩
theorem witness_GhostKeepsInteriorAndNext :
    interior (width ring.cfg) (height ring.cfg) 2 1 = true ∧ interior (width ring.cfg) (height ring.cfg) 1 1 = true := by
  decide
theorem witness_GhostUnderDeadIsZero :
    pond.cfg.bp = .dead ∧ pond.bufs.isSome = true ∧ (currentMemory pond).wf = true ∧
      ghostRegion (width pond.cfg) (height pond.cfg) 5 2 = true := by decide
theorem witness_GhostUnderTorusMirrorsEdges :
    ring.cfg.bp = .torus ∧ ring.bufs.isSome = true ∧ (currentMemory ring).wf = true ∧ 1 ≤ width ring.cfg ∧
      1 ≤ height ring.cfg ∧ 1 < height ring.cfg ∧ 2 < wordsPerRow (width ring.cfg) := by decide
theorem witness_GhostEstablishesExtendedCells :
    ring.bufs.isSome = true ∧ (currentMemory ring).wf = true ∧ 1 ≤ width ring.cfg ∧ 1 ≤ height ring.cfg ∧
      3 < bufferRows (height ring.cfg) ∧ 63 < width ring.cfg := by decide
theorem witness_GhostIsIdempotent :
    ring.bufs.isSome = true ∧ (currentMemory ring).wf = true ∧ 1 ≤ width ring.cfg ∧ 1 ≤ height ring.cfg ∧
      3 < bufferRows (height ring.cfg) ∧ 2 < wordsPerRow (width ring.cfg) := by decide
theorem witness_RuleIsBirthOnThreeSurvivalOnTwoOrThree :
    (0xF : Word).getLsbD 3 = true ∧
      3 = ((0x8 : Word).getLsbD 3).toNat + ((0x8 : Word).getLsbD 3).toNat + ((0x8 : Word).getLsbD 3).toNat +
        ((0 : Word).getLsbD 3).toNat + ((0 : Word).getLsbD 3).toNat + ((0 : Word).getLsbD 3).toNat +
        ((0 : Word).getLsbD 3).toNat + ((0 : Word).getLsbD 3).toNat := by decide
theorem witness_ValidMaskMarksRealCells : 1 ≤ 65 ∧ 1 < dataWords 65 ∧ 63 < 64 := by decide
theorem witness_DirectionMasksHoldNeighbours :
    Inv pond ∧ pond.state ≠ .uninitialized ∧ 3 < width pond.cfg ∧ 3 < height pond.cfg :=
  ⟨pond_inv, by decide, by decide, by decide⟩
theorem witness_BatchesCoverRowOnce :
    10 < 11 ∧ 8 ≤ 8 ∧ 8 < 8 + batchLength 11 (laneNat .x4) 8 ∧ 7 < 4 + batchLength 11 (laneNat .x4) 4 := by decide
theorem witness_PartitionCoversRowsOnce : 1 ≤ 8 ∧ 2 < 3 ∧ 0 < 1 ∧ (2, 0) ∈ chunkWords 1 3 8 7 := by decide
theorem witness_StepWithoutFailureAdvances : StepAccepted pond ∧ NoFailure pond := ⟨pond_accepted, pond_noFailure⟩
theorem witness_StepComputesNextGeneration : Inv pond ∧ StepAccepted pond ∧ NoFailure pond :=
  ⟨pond_inv, pond_accepted, pond_noFailure⟩
theorem witness_StepWritesEveryInteriorWord :
    LegalHardware pond.hw ∧ StepAccepted pond ∧ NoFailure pond ∧ (nextMemory pond).wf = true ∧
      (after (exec .step pond)).isSome = true ∧ interior (width pond.cfg) (height pond.cfg) 4 1 = true ∧
      ghostRegion (width pond.cfg) (height pond.cfg) 5 2 = true :=
  ⟨by decide, pond_accepted, pond_noFailure, by decide, by decide +kernel, by decide, by decide⟩
theorem witness_LowestFailedChunkIsReported :
    (LegalHardware doomed.hw ∧ StepAccepted doomed ∧ LowestFailure doomed 1) ∧
      3 < doomed.hw.workers ∧ .fail 3 ∈ workerDraw doomed ∧ .finish 3 ∉ workerDraw doomed ∧
      .fail 0 ∉ workerDraw doomed :=
  ⟨⟨by decide, doomed_accepted, ⟨by decide +kernel, by decide +kernel⟩⟩, by decide, by decide, by decide, by decide⟩
/-- The draw ends the task of chunk 2 before it fails it, and fails chunk 3: chunk 3 is the lowest. -/
theorem witness_LowestFailedChunkIsReported_finished :
    LowestFailure { pond with workerDraws := [[.batch 2 0, .finish 2, .fail 2, .fail 3]] } 3 :=
  ⟨by decide +kernel, by decide +kernel⟩
theorem witness_StepEndsAdvancedOrFailed : LegalHardware doomed.hw ∧ StepAccepted doomed :=
  ⟨by decide, doomed_accepted⟩
theorem witness_FailedStepKeepsVisibleGrid :
    StepAccepted doomed ∧ (nextMemory doomed).wf = true ∧
      (after (exec .step doomed)).map (·.state) = some .terminated :=
  ⟨doomed_accepted, by decide, by decide +kernel⟩
theorem witness_FailedStepLeavesOldOrNewWords :
    LegalHardware doomed.hw ∧ StepAccepted doomed ∧ (nextMemory doomed).wf = true ∧
      (after (exec .step doomed)).map (·.state) = some .terminated ∧
      interior (width doomed.cfg) (height doomed.cfg) 2 1 = true :=
  ⟨by decide, doomed_accepted, by decide, by decide +kernel, by decide⟩
theorem witness_StepIsIndependentOfWorkersLanesAndOrder :
    Inv pond ∧ StepAccepted pond ∧ NoFailure pond ∧
      LegalHardware { workers := 1, lanes := { has4 := false, has8 := false, has16 := false }, planes := .three, cap := none } ∧
      NoFailure { pond with
        prof := { l := .x1, fb := true },
        hw := { workers := 1, lanes := { has4 := false, has8 := false, has16 := false }, planes := .three, cap := none },
        workerDraws := [[.batch 0 2]], drawCount := 5 } := by
  refine ⟨pond_inv, pond_accepted, pond_noFailure, by decide, ?_⟩
  unfold NoFailure
  decide +kernel
theorem witness_WorkerWritesOnlyItsOwnSlice :
    (freshWorkers 1 4 4)[2]? = some { pend := [(2, 0)], done := false, fail := false } ∧
      (∀ p ∈ [((2 : Nat), (0 : Nat))], p.2 < dataWords 4) ∧ 2 < wordsPerRow 4 ∧
      (3 - 1, 2 - 1) ∉ [((2 : Nat), (0 : Nat))] ∧ (4 - 1, 1 - 1) ∉ [((2 : Nat), (0 : Nat))] := by decide
theorem witness_StepAtGenerationLimitIsRefused :
    ({ pond with gen := BitVec.allOnes 64 } : State).state = .ready ∧
      ({ pond with gen := BitVec.allOnes 64 } : State).gen = BitVec.allOnes 64 := by decide
theorem witness_StepKeepsInvariant :
    Inv { pond with inbox := [.cmd 0x1000000000000000] } ∧
      (after (Machine.step { pond with inbox := [.cmd 0x1000000000000000] })).map (·.gen) = some 1 :=
  ⟨inv_inbox pond_inv _, by decide +kernel⟩
theorem witness_EngineStateTransitions :
    Inv { doomed with inbox := [.cmd 0x1000000000000000] } ∧
      noReset { doomed with inbox := [.cmd 0x1000000000000000] } = true ∧
      noReset { doomed with inbox := [.rst] } = false ∧
      (after (Machine.step { doomed with inbox := [.cmd 0x1000000000000000] })).map (·.state) = some .terminated :=
  ⟨inv_environment pond_inv _ _, rfl, rfl, by decide +kernel⟩
theorem witness_TerminatedIsAbsorbing :
    Inv { lost with inbox := [.cmd 0x1000000000000000] } ∧ lost.state = .terminated ∧
      noReset { lost with inbox := [.cmd 0x1000000000000000] } = true ∧
      (after (Machine.step { lost with inbox := [.cmd 0x1000000000000000] })).isSome = true :=
  ⟨inv_inbox lost_inv _, rfl, rfl, by decide⟩
theorem witness_GenerationCountsSuccessfulSteps :
    Inv { pond with inbox := [.cmd 0x1000000000000000] } ∧ pond.state ≠ .uninitialized ∧
      noReset { pond with inbox := [.cmd 0x1000000000000000] } = true ∧
      (after (Machine.step { pond with inbox := [.cmd 0x1000000000000000] })).isSome = true :=
  ⟨inv_inbox pond_inv _, by decide, rfl, by decide +kernel⟩
theorem witness_GridChangesOnlyWithGeneration :
    Inv { pond with inbox := [.cmd 0x2200000000000000] } ∧ pond.state ≠ .uninitialized ∧
      noReset { pond with inbox := [.cmd 0x2200000000000000] } = true ∧
      (after (Machine.step { pond with inbox := [.cmd 0x2200000000000000] })).map (·.gen) = some pond.gen :=
  ⟨inv_inbox pond_inv _, by decide, rfl, by decide⟩
theorem witness_ErrorsArePrecise :
    Inv { lost with inbox := [.cmd 0x1000000000000000] } ∧
      (∃ a c rest, ({ lost with inbox := [.cmd 0x1000000000000000] } : State).inbox = a :: rest ∧
        commandWord a = some c) ∧
      noReset { lost with inbox := [.cmd 0x1000000000000000] } = true ∧
      ((after (Machine.step { lost with inbox := [.cmd 0x1000000000000000] })).bind (·.resp)).map (·.code) = some 0x04 :=
  ⟨inv_inbox lost_inv _, ⟨_, _, _, rfl, rfl⟩, rfl, by decide⟩
theorem witness_StopsAreOnlyTheNamedOnes :
    Inv { rig with inbox := [.sym .cell1] } ∧
      Machine.step { rig with inbox := [.sym .cell1] } = .refused .unsolicitedSymbol ∧
      Inv { stalled with inbox := [.sym .cell1] } ∧
      Machine.step { stalled with inbox := [.sym .cell1] } = .refused .unsolicitedSymbol ∧
      Inv { full with inbox := [.cmd 0x1000000000000000] } ∧
      Machine.step { full with inbox := [.cmd 0x1000000000000000] } = .refused .generationLimit :=
  ⟨inv_inbox rig_inv _, rfl, inv_inbox stalled_inv _, rfl, inv_inbox full_inv _, rfl⟩
theorem witness_ElaborationParametersAreConstant :
    (after (Machine.step { rig with inbox := [.cmd 0x2300000000000000] })).isSome = true := by decide

end Sys2Proof.Tests
end

section
/-! The elaboration parameters are constant (R6, R7): no command and no action at the host port writes `State.hw`. -/

namespace Sys2Proof.Machine

open Sys2Proof.Config

/-! ### The parameters under the composite operations -/

@[simp] theorem respondStatus_hw (s : State) : (respondStatus s).hw = s.hw := rfl

@[simp] theorem construct_hw (bp : Boundary) (a b : Nat) (m : List (List Bool)) (s : State) :
    (construct bp a b m s).hw = s.hw := by
  rw [construct_eq]

@[simp] theorem stepToJoin_hw (es : List WorkerEvent) (s : State) : (stepToJoin es s).hw = s.hw := by
  simp [stepToJoin]

/-- Neither the commit of R203 nor the failure of R204 writes the parameters. -/
@[simp] theorem commit_hw (s : State) : (commit s).hw = s.hw := by
  unfold commit
  split <;> simp

@[simp] theorem stepGrid_hw (s : State) : (stepGrid s).hw = s.hw := by
  simp [stepGrid]

theorem OnlyPort.hw_eq {s t : State} (h : OnlyPort s t) : t.hw = s.hw := by
  rw [h]

/-! ### The parameters under commands and steps -/

theorem Effect.hw_eq {i : Instr} {s t : State} (h : Effect i s t) : t.hw = s.hw := by
  cases h with
  | answered hp => exact hp.hw_eq
  | waits hp => exact hp.hw_eq
  | malformed _ ht => rw [ht, raise_hw]
  | built _ a b bp m _ _ ht => rw [ht, respondStatus_hw, construct_hw]
  | stepped _ _ _ _ ht => rw [ht, stepGrid_hw]

theorem exec_hw {i : Instr} {s t : State} (h : exec i s = .next t) : t.hw = s.hw :=
  (exec_effect h).hw_eq

theorem Ran.hw_eq {i : Instr} {s t : State} (h : Ran i s t) : t.hw = s.hw := by
  cases h with
  | whole h => exact exec_hw h
  | held n _ _ _ _ ht => exact ht ▸ (holdStream_onlyPort .live n s).hw_eq

theorem StepCase.hw_eq {s t : State} (h : StepCase s t) : t.hw = s.hw := by
  cases h with
  | waits ht => rw [ht]
  | illegal _ _ _ _ _ _ _ _ ht => rw [ht, raise_hw]
  | command _ _ _ _ _ _ _ _ ht => exact ht.hw_eq
  | cells _ _ _ ht => exact exec_hw ht
  | words _ _ _ _ _ _ ht => exact ht.hw_eq

/-- The reset input keeps the parameters: they are fixed when the hardware is built (R6, R7, R260). -/
theorem step_hw {s t : State} (h : step s = .next t) : t.hw = s.hw := by
  cases hr : noReset s with
  | true => exact (step_cases hr h).hw_eq
  | false =>
    obtain ⟨rest, ws, rfl⟩ := step_reset hr h
    rw [emit_hw, resetInput_hw]

end Sys2Proof.Machine

namespace Sys2Proof.Claims

/-- Settles O58: a reset keeps the parameters, and every other step is one of the cases of `StepCase`. -/
theorem elaborationParametersAreConstant : Obligations.ElaborationParametersAreConstant :=
  fun _ _ h => Machine.step_hw h

end Sys2Proof.Claims
end

section
/-! Every step keeps the invariant of the block between commands (R25, R207, R267): a step that writes the port only, a
`NEW.*`, the two ends of a `STEP`, and a reset. -/

namespace Sys2Proof.Machine

open Sys2Proof.Config

/-! ### Where only the port moves -/

theorem Unbuilt.of_onlyPort {s t : State} (h : Unbuilt s) (hp : OnlyPort s t) : Unbuilt t := by
  rw [hp]
  exact ⟨h.gen, h.sel, h.cfg, h.prof, h.err, h.errChunk, h.bufs⟩

theorem Built.of_onlyPort {s t : State} (h : Built s) (hp : OnlyPort s t) : Built t := by
  rw [hp]
  exact ⟨h.width_pos, h.height_pos, h.fits, h.bufs, h.current, h.next, h.padding⟩

/-- Where no register is written, only what is outstanding is left to check. -/
theorem Inv.of_onlyPort {s t : State} (h : Inv s) (hp : OnlyPort s t)
    (ho : ∀ o, t.outstanding = some o → OutstandingOk t o) : Inv t := by
  obtain ⟨hstate, -, -, -, hprof, herr, hchunk, -, hseq, hhw, -, -, -⟩ := hp.same
  exact
    { hw := hhw ▸ h.hw
      visible := hstate ▸ h.visible
      transient := hseq ▸ h.transient
      unbuilt := fun hs => (h.unbuilt (hstate ▸ hs)).of_onlyPort hp
      built := fun hs => (h.built (hstate ▸ hs)).of_onlyPort hp
      lane := by rw [hprof, hhw]; exact h.lane
      fallback := hprof ▸ h.fallback
      readyErr := by rw [hstate, herr, hchunk]; exact h.readyErr
      failedErr := by rw [hstate, herr, hchunk, hhw]; exact h.failedErr
      outstanding := ho }

theorem Inv.of_completed {s t : State} (h : Inv s) (hp : OnlyPort s t) (ho : t.outstanding = none) : Inv t :=
  h.of_onlyPort hp (by simp [ho])

theorem Inv.of_inbox {s : State} (h : Inv s) (l : List HostAction) : Inv { s with inbox := l } :=
  h.of_onlyPort rfl h.outstanding

/-- The reset input leads into the invariant from any state of a legal machine (R260, R261). -/
theorem inv_emit_resetInput {s : State} (h : LegalHardware s.hw) (ws : List Word) : Inv (emit ws (resetInput s)) :=
  { hw := h
    visible := .inl rfl
    transient := rfl
    unbuilt := fun _ => ⟨rfl, rfl, rfl, rfl, .inl rfl, rfl, rfl⟩
    built := fun hs => absurd rfl hs
    lane := by simp [laneList]
    fallback := nofun
    readyErr := nofun
    failedErr := nofun
    outstanding := nofun }

/-! ### What is outstanding -/

theorem Inv.eom_not_mem_receivedCells {s : State} (h : Inv s) : CellSym.eom ∉ receivedCells s := by
  unfold receivedCells
  cases ho : s.outstanding with
  | none => simp
  | some o =>
    rcases (h.outstanding o ho).2 with ⟨-, hc, -⟩ | ⟨rfl, -⟩
    · exact hc
    · simp

/-- An outstanding command that is no `LIVE` waits for cells. -/
theorem Inv.waitsForCells {s : State} (h : Inv s) {o : Outstanding} (ho : s.outstanding = some o)
    (hi : o.instr ≠ .live) : WaitsForCells o := by
  rcases (h.outstanding o ho).2 with hc | ⟨rfl, -⟩
  · exact hc
  · exact absurd rfl hi

/-- A `LIVE` of which the host has accepted a proper beginning waits as the invariant says (R268). -/
theorem Inv.held {s : State} (h : Inv s) (hs : s.state = .ready ∨ s.state = .terminated) {n : Nat}
    (hn : n < (liveStream s).length) : Inv (holdStream .live n (answerLive s)) := by
  refine h.of_onlyPort (holdStream_onlyPort .live n s) fun o ho => ?_
  obtain rfl := Option.some.inj ho
  exact ⟨rfl, .inr ⟨rfl, hs, n, hn, rfl⟩⟩

/-! ### `NEW.*` -/

/-- The grid operands of a well-formed `NEW.*` fit the fields of `CFG` (R28, R91). -/
theorem new_operands_lt {i : Instr} {a b : Nat} (hi : i = .newDead a b ∨ i = .newTorus a b)
    (hw : WellFormed i = true) : a < 2 ^ 28 ∧ b < 2 ^ 28 := by
  rcases hi with rfl | rfl <;> simpa [WellFormed, operandFits] using hw

theorem buildMemory_ok {w h : Nat} {m : List (List Bool)} (hh : m.length = h) (hr : ∀ row ∈ m, row.length = w) :
    (buildMemory w m).wf = true ∧ (buildMemory w m).below (bufferSize w h) = true :=
  buildRows_keeps (by omega) hr ⟨rfl, rfl⟩

/-- Construction sets no bit at or beyond column `W` (R35, R121). -/
theorem buildMemory_padding {g : Cfg} {m : List (List Bool)} (hw : 1 ≤ width g) (hh : m.length = height g)
    (hr : ∀ row ∈ m, row.length = width g) : PaddingZero g (buildMemory (width g) m) := by
  intro r hlt
  have hd : 1 ≤ dataWords (width g) := by unfold dataWords; omega
  have hrow : r < m.length := by omega
  apply BitVec.eq_of_getLsbD_eq
  intro n hn
  rw [BitVec.getLsbD_and, BitVec.getLsbD_not, getLsbD_validMask (by omega) hn,
    getLsbD_buildMemory hr (by unfold wordsPerRow; omega) hn, Nat.add_sub_cancel, List.getD_eq_getElem _ _ hrow]
  by_cases hin : 64 * (dataWords (width g) - 1) + n < width g
  · simp [hin]
  · rw [List.getD_eq_default _ _ (by rw [hr _ (List.getElem_mem hrow)]; omega)]
    simp

/-- A freshly built `BUF[0]` and an empty `BUF[1]` make a grid (R34, R35, R124). -/
theorem built_of_validMatrix {s : State} {m : List (List Bool)}
    (hv : validMatrix s.hw.cap (width s.cfg) (height s.cfg) m false = true) (hsel : s.sel = false)
    (hbufs : s.bufs = some { buf0 := buildMemory (width s.cfg) m, buf1 := [] }) : Built s := by
  obtain ⟨hw, hh, hlen, hrows, -, hfits⟩ := validMatrix_iff.1 hv
  have hcur : currentMemory s = buildMemory (width s.cfg) m := by simp [currentMemory, hbufs, hsel]
  have hnext : nextMemory s = [] := by simp [nextMemory, hbufs, hsel]
  exact
    { width_pos := by omega
      height_pos := by omega
      fits := hfits
      bufs := by simp [hbufs]
      current := hcur ▸ buildMemory_ok hlen hrows
      next := hnext ▸ ⟨rfl, rfl⟩
      padding := hcur ▸ buildMemory_padding (by omega) hlen hrows }

/-- A successful `NEW.*` leaves a grid (R121). -/
theorem built_construct {bp : Boundary} {a b : Nat} {m : List (List Bool)} {s : State} (ha : a < 2 ^ 28)
    (hb : b < 2 ^ 28) (hv : validMatrix s.hw.cap a b m false = true) :
    Built (respondStatus (construct bp a b m s)) := by
  have hw : width (respondStatus (construct bp a b m s)).cfg = a := by
    rw [construct_eq]; exact (BitVec.toNat_ofNat a 28).trans (Nat.mod_eq_of_lt ha)
  have hh : height (respondStatus (construct bp a b m s)).cfg = b := by
    rw [construct_eq]; exact (BitVec.toNat_ofNat b 28).trans (Nat.mod_eq_of_lt hb)
  refine built_of_validMatrix (m := m) ?_ ?_ ?_
  · rw [hw, hh, respondStatus_hw, construct_hw]; exact hv
  · rw [construct_eq]; rfl
  · rw [hw, construct_eq]; rfl

theorem Inv.constructed {bp : Boundary} {a b : Nat} {m : List (List Bool)} {s : State} (h : Inv s) (ha : a < 2 ^ 28)
    (hb : b < 2 ^ 28) (hv : validMatrix s.hw.cap a b m false = true) :
    Inv (respondStatus (construct bp a b m s)) := by
  have hbuilt := built_construct (bp := bp) ha hb hv
  obtain ⟨hlane, hfb⟩ := mem_laneList_profileOf s.hw.lanes (calDraw s)
  rw [construct_eq] at hbuilt ⊢
  exact
    { hw := h.hw
      visible := .inr (.inl rfl)
      transient := h.transient
      unbuilt := nofun
      built := fun _ => hbuilt
      lane := hlane
      fallback := hfb
      readyErr := fun _ => ⟨rfl, rfl⟩
      failedErr := nofun
      outstanding := nofun }

/-- A `NEW.*` of a matrix that is not valid writes `ERR` only (R121 step 1, R232). -/
theorem Inv.malformed {s : State} (h : Inv s) (hs : s.state = .uninitialized) : Inv (raise .configuration s) := by
  obtain ⟨hgen, hsel, hcfg, hprof, -, hchunk, hbufs⟩ := h.unbuilt hs
  exact
    { hw := h.hw
      visible := h.visible
      transient := h.transient
      unbuilt := fun _ => ⟨hgen, hsel, hcfg, hprof, .inr rfl, hchunk, hbufs⟩
      built := fun hn => absurd hs hn
      lane := h.lane
      fallback := h.fallback
      readyErr := fun hr => by cases hs.symm.trans hr
      failedErr := fun ht => by cases hs.symm.trans ht
      outstanding := nofun }

/-! ### How a `STEP` ends -/

/-- What a `STEP` from `s` leaves alone and what it ends, whether it commits or fails (R203, R204). -/
structure StepFrame (s t : State) : Prop where
  cfg         : t.cfg = s.cfg
  prof        : t.prof = s.prof
  hw          : t.hw = s.hw
  seq         : t.seq = none
  outstanding : t.outstanding = none
  bufs        : t.bufs.isSome = true

/-- The two ends of a `STEP` from `s`: the commit of R203 and the failure path of R204. -/
inductive StepEnd (s t : State) : Prop where
  | advanced (frame : StepFrame s t) (state : t.state = .ready) (gen : t.gen = s.gen + 1) (err : t.err = s.err)
      (errChunk : t.errChunk = s.errChunk)
      (unfailed : ∀ q ∈ (stepRun (workerDraw s) s).workers, q.fail = false)
      (current : currentMemory t = (stepRun (workerDraw s) s).next)
      (next : nextMemory t = ghostMemory s.cfg (currentMemory s)) (sel : t.sel = !s.sel)
      (resp : t.resp = some { code := 0x00, data := s.gen + 1 })
  | failed (frame : StepFrame s t) (c : Nat) (lt : c < s.hw.workers) (state : t.state = .terminated)
      (gen : t.gen = s.gen) (err : t.err = 0x02) (errChunk : t.errChunk = BitVec.ofNat 32 c)
      (current : currentMemory t = ghostMemory s.cfg (currentMemory s))
      (next : nextMemory t = (stepRun (workerDraw s) s).next) (sel : t.sel = s.sel)
      (resp : t.resp = some { code := 0x02, data := (BitVec.ofNat 32 c).setWidth 64 })

theorem stepGrid_end {s : State} (hs : s.bufs.isSome = true) : StepEnd s (stepGrid s) := by
  have hd : (dropWorkerDraw s).bufs.isSome = true := by rw [dropWorkerDraw_bufs]; exact hs
  have hbufs : (setNext (stepRun (workerDraw s) s).next (ghost (dropWorkerDraw s))).bufs.isSome = true := by
    rw [setNext_bufs_isSome, ghost_bufs_isSome]; exact hd
  unfold stepGrid
  cases hf : (stepRun (workerDraw s) s).workers.findIdx? (·.fail) with
  | none =>
    rw [commit_advanced hd (by rw [stepRun_drop]; exact hf), stepRun_drop]
    obtain ⟨hcur, hnext⟩ := stepped_roles hs (stepRun (workerDraw s) s).next
      (t := { setNext (stepRun (workerDraw s) s).next (ghost (dropWorkerDraw s)) with sel := !(dropWorkerDraw s).sel })
      rfl (by simp)
    exact .advanced ⟨by simp, by simp, by simp, rfl, rfl, hbufs⟩ rfl (by simp) (by simp) (by simp)
      (lowestFailed_none_iff.1 hf) hcur hnext (by simp) (by simp)
  | some c =>
    have hc : c < s.hw.workers := by
      rw [← (stepRun_workers (workerDraw s) s).1]
      exact (List.findIdx?_eq_some_iff_getElem.1 hf).1
    rw [commit_failed hd (by rw [stepRun_drop]; exact hf), stepRun_drop]
    obtain ⟨hnext, hcur⟩ := failed_roles hs (stepRun (workerDraw s) s).next
      (t := setNext (stepRun (workerDraw s) s).next (ghost (dropWorkerDraw s))) rfl (by simp)
    exact .failed ⟨by simp, by simp, by simp, rfl, rfl, hbufs⟩ c hc rfl (by simp) rfl rfl hcur hnext (by simp) rfl

/-! ### A `STEP` keeps the grid -/

/-- The buffers at the join are in canonical form inside their size (R60, R127, R202). -/
theorem Built.stepRun_ok {s : State} (h : Built s) (es : List WorkerEvent) :
    BufferOk s.cfg (stepRun es s).next ∧ BufferOk s.cfg (ghostMemory s.cfg (currentMemory s)) := by
  have hrun := (stepRun_spec es s h.next.1).1
  exact ⟨⟨hrun.wf, hrun.below h.next.2⟩, wf_ghostMemory _ _ h.current.1, below_ghostMemory _ _ h.current.2⟩

/-- Where no task failed, `RULE` wrote every last data word, so the padding of `next` is 0 (R35, R175, R267). -/
theorem Built.stepRun_padding {s : State} (h : Built s) (hT : 1 ≤ s.hw.workers) {es : List WorkerEvent}
    (hf : ∀ q ∈ (stepRun es s).workers, q.fail = false) : PaddingZero s.cfg (stepRun es s).next := by
  obtain ⟨hrun, hdone⟩ := stepRun_spec es s h.next.1
  have hended : ∀ (c : Nat) (q : WorkerRegs), (stepRun es s).workers[c]? = some q → q.done = true ∧ q.fail = false := by
    intro c q hq
    obtain ⟨q', hq', hd, -⟩ := hdone c (by rw [← hrun.count]; exact (List.getElem?_eq_some_iff.1 hq).1)
    obtain rfl := Option.some.inj (hq'.symm.trans hq)
    exact ⟨hd, hf _ (List.mem_of_getElem? hq)⟩
  intro r hr
  have hd : 1 ≤ dataWords (width s.cfg) := by
    have := h.width_pos
    unfold dataWords; omega
  have hword := hrun.all_written hT hended (R := r + 1) (C := dataWords (width s.cfg))
    (interior_iff.2 ⟨by omega, by omega, hd, Nat.le_refl _⟩)
  exact (congrArg (· &&& _) hword).trans (nextWord_padding _ _ _ _ _)

theorem StepEnd.frame {s t : State} (h : StepEnd s t) : StepFrame s t := by
  cases h with
  | advanced frame => exact frame
  | failed frame => exact frame

theorem StepEnd.built {s t : State} (h : StepEnd s t) (hb : Built s) (hT : 1 ≤ s.hw.workers) : Built t := by
  obtain ⟨hcfg, -, hhw, -, -, hbufs⟩ := h.frame
  obtain ⟨hrun, hghost⟩ := hb.stepRun_ok (workerDraw s)
  have hroles : BufferOk s.cfg (currentMemory t) ∧ BufferOk s.cfg (nextMemory t) ∧
      PaddingZero s.cfg (currentMemory t) := by
    cases h with
    | advanced _ _ _ _ _ unfailed current next =>
      rw [current, next]
      exact ⟨hrun, hghost, hb.stepRun_padding hT unfailed⟩
    | failed _ _ _ _ _ _ _ current next =>
      rw [current, next]
      exact ⟨hghost, hrun, padding_ghost hb.padding hb.width_pos⟩
  obtain ⟨hcur, hnext, hpad⟩ := hroles
  exact ⟨hcfg ▸ hb.width_pos, hcfg ▸ hb.height_pos, by rw [hcfg, hhw]; exact hb.fits, hbufs, hcfg ▸ hcur, hcfg ▸ hnext,
    hcfg ▸ hpad⟩

/-- Both ends of a `STEP` keep the invariant: the commit in `Ready`, the failure in `Terminated` (R31, R32, R207). -/
theorem Inv.stepped {s t : State} (h : Inv s) (hs : s.state = .ready) (he : StepEnd s t) : Inv t := by
  have hbuilt := he.built (h.built (by simp [hs])) h.hw.1
  obtain ⟨-, hprof, hhw, hseq, hout, -⟩ := he.frame
  have hregs : (t.state = .ready ∨ t.state = .terminated) ∧ (t.state = .ready → t.err = 0x00 ∧ t.errChunk = 0) ∧
      (t.state = .terminated → t.err = 0x02 ∧ t.errChunk.toNat < t.hw.workers) := by
    cases he with
    | advanced _ state _ err errChunk =>
      rw [state, err, errChunk]
      exact ⟨.inl rfl, fun _ => h.readyErr hs, nofun⟩
    | failed _ c lt state _ err errChunk =>
      rw [state, err, errChunk, hhw, BitVec.toNat_ofNat]
      exact ⟨.inr rfl, nofun, fun _ => ⟨rfl, (Nat.mod_le _ _).trans_lt lt⟩⟩
  obtain ⟨hvis, hready, hfailed⟩ := hregs
  exact
    { hw := hhw ▸ h.hw
      visible := .inr hvis
      transient := hseq
      unbuilt := fun hu => by simp [hu] at hvis
      built := fun _ => hbuilt
      lane := by rw [hprof, hhw]; exact h.lane
      fallback := hprof ▸ h.fallback
      readyErr := hready
      failedErr := hfailed
      outstanding := by simp [hout] }

/-! ### Every step keeps the invariant -/

theorem Inv.effect {i : Instr} {s t : State} (h : Inv s) (hw : WellFormed i = true) (he : Effect i s t) : Inv t := by
  cases he with
  | answered hp ho => exact h.of_completed hp ho
  | waits hp hr hi ho =>
    refine h.of_onlyPort hp fun o ho' => ?_
    obtain rfl := Option.some.inj (ho.symm.trans ho')
    refine ⟨hr, .inl ⟨hw, ?_, hi⟩⟩
    rw [List.mem_append]
    exact not_or.2 ⟨h.eom_not_mem_receivedCells, collect_eom _⟩
  | malformed hs ht => exact ht ▸ (h.of_inbox _).malformed hs
  | built hs a b bp m hi hv ht =>
    obtain ⟨ha, hb⟩ := new_operands_lt hi hw
    exact ht ▸ (h.of_inbox _).constructed ha hb hv
  | stepped hi hs hg hb ht => exact ht ▸ h.stepped hs (stepGrid_end hb)

theorem Inv.ran {i : Instr} {s t : State} (h : Inv s) (hw : WellFormed i = true) (hr : Ran i s t) : Inv t := by
  cases hr with
  | whole he => exact h.effect hw (exec_effect he)
  | held n hi hs hb hn ht => exact ht ▸ h.held hs hn

theorem Inv.stepCase {s t : State} (h : Inv s) (hc : StepCase s t) : Inv t := by
  cases hc with
  | waits ht => exact ht ▸ h.of_inbox _
  | illegal a c rest r ho hin hc hd ht => exact ht ▸ (h.of_inbox rest).of_completed rfl rfl
  | command a c rest i ho hin hc hd ht => exact (h.of_inbox rest).ran (decode_wellFormed hd) ht
  | cells o ho hi ht => exact h.effect (h.waitsForCells ho hi).1 (exec_effect ht)
  | words o k rest ho hi hin ht => exact (h.of_inbox rest).ran rfl ht

theorem Inv.step {s t : State} (h : Inv s) (hst : Machine.step s = .next t) : Inv t := by
  cases hr : noReset s with
  | true => exact h.stepCase (step_cases hr hst)
  | false =>
    obtain ⟨rest, ws, rfl⟩ := step_reset hr hst
    exact inv_emit_resetInput (s := { s with inbox := rest }) h.hw ws

end Sys2Proof.Machine

namespace Sys2Proof.Claims

/-- Settles O50: a reset leads into the invariant, and every case of `StepCase` keeps it. -/
theorem stepKeepsInvariant : Obligations.StepKeepsInvariant :=
  fun _ _ h hst => h.step hst

end Sys2Proof.Claims
end

section
/-! What a step does once a grid exists: `GEN` (R26, R246) and what the host reads (R36, R131). -/

namespace Sys2Proof.Machine

open Sys2Proof.Config

/-! ### What a step can do once a grid exists -/

theorem OnlyPort.of_inbox {s t : State} {l : List HostAction} (h : OnlyPort { s with inbox := l } t) : OnlyPort s t := h

/-- A command in a state with a grid writes the port only, or runs a `STEP`. -/
theorem Effect.of_grid {i : Instr} {s t : State} (h : Effect i s t) (hs : s.state ≠ .uninitialized) :
    OnlyPort s t ∨ (i = .step ∧ s.state = .ready ∧ s.gen ≠ BitVec.allOnes 64 ∧ StepEnd s t) := by
  cases h with
  | answered hp => exact .inl hp
  | waits hp => exact .inl hp
  | malformed h0 => exact absurd h0 hs
  | built h0 => exact absurd h0 hs
  | stepped hi hr hg hb ht => exact .inr ⟨hi, hr, hg, ht ▸ stepGrid_end hb⟩

theorem Ran.of_grid {i : Instr} {s t : State} (h : Ran i s t) (hs : s.state ≠ .uninitialized) :
    OnlyPort s t ∨ (i = .step ∧ s.state = .ready ∧ s.gen ≠ BitVec.allOnes 64 ∧ StepEnd s t) := by
  cases h with
  | whole he => exact (exec_effect he).of_grid hs
  | held n _ _ _ _ ht => exact .inl (ht ▸ holdStream_onlyPort .live n s)

/-- Once a grid exists a step that is not a reset writes the port only, or takes a command word that runs a `STEP`. -/
theorem step_of_grid {s t : State} (h : Inv s) (hs : s.state ≠ .uninitialized) (hr : noReset s = true)
    (hst : step s = .next t) :
    OnlyPort s t ∨ ∃ a c rest, s.outstanding = none ∧ s.inbox = a :: rest ∧ commandWord a = some c ∧
      decode c = .instr .step ∧ s.state = .ready ∧ s.gen ≠ BitVec.allOnes 64 ∧ StepEnd { s with inbox := rest } t := by
  cases step_cases hr hst with
  | waits ht => exact .inl (by rw [ht]; rfl)
  | illegal a c rest r ho hin hc hd ht => exact .inl (ht ▸ rfl)
  | command a c rest i ho hin hc hd ht =>
    rcases ht.of_grid hs with hp | ⟨rfl, hready, hgen, hend⟩
    · exact .inl hp.of_inbox
    · exact .inr ⟨a, c, rest, ho, hin, hc, hd, hready, hgen, hend⟩
  | cells o ho hi ht =>
    rcases (exec_effect ht).of_grid hs with hp | ⟨hstep, -⟩
    · exact .inl hp
    · obtain ⟨-, -, a, b, hnew⟩ := h.waitsForCells ho hi
      rw [hstep] at hnew
      simp at hnew
  | words o k rest ho hi hin ht =>
    rcases ht.of_grid hs with hp | ⟨hlive, -⟩
    · exact .inl hp.of_inbox
    · cases hlive

/-- Below its largest value `GEN` does not wrap (R26). -/
theorem toNat_add_one_of_ne_allOnes {g : BitVec 64} (h : g ≠ BitVec.allOnes 64) : (g + 1).toNat = g.toNat + 1 := by
  have hmax : g.toNat ≠ 2 ^ 64 - 1 := fun he => h (BitVec.eq_of_toNat_eq (by rw [he, BitVec.toNat_allOnes]))
  bv_omega

/-! ### What the host reads -/

theorem SameReads.trans {s t u : State} (h : SameReads s t) (h' : SameReads t u) : SameReads s u := by
  obtain ⟨hcell, hlive, hgen⟩ := h
  obtain ⟨hcell', hlive', hgen'⟩ := h'
  exact ⟨fun x y => (hcell x y).trans (hcell' x y), hlive.trans hlive', hgen.trans hgen'⟩

/-- The port is no part of what the host reads. -/
theorem OnlyPort.sameReads {s t : State} (h : OnlyPort s t) (hs : s.state = .ready ∨ s.state = .terminated) :
    SameReads s t := by
  obtain ⟨hstate, hgen, hsel, hcfg, -, -, -, hbufs, -⟩ := h.same
  refine sameReads_of_cells hs (hstate ▸ hs) (by rw [hbufs]) hcfg hgen fun x y _ _ => ?_
  unfold cell
  rw [currentMemory_congr hbufs hsel, hcfg]

/-- A failed `STEP` refreshed the ghost region of `current` and left every cell (R127, R204). -/
theorem sameReads_of_failed {s t : State} (hs : s.state = .ready) (hb : s.bufs.isSome = true) (frame : StepFrame s t)
    (state : t.state = .terminated) (gen : t.gen = s.gen)
    (current : currentMemory t = ghostMemory s.cfg (currentMemory s)) : SameReads s t := by
  refine sameReads_of_cells (.inl hs) (.inr state) (by rw [frame.bufs, hb]) frame.cfg gen fun x y hx hy => ?_
  refine cell_congr (fun R C hi => ?_) hx hy
  rw [← rd_ghost_interior hi, ← current, ← frame.cfg]
  rfl

end Sys2Proof.Machine

namespace Sys2Proof.Claims

open Machine

/-- Settles O54: only a `STEP` that commits writes `GEN`, and it is refused at the largest value. -/
theorem generationCountsSuccessfulSteps : Obligations.GenerationCountsSuccessfulSteps := by
  intro s t h hs hr hst
  rcases step_of_grid h hs hr hst with hp | ⟨a, c, rest, ho, hin, hc, hd, hready, hmax, hend⟩
  · obtain ⟨-, hgen, -⟩ := hp.same
    exact .inl hgen
  · cases hend with
    | failed _ _ _ _ gen => exact .inl gen
    | advanced _ state gen =>
      exact .inr ⟨a, c, rest, ho, hin, hc, hd, hready, state, gen ▸ toNat_add_one_of_ne_allOnes hmax⟩

/-- Settles O55: a step writes the port only, or fails a `STEP`, or commits one and so changes `GEN`. -/
theorem gridChangesOnlyWithGeneration : Obligations.GridChangesOnlyWithGeneration := by
  intro s t h hs hr hst hgen
  have hvis : s.state = .ready ∨ s.state = .terminated := h.visible.resolve_left hs
  rcases step_of_grid h hs hr hst with hp | ⟨a, c, rest, -, -, -, -, hready, -, hend⟩
  · exact hp.sameReads hvis
  · have hin : SameReads s { s with inbox := rest } := OnlyPort.sameReads rfl hvis
    refine hin.trans ?_
    cases hend with
    | failed frame _ _ state gen _ _ current =>
      exact sameReads_of_failed hready (h.built hs).bufs frame state gen current
    | advanced _ _ gen => exact absurd (gen.symm.trans hgen) (by simp)

/-- Settles O49: the limit is checked before any draw (U9). -/
theorem stepAtGenerationLimitIsRefused : Obligations.StepAtGenerationLimitIsRefused := by
  intro s hs hg
  show execStep s = _
  unfold execStep
  rw [if_pos (by rw [hs]; rfl), if_pos hg]

end Sys2Proof.Claims
end

section
/-! The memory of the workers and the command word at the port: what a worker's event leaves of `next` and of the other
workers (R67, R68, R202), and the step that takes a command word (R69, R90). -/

namespace Sys2Proof.Machine

open Sys2Proof.Config

/-! ### What an event leaves alone -/

/-- The frame of a batch (R180) in a buffer of any form: no word outside its run is written. -/
theorem rd_batch_other {v : WorkerView} {m : Memory} {r j0 n R C : Nat} (hn : j0 + n ≤ dataWords v.width)
    (hC : C < wordsPerRow v.width) (hout : ∀ l, l < n → R ≠ r + 1 ∨ C ≠ j0 + l + 1) :
    rd v.width (batch v m r j0 n) R C = rd v.width m R C := by
  refine rd_foldl_other _ _ (fun m' l hl => ?_) m
  have hln : l < n := List.mem_range.1 hl
  have hcol : j0 + l + 1 < wordsPerRow v.width := by unfold wordsPerRow; omega
  exact rd_wr_other hcol hC ((hout l hln).imp Ne.symm Ne.symm)

/-- A batch that a worker takes lies in its `PEND[c]`, so every other word of `next` stays (R202). -/
theorem rd_takeBatch_other {v : WorkerView} {k : Running} {c : Nat} {q : WorkerRegs} {p : Nat × Nat} {R C : Nat}
    (hp : p ∈ batchStarts v q.pend) (hcol : ∀ p ∈ q.pend, p.2 < dataWords v.width) (hC : C < wordsPerRow v.width)
    (hout : R = 0 ∨ C = 0 ∨ (R - 1, C - 1) ∉ q.pend) :
    rd v.width (takeBatch v c q p k).next R C = rd v.width k.next R C := by
  obtain ⟨hmem, -, hrun⟩ := mem_batchStarts.1 hp
  refine rd_batch_other (batchLength_fits (hcol p hmem)) hC fun l hl => ?_
  by_contra! hin
  obtain ⟨rfl, rfl⟩ := hin
  rcases hout with hR | hC0 | hnot
  · exact Nat.succ_ne_zero _ hR
  · exact Nat.succ_ne_zero _ hC0
  · exact hnot (hrun l hl)

/-- An event of the worker with registers `q` writes no word of `next` but those in its `PEND[c]` (R202, R236). -/
theorem rd_workerEvent_other {v : WorkerView} {k : Running} {e : WorkerEvent} {q : WorkerRegs} {R C : Nat}
    (hq : k.workers[eventWorker e]? = some q) (hcol : ∀ p ∈ q.pend, p.2 < dataWords v.width)
    (hC : C < wordsPerRow v.width) (hout : R = 0 ∨ C = 0 ∨ (R - 1, C - 1) ∉ q.pend) :
    rd v.width (workerEvent v k e).next R C = rd v.width k.next R C := by
  rcases workerEvent_cases v k e with heq | ⟨q', hq', -, ⟨n, p, -, hp, heq⟩ | ⟨-, heq⟩ | ⟨-, -, heq⟩⟩
  · rw [heq]
  · obtain rfl : q = q' := Option.some.inj (hq.symm.trans hq')
    rw [heq, rd_takeBatch_other hp hcol hC hout]
  · rw [heq]
  · rw [heq]

/-! ### A command word at the port -/

theorem takeCommand_instr {c : Word} {i : Instr} (hd : decode c = .instr i) (s : State) :
    takeCommand c s = exec i s := by
  unfold takeCommand; rw [hd]

theorem takeCommandHeld_instr {c : Word} {i : Instr} (hd : decode c = .instr i) (k : Nat) (s : State) :
    takeCommandHeld c k s = acceptWords i k (exec i s) := by
  unfold takeCommandHeld; rw [hd]

/-- With nothing outstanding the port takes the host's next action (R90). -/
theorem step_of_noOutstanding {s : State} (ho : s.outstanding = none) : step s = takeAction s := by
  unfold step portStep; rw [ho]

theorem step_cmd {s : State} {c : Word} {rest : List HostAction} (ho : s.outstanding = none)
    (hin : s.inbox = .cmd c :: rest) : step s = takeCommand c { s with inbox := rest } := by
  rw [step_of_noOutstanding ho]; unfold takeAction; rw [hin]

theorem step_cmdHold {s : State} {c : Word} {k : Nat} {rest : List HostAction} (ho : s.outstanding = none)
    (hin : s.inbox = .cmdHold c k :: rest) : step s = takeCommandHeld c k { s with inbox := rest } := by
  rw [step_of_noOutstanding ho]; unfold takeAction; rw [hin]

end Sys2Proof.Machine

namespace Sys2Proof.Claims

open Machine

/-- Settles O48: an event writes its own worker's registers, and a batch lies in the worker's `PEND[c]`. -/
theorem workerWritesOnlyItsOwnSlice : Obligations.WorkerWritesOnlyItsOwnSlice := by
  intro v k e c q he hq hcol
  obtain rfl : eventWorker e = c := by
    rcases he with ⟨n, rfl⟩ | rfl | rfl <;> rfl
  exact ⟨fun c' hc => workerEvent_other v k e hc, fun R C hC hout => rd_workerEvent_other hq hcol hC hout⟩

/-- Settles O6: the port hands the decoded word to `exec`, and holds no command but `LIVE`. -/
theorem stepRunsDecodedCommand : Obligations.StepRunsDecodedCommand := by
  intro s c rest i ho hin hd
  rcases hin with hin | ⟨hi, k, hin⟩
  · rw [step_cmd ho hin, takeCommand_instr hd]
  · rw [step_cmdHold ho hin, takeCommandHeld_instr hd, acceptWords_whole hi]

end Sys2Proof.Claims
end

section
/-! Command words (R91, R96, R97): a word decodes to a command exactly when its three fields are the command's, and the
round trips, the match and mask pairs and the illegal words follow from that. -/

namespace Sys2Proof.Machine

/-! ### The fields of a word that decodes -/

theorem zFormat_eq_instr_iff {c : Word} {i j : Instr} :
    zFormat c j = .instr i ↔ ((aField c).toNat = 0 ∧ (bField c).toNat = 0) ∧ j = i := by
  have hzero (x : BitVec 28) : x = 0 ↔ x.toNat = 0 := BitVec.toNat_eq
  unfold zFormat
  split <;> simp_all

/-- A command of format Z needs its opcode and two zero operands (R91, R97 (b)). -/
theorem fields_of_zFormat {c : Word} {i j : Instr} (hop : opField c = opcodeOf j) (ha : operandA j = 0)
    (hb : operandB j = 0) (h : zFormat c j = .instr i) :
    opField c = opcodeOf i ∧ (aField c).toNat = operandA i ∧ (bField c).toNat = operandB i := by
  obtain ⟨⟨ha0, hb0⟩, rfl⟩ := zFormat_eq_instr_iff.1 h
  exact ⟨hop, ha0.trans ha.symm, hb0.trans hb.symm⟩

/-- A decoded command has the fields of the word it comes from (R91, R96). -/
theorem fields_of_decode {c : Word} {i : Instr} (h : decode c = .instr i) :
    opField c = opcodeOf i ∧ (aField c).toNat = operandA i ∧ (bField c).toNat = operandB i := by
  unfold decode at h
  split_ifs at h with hop hop hop hop hop hop hop
  · cases h; exact ⟨hop, rfl, rfl⟩
  · cases h; exact ⟨hop, rfl, rfl⟩
  · exact fields_of_zFormat (j := .step) hop rfl rfl h
  · cases h; exact ⟨hop, rfl, rfl⟩
  · exact fields_of_zFormat (j := .live) hop rfl rfl h
  · exact fields_of_zFormat (j := .getGen) hop rfl rfl h
  · exact fields_of_zFormat (j := .status) hop rfl rfl h

/-- The branch of the decoder is the one of the command's opcode (R96). -/
theorem decode_of_fields {c : Word} {i : Instr} (hop : opField c = opcodeOf i) (ha : (aField c).toNat = operandA i)
    (hb : (bField c).toNat = operandB i) : decode c = .instr i := by
  cases i with
  | newDead w h => simp [decode, hop, opcodeOf, ha, hb, operandA, operandB]
  | newTorus w h => simp [decode, hop, opcodeOf, ha, hb, operandA, operandB]
  | getCell x y => simp [decode, hop, opcodeOf, ha, hb, operandA, operandB]
  | step => simpa [decode, hop, opcodeOf] using zFormat_eq_instr_iff.2 ⟨⟨ha, hb⟩, rfl⟩
  | live => simpa [decode, hop, opcodeOf] using zFormat_eq_instr_iff.2 ⟨⟨ha, hb⟩, rfl⟩
  | getGen => simpa [decode, hop, opcodeOf] using zFormat_eq_instr_iff.2 ⟨⟨ha, hb⟩, rfl⟩
  | status => simpa [decode, hop, opcodeOf] using zFormat_eq_instr_iff.2 ⟨⟨ha, hb⟩, rfl⟩

theorem decode_eq_instr_iff {c : Word} {i : Instr} :
    decode c = .instr i ↔
      opField c = opcodeOf i ∧ (aField c).toNat = operandA i ∧ (bField c).toNat = operandB i :=
  ⟨fields_of_decode, fun ⟨hop, ha, hb⟩ => decode_of_fields hop ha hb⟩

/-! ### The round trips -/

theorem encodedFields (i : Instr) : Laws.EncodedFields.Statement i := by
  cases i with
  | newDead w h => exact Laws.EncodedFields.newDead w h
  | newTorus w h => exact Laws.EncodedFields.newTorus w h
  | step => exact Laws.EncodedFields.step
  | getCell x y => exact Laws.EncodedFields.getCell x y
  | live => exact Laws.EncodedFields.live
  | getGen => exact Laws.EncodedFields.getGen
  | status => exact Laws.EncodedFields.status

theorem decode_encode {i : Instr} (hw : WellFormed i = true) : decode (encode i) = .instr i :=
  decode_eq_instr_iff.2 (encodedFields i hw)

theorem encode_of_decode {c : Word} {i : Instr} (h : decode c = .instr i) : encode i = c := by
  obtain ⟨hop, ha, hb⟩ := fields_of_decode h
  calc encode i = opField c ++ aField c ++ bField c := by
        rw [encode, ← hop, ← ha, ← hb, BitVec.ofNat_toNat, BitVec.ofNat_toNat, BitVec.setWidth_eq,
          BitVec.setWidth_eq]
    _ = c := (fields_eq c).symm

/-- A well-formed command has one word (R91). -/
theorem eq_encode_iff_decode {c : Word} {i : Instr} (hw : WellFormed i = true) :
    c = encode i ↔ decode c = .instr i :=
  ⟨fun h => h ▸ decode_encode hw, fun h => (encode_of_decode h).symm⟩

/-! ### The match and mask pairs of R96 -/

/-- The opcode mask keeps bits 63:56 and clears the operands (R96). -/
theorem and_opcodeMask (c : Word) : c &&& 0xFF00000000000000 = opField c ++ 0#28 ++ 0#28 := by
  have hmask : (0xFF00000000000000 : Word) = 0xFF#8 ++ 0#28 ++ 0#28 := by decide
  have hones : opField c &&& 0xFF#8 = opField c := BitVec.and_allOnes
  calc c &&& 0xFF00000000000000
      = (opField c ++ aField c ++ bField c) &&& (0xFF#8 ++ 0#28 ++ 0#28) := by rw [← fields_eq, hmask]
    _ = opField c ++ 0#28 ++ 0#28 := by
        rw [BitVec.and_append, BitVec.and_append, hones, BitVec.and_zero, BitVec.and_zero]

/-- The match of a command of format AB: its opcode over operands that the mask lets be anything (R96). -/
theorem opcodeMatch_iff_decode {c k : Word} {o : BitVec 8} {i : Instr} (hk : k = o ++ 0#28 ++ 0#28)
    (hop : opcodeOf i = o) (ha : operandA i = (aField c).toNat) (hb : operandB i = (bField c).toNat) :
    c &&& 0xFF00000000000000 = k ↔ decode c = .instr i := by
  rw [and_opcodeMask, hk, ← hop, BitVec.append_left_inj, BitVec.append_left_inj, decode_eq_instr_iff]
  exact ⟨fun h => ⟨h, ha.symm, hb.symm⟩, And.left⟩

/-- The match of a command of format Z: its whole word (R96). -/
theorem wordMatch_iff_decode {c k : Word} {i : Instr} (hk : k = encode i) (hw : WellFormed i = true) :
    c &&& 0xFFFFFFFFFFFFFFFF = k ↔ decode c = .instr i := by
  rw [hk, ← eq_encode_iff_decode hw, show c &&& 0xFFFFFFFFFFFFFFFF = c from BitVec.and_allOnes]

/-! ### The illegal words -/

theorem exists_illegal_iff_not_instr {c : Word} : (∃ r, decode c = .illegal r) ↔ ¬ ∃ i, decode c = .instr i := by
  cases decode c <;> simp

/-- The words that decode: an opcode of format AB with any operands, or one of format Z with zero operands (R96). -/
theorem exists_decode_iff {c : Word} :
    (∃ i, decode c = .instr i) ↔
      (opField c).toNat ∈ [0x01, 0x02, 0x20] ∨
      ((opField c).toNat ∈ [0x10, 0x21, 0x22, 0x23] ∧ (aField c).toNat = 0 ∧ (bField c).toNat = 0) := by
  constructor
  · rintro ⟨i, h⟩
    obtain ⟨hop, ha, hb⟩ := fields_of_decode h
    cases i <;> simp_all [opcodeOf, operandA, operandB]
  · have hopcode (i : Instr) (h : (opField c).toNat = (opcodeOf i).toNat) : opField c = opcodeOf i :=
      BitVec.eq_of_toNat_eq h
    simp only [List.mem_cons, List.not_mem_nil, or_false]
    rintro ((h | h | h) | ⟨h | h | h | h, ha, hb⟩)
    · exact ⟨.newDead _ _, decode_of_fields (hopcode _ h) rfl rfl⟩
    · exact ⟨.newTorus _ _, decode_of_fields (hopcode _ h) rfl rfl⟩
    · exact ⟨.getCell _ _, decode_of_fields (hopcode _ h) rfl rfl⟩
    · exact ⟨.step, decode_of_fields (hopcode _ h) ha hb⟩
    · exact ⟨.live, decode_of_fields (hopcode _ h) ha hb⟩
    · exact ⟨.getGen, decode_of_fields (hopcode _ h) ha hb⟩
    · exact ⟨.status, decode_of_fields (hopcode _ h) ha hb⟩

end Sys2Proof.Machine

namespace Sys2Proof.Claims

open Machine

/-- Settles O1: the encoder puts the command's fields into the word, and the decoder reads them back. -/
theorem decodeOfEncodeGivesCommandBack : Obligations.DecodeOfEncodeGivesCommandBack :=
  fun _ hw => decode_encode hw

/-- Settles O2: a word is its three fields, and a decoded command has them all. -/
theorem encodeOfDecodeGivesWordBack : Obligations.EncodeOfDecodeGivesWordBack :=
  fun _ _ h => ⟨decode_wellFormed h, encode_of_decode h⟩

/-- Settles O3: the mask of format AB leaves the opcode, that of format Z the whole word. -/
theorem decodeFollowsMatchAndMask : Obligations.DecodeFollowsMatchAndMask := fun _ =>
  ⟨opcodeMatch_iff_decode (o := 0x01) (by decide) rfl rfl rfl,
    opcodeMatch_iff_decode (o := 0x02) (by decide) rfl rfl rfl,
    wordMatch_iff_decode (i := .step) (by decide) rfl,
    opcodeMatch_iff_decode (o := 0x20) (by decide) rfl rfl rfl,
    wordMatch_iff_decode (i := .live) (by decide) rfl,
    wordMatch_iff_decode (i := .getGen) (by decide) rfl,
    wordMatch_iff_decode (i := .status) (by decide) rfl⟩

/-- Settles O4: the illegal words are those outside the words that decode. -/
theorem illegalWordsAreTheListedOnes : Obligations.IllegalWordsAreTheListedOnes := by
  intro c
  rw [exists_illegal_iff_not_instr, exists_decode_iff, ← opField, ← aField, ← bField]
  simp only [List.mem_cons, List.not_mem_nil, or_false]
  omega

/-- Settles O5: the words are closed terms, and the decoder runs on them. -/
theorem writtenOutWordsDecode : Obligations.WrittenOutWordsDecode := by
  unfold Obligations.WrittenOutWordsDecode
  decide

end Sys2Proof.Claims
end

section
/-! The cell channel of `NEW.*` and two answers of the port: a cell stream spells one matrix (R94, R100) and may arrive
in pieces (R90, R94); an illegal word is answered `IllegalCommand` (R97, R235), `STATUS` the status word (R98, R212). -/

namespace Sys2Proof.Machine

open Sys2Proof.Config

/-! ### A cell stream spells its matrix -/

/-- The parser gives back the rows of a matrix, and then what follows them (R94, R100). -/
theorem parseCells_rows (m : List (List Bool)) (t : List CellSym) :
    parseCells (m.flatMap rowStream ++ t) = parseFrom m [] t :=
  parseFrom_rows [] m t

/-- A stream that parses without a trailing row is, after the rows and the cells read before it, the stream of the
matrix it parses to. -/
theorem rows_of_parseFrom {rows m : List (List Bool)} {row : List Bool} {cells : List CellSym}
    (heom : CellSym.eom ∉ cells) (h : parseFrom rows row cells = (m, false)) :
    rows.flatMap rowStream ++ (row.map (fun b => if b then .cell1 else .cell0) ++ cells) = m.flatMap rowStream := by
  induction cells generalizing rows row with
  | nil =>
    obtain ⟨rfl, hrow⟩ : rows = m ∧ row = [] := by simpa [parseFrom] using h
    simp [hrow]
  | cons c t ih =>
    obtain ⟨hc, ht⟩ : CellSym.eom ≠ c ∧ CellSym.eom ∉ t := by simpa using heom
    cases c with
    | eom => exact absurd rfl hc
    | eor => simpa [rowStream] using ih ht h
    | cell0 => simpa using ih ht h
    | cell1 => simpa using ih ht h

theorem exists_bits_of_cells {cells : List CellSym} (h : ∀ c ∈ cells, c = .cell0 ∨ c = .cell1) :
    ∃ bits : List Bool, cells = bits.map (fun b => if b then .cell1 else .cell0) := by
  refine ⟨cells.map (· == .cell1), ?_⟩
  rw [List.map_map]
  refine (List.map_id cells).symm.trans (List.map_congr_left fun c hc => ?_)
  rcases h c hc with rfl | rfl <;> rfl

/-! ### A `NEW.*` that goes on -/

theorem exec_new {i : Instr} {a b : Nat} (hi : i = .newDead a b ∨ i = .newTorus a b) :
    ∃ bp, ∀ s, exec i s = .next (newGrid i bp a b s) := by
  rcases hi with rfl | rfl
  · exact ⟨.dead, fun _ => rfl⟩
  · exact ⟨.torus, fun _ => rfl⟩

theorem collect_cells {cells : List CellSym} (h : CellSym.eom ∉ cells) :
    collect (cells.map .sym) = { cells := cells, ended := false, rest := [] } := by
  simpa [collect] using collect_append h []

/-- Without an `EOM` a `NEW.*` takes the symbols that are there and waits (R94). -/
theorem newGrid_waits {i : Instr} {bp : Boundary} {a b : Nat} {s : State} {cells : List CellSym}
    (ho : s.outstanding = none) (hin : s.inbox = cells.map .sym) (he : CellSym.eom ∉ cells) :
    newGrid i bp a b s =
      { s with inbox := [], stream := [], resp := none, outstanding := some { instr := i, cells := cells } } := by
  simp [newGrid, hin, collect_cells he, receivedCells, ho]

/-- Construction writes no field of the port (R121). -/
theorem construct_port (bp : Boundary) (a b : Nat) (m : List (List Bool)) (s : State) (o : Option Outstanding)
    (ws : List Word) (r : Option Response) :
    construct bp a b m { s with outstanding := o, stream := ws, resp := r } =
      { construct bp a b m s with outstanding := o, stream := ws, resp := r } := by
  obtain ⟨hdraw, hqueue, hcount⟩ :=
    calDraw_congr (s := s) (t := { s with outstanding := o, stream := ws, resp := r }) rfl rfl
  simp only [construct_eq, hdraw, hqueue, hcount]

/-- The answer of a `NEW.*` replaces what the port held of the last transaction (R93, R121). -/
theorem newEnded_port (i : Instr) (bp : Boundary) (a b : Nat) (cells : List CellSym) (s : State)
    (o : Option Outstanding) (ws : List Word) (r : Option Response) :
    newEnded i bp a b cells { s with outstanding := o, stream := ws, resp := r } = newEnded i bp a b cells s := by
  unfold newEnded
  split
  · split
    · rw [construct_port]; rfl
    · rfl
  · rfl

/-- A `NEW.*` that waits goes on as if its symbols so far were still to come (R90, R94). -/
theorem newGrid_resumed {i : Instr} {bp : Boundary} {a b : Nat} {s : State} {cells : List CellSym}
    {later : List HostAction} (ho : s.outstanding = none) (he : CellSym.eom ∉ cells) :
    newGrid i bp a b
        { s with inbox := later, stream := [], resp := none, outstanding := some { instr := i, cells := cells } } =
      newGrid i bp a b { s with inbox := cells.map .sym ++ later } := by
  have hnone : receivedCells { s with inbox := cells.map .sym ++ later } = [] := by simp only [receivedCells, ho]
  rw [newGrid, newGrid, hnone, collect_append he, List.nil_append]
  split
  · exact newEnded_port i bp a b _ { s with inbox := (collect later).rest } _ _ _
  · rfl

/-- But for a reset, whatever the host does next leaves the port to the command that waits for cells (R90, R261). -/
theorem takeOutstanding_of_noReset {s : State} (hr : noReset s = true) (i : Instr) :
    takeOutstanding i s = exec i s := by
  unfold noReset at hr
  unfold takeOutstanding
  split <;> simp_all

/-- An outstanding `NEW.*` goes on in the next step that is not a reset (R90, R94). -/
theorem step_of_waiting {s : State} {o : Outstanding} (ho : s.outstanding = some o) (hl : o.instr ≠ .live)
    (hr : noReset s = true) : step s = exec o.instr s := by
  unfold step portStep
  rw [ho, ← takeOutstanding_of_noReset hr]
  exact if_neg fun h => hl (emitsStream_iff.1 h)

/-! ### An illegal word -/

theorem takeCommand_illegal {c : Word} {r : Illegal} (hd : decode c = .illegal r) (s : State) :
    takeCommand c s = .next (raise .illegalCommand s) := by
  unfold takeCommand; rw [hd]

theorem takeCommandHeld_illegal {c : Word} {r : Illegal} (hd : decode c = .illegal r) (k : Nat) (s : State) :
    takeCommandHeld c k s = .next (raise .illegalCommand s) := by
  unfold takeCommandHeld; rw [hd]

theorem commandWord_eq_some {a : HostAction} {c : Word} (h : commandWord a = some c) :
    a = .cmd c ∨ ∃ k, a = .cmdHold c k := by
  cases a <;> simp_all [commandWord]

/-- `IllegalCommand` is answered and writes no register (R97, R231). -/
theorem raise_illegalCommand (s : State) :
    raise .illegalCommand s =
      { s with stream := [], resp := some { code := 0x03, data := 0 }, outstanding := none } := rfl

/-- An illegal word is answered before anything else is looked at (R97, R240). -/
theorem step_illegal {s : State} {a : HostAction} {c : Word} {rest : List HostAction} {r : Illegal}
    (ho : s.outstanding = none) (hin : s.inbox = a :: rest) (hc : commandWord a = some c) (hd : decode c = .illegal r) :
    step s = .next (raise .illegalCommand { s with inbox := rest }) := by
  rcases commandWord_eq_some hc with rfl | ⟨k, rfl⟩
  · rw [step_cmd ho hin, takeCommand_illegal hd]
  · rw [step_cmdHold ho hin, takeCommandHeld_illegal hd]

/-! ### The status word -/

/-- The seven fields of the status word stand where R98 puts them. -/
theorem statusWord_fields (s : State) :
    (statusWord s).extractLsb' 0 3 = stateCode s.state ∧ (statusWord s).extractLsb' 3 1 = boundaryCode s.cfg.bp ∧
      (statusWord s).extractLsb' 4 5 = laneCode s.prof.l ∧
      (statusWord s).extractLsb' 9 1 = BitVec.ofBool s.prof.fb ∧ (statusWord s).extractLsb' 10 8 = s.err ∧
      (statusWord s).extractLsb' 18 14 = 0#14 ∧ (statusWord s).extractLsb' 32 32 = s.errChunk := by
  unfold statusWord
  refine ⟨?_, ?_, ?_, ?_, ?_, ?_, ?_⟩ <;>
    simp (disch := decide) only [BitVec.extractLsb'_append_eq_of_le, BitVec.extractLsb'_append_eq_of_add_le,
      BitVec.extractLsb'_eq_self, Nat.reduceSub]

end Sys2Proof.Machine

namespace Sys2Proof.Claims

open Machine

/-- Settles O20: the parser reads a matrix back row by row, and each symbol it reads is one of the matrix it gives. -/
theorem cellStreamSpellsItsMatrix : Obligations.CellStreamSpellsItsMatrix := by
  refine ⟨fun m => parseCells_rows m [.eom], fun cells m heom h => ?_, fun m last hne hcells => ?_⟩
  · exact congrArg (· ++ [.eom]) (rows_of_parseFrom heom h)
  · obtain ⟨bits, rfl⟩ := exists_bits_of_cells hcells
    rw [List.append_assoc, parseCells_rows, parseFrom_cells]
    simpa [parseFrom] using hne

/-- Settles O23: the waiting state holds the symbols taken, and going on reads them first. -/
theorem cellStreamMayArriveInPieces : Obligations.CellStreamMayArriveInPieces := by
  intro s i a b cells later hi ho hin he hr
  obtain ⟨bp, hexec⟩ := exec_new hi
  have hlive : i ≠ .live := by rcases hi with rfl | rfl <;> simp
  refine ⟨_, (hexec s).trans (congrArg _ (newGrid_waits ho hin he)), rfl, ?_⟩
  refine (step_of_waiting (s := { s with
    inbox := later, stream := [], resp := none,
    outstanding := some { instr := i, cells := cells } }) rfl hlive hr).trans ?_
  rw [hexec, hexec, newGrid_resumed ho he]

/-- Settles O7: `raise` writes the response of an illegal word and no register. -/
theorem illegalWordIsAnswered : Obligations.IllegalWordIsAnswered := by
  intro s a c rest r ho hin hc hd
  rw [step_illegal ho hin hc hd, raise_illegalCommand, ho]

/-- Settles O11: the answer is the status word, and its fields are the codes of the registers. -/
theorem statusAnswersStatusWord : Obligations.StatusAnswersStatusWord := by
  intro s hs
  obtain ⟨hstate, hbp, hlane, hfb, herr, hzero, hchunk⟩ := statusWord_fields s
  have hacc : accepts .status s.state = true := by rcases hs with h | h | h <;> rw [h] <;> rfl
  have state {st : EngineState} (h : s.state = st) := hstate.trans (congrArg stateCode h)
  have bp {p : Boundary} (h : s.cfg.bp = p) := hbp.trans (congrArg boundaryCode h)
  have lane {l : Config.LaneWidth} (h : s.prof.l = l) := hlane.trans (congrArg laneCode h)
  have hbit : (statusWord s).getLsbD 9 = s.prof.fb := by
    simpa [BitVec.getLsbD_extractLsb'] using congrArg (·.getLsbD 0) hfb
  exact ⟨statusWord s, if_pos hacc, state, state, state, bp, bp, lane, lane, lane, lane, hbit, herr, hzero, hchunk⟩

end Sys2Proof.Claims
end

section
/-! `GETCELL` and `LIVE` in terms of the cells (R125, R126), and the frame of the four commands that read (R66, R125,
R126, R211, R212). -/

namespace Sys2Proof.Machine

/-! ### A read of the grid -/

theorem withBuffers_eq_next {s t u : State} : withBuffers s u = .next t ↔ s.bufs.isSome = true ∧ u = t := by
  unfold withBuffers
  cases s.bufs <;> simp

theorem exec_getCell {s : State} (hs : s.state = .ready ∨ s.state = .terminated) (hb : s.bufs.isSome = true)
    (x y : Nat) : exec (.getCell x y) s = .next (answerCell x y s) :=
  (if_pos (accepts_read hs x y).1).trans (withBuffers_eq_next.2 ⟨hb, rfl⟩)

theorem answerCell_inside {s : State} {x y : Nat} (hx : x < width s.cfg) (hy : y < height s.cfg) :
    answerCell x y s = respond 0x00 ((BitVec.ofBool (cell s x y)).setWidth 64) s :=
  if_neg (by omega)

theorem answerCell_outside {s : State} {x y : Nat} (h : width s.cfg ≤ x ∨ height s.cfg ≤ y) :
    answerCell x y s = raise .badCoordinate s :=
  if_pos h

/-- `cell(x, y)` as a bit of `Cur[R, C]` (R63). -/
theorem cell_eq_cur (s : State) (x y : Nat) : cell s x y = (cur s (y + 1) (x / 64 + 1)).getLsbD (x % 64) := rfl

/-- A bit as a data word (R125, R129). -/
theorem setWidth_ofBool (b : Bool) : (BitVec.ofBool b).setWidth 64 = if b then 1 else 0 := by
  cases b <;> rfl

/-! ### The coordinate words -/

/-- The coordinates of a live cell fit the fields of its word (R28, R95). -/
theorem coordWord_of_mem_liveCells {s : State} {p : Nat × Nat} (hp : p ∈ liveCells s) :
    (coordWord p.1 p.2).extractLsb' 56 8 = 0 ∧ ((coordWord p.1 p.2).extractLsb' 28 28).toNat = p.1 ∧
      ((coordWord p.1 p.2).extractLsb' 0 28).toNat = p.2 := by
  obtain ⟨hx, hy, -⟩ := (mem_liveCells s p.1 p.2).1 hp
  obtain ⟨hend, ha, hb⟩ := coordWord_fields p.1 p.2
  have hw : width s.cfg < 2 ^ 28 := s.cfg.w.isLt
  have hh : height s.cfg < 2 ^ 28 := s.cfg.h.isLt
  rw [ha, hb, BitVec.toNat_ofNat, BitVec.toNat_ofNat, Nat.mod_eq_of_lt (by omega), Nat.mod_eq_of_lt (by omega)]
  exact ⟨hend, rfl, rfl⟩

theorem endWord_eq : endWord = 0x8000000000000000 := by decide

/-! ### The frame of the commands that read -/

/-- The transaction ended with an answer, and nothing else was written: no register, no word, no draw, no host
action taken (R66). -/
def OnlyAnswered (s t : State) : Prop := t = { s with stream := t.stream, resp := t.resp, outstanding := none }

theorem OnlyAnswered.raise_illegalState (s : State) : OnlyAnswered s (raise .illegalState s) := rfl

theorem OnlyAnswered.answerLive (s : State) : OnlyAnswered s (answerLive s) := rfl

theorem OnlyAnswered.answerCell (x y : Nat) (s : State) : OnlyAnswered s (answerCell x y s) := by
  unfold Machine.answerCell
  split <;> rfl

/-- A command that answers where `STATE` accepts it and refuses elsewhere writes what its answer writes (R240). -/
theorem OnlyAnswered.of_ite {s t u : State} {c : Prop} [Decidable c] (hu : OnlyAnswered s u)
    (h : (if c then .next u else .next (raise .illegalState s) : Host.Outcome State Fault Refusal) = .next t) :
    OnlyAnswered s t := by
  split at h <;> obtain rfl := Host.Outcome.next.inj h
  · exact hu
  · exact .raise_illegalState s

theorem OnlyAnswered.of_withBuffers {s t u : State} {c : Prop} [Decidable c] (hu : OnlyAnswered s u)
    (h : (if c then withBuffers s u else .next (raise .illegalState s)) = .next t) : OnlyAnswered s t := by
  split at h
  · obtain ⟨-, rfl⟩ := withBuffers_eq_next.1 h
    exact hu
  · obtain rfl := Host.Outcome.next.inj h
    exact .raise_illegalState s

/-- What a command that reads can do (R125, R126, R211, R212, R240). -/
theorem exec_read {i : Instr} {s t : State}
    (hi : (∃ x y, i = .getCell x y) ∨ i = .live ∨ i = .getGen ∨ i = .status)
    (h : exec i s = .next t) : OnlyAnswered s t := by
  rcases hi with ⟨x, y, rfl⟩ | rfl | rfl | rfl
  · exact .of_withBuffers (.answerCell x y s) h
  · exact .of_withBuffers (.answerLive s) h
  · exact .of_ite (u := respond 0x00 s.gen s) rfl h
  · exact .of_ite (u := respondStatus s) rfl h

theorem OnlyAnswered.words {s t : State} (h : OnlyAnswered s t) (R C : Nat) :
    cur t R C = cur s R C ∧ nxt t R C = nxt s R C := by
  rw [h]
  exact ⟨rfl, rfl⟩

end Sys2Proof.Machine

namespace Sys2Proof.Claims

open Machine

/-- Settles O15: the stream is the sorted list of the live cells, one word each, and then the end word. -/
theorem liveStreamsTheLiveCells : Obligations.LiveStreamsTheLiveCells := by
  intro s hs hb
  refine ⟨liveCells s, (liveCells s).map fun p => coordWord p.1 p.2, ?_, mem_liveCells s, liveCells_sorted s,
    List.length_map _, fun n p v hp hv => ?_⟩
  · rw [exec_live hs hb, ← endWord_eq]
    rfl
  · rw [List.getElem?_map, hp] at hv
    obtain rfl := Option.some.inj hv
    exact coordWord_of_mem_liveCells (List.mem_of_getElem? hp)

/-- Settles O16: whichever way a reading command answers, it writes the answer alone. -/
theorem readingCommandsChangeNoState : Obligations.ReadingCommandsChangeNoState :=
  fun _ _ _ hi h => ⟨exec_read hi h, (exec_read hi h).words⟩

/-- Settles O13: inside the grid `GETCELL` responds with the bit that `cell(x, y)` names. -/
theorem getCellAnswersCell : Obligations.GetCellAnswersCell := by
  intro s x y hs hb hx hy
  rw [exec_getCell hs hb, answerCell_inside hx hy, setWidth_ofBool, cell_eq_cur]
  rfl

/-- Settles O14: outside the grid `GETCELL` raises `BadCoordinate`, which records nothing. -/
theorem getCellOutsideGridIsBadCoordinate : Obligations.GetCellOutsideGridIsBadCoordinate := by
  intro s x y hs hb h
  rw [exec_getCell hs hb, answerCell_outside h]
  rfl

end Sys2Proof.Claims
end

section
/-! `GHOST` (R127 to R130): its ghost words are a function of the interior, which it leaves alone. -/

namespace Sys2Proof.Machine

/-! ### The frame -/

theorem cur_ghost_interior {s : State} {R C : Nat} (hi : interior (width s.cfg) (height s.cfg) R C = true) :
    cur (ghost s) R C = cur s R C := by
  cases hb : s.bufs with
  | none => simp [cur, currentMemory, ghost, setCurrent, hb]
  | some b => rw [cur_ghost (by simp [hb]), rd_ghost_interior hi]

theorem nxt_ghost (s : State) (R C : Nat) : nxt (ghost s) R C = nxt s R C := by
  unfold nxt
  rw [nextMemory_ghost, ghost_cfg]

/-! ### The words under each policy -/

theorem ghostMemory_dead {g : Cfg} (h : g.bp = .dead) (m : Memory) :
    ghostMemory g m = ghostDead (width g) (height g) m := by
  unfold ghostMemory; rw [h]

theorem ghostMemory_torus {g : Cfg} (h : g.bp = .torus) (m : Memory) :
    ghostMemory g m = ghostTorus (width g) (height g) m := by
  unfold ghostMemory; rw [h]

/-- The left ghost word of row `r` holds the last cell of the row at bit 63 (R129). -/
theorem leftGhost_eq {w : Nat} (hw : 1 ≤ w) (m : Memory) (r : Nat) :
    leftGhost w m r = if cellIn m w (w - 1) r then 0x8000000000000000 else 0 := by
  have hcol : (w - 1) / 64 + 1 = dataWords w := by unfold dataWords; omega
  rw [cellIn_eq, hcol]
  unfold leftGhost
  cases (rd w m (r + 1) (dataWords w)).getLsbD ((w - 1) % 64) <;> rfl

/-- The right ghost word of row `r` holds the first cell of the row at bit 0 (R129). -/
theorem rightGhost_eq (w : Nat) (m : Memory) (r : Nat) : rightGhost w m r = if cellIn m w 0 r then 1 else 0 :=
  setWidth_ofBool _

/-- The side ghost words of row `r` after `GHOST` under `TORUS` (R129 stage a, which stage b leaves alone). -/
theorem rd_ghostTorus_side {w h r : Nat} (hw : 1 ≤ w) (m : Memory) (hm : m.wf = true) (hr : r < h) :
    rd w (ghostTorus w h m) (r + 1) 0 = leftGhost w m r ∧
      rd w (ghostTorus w h m) (r + 1) (wordsPerRow w - 1) = rightGhost w m r := by
  obtain ⟨hleft, hright⟩ := rd_torusSides_side hw m hm hr
  rw [rd_ghostTorus_rows m (wordsPerRow_pos w) (by omega) (by omega),
    rd_ghostTorus_rows m (lastColumn_lt w) (by omega) (by omega)]
  exact ⟨hleft, hright⟩

/-- The ghost rows after `GHOST` under `TORUS` are the opposite rows, ghost columns included (R129 stage b). -/
theorem rd_ghostTorus_ghostRows {w h C : Nat} (hh : 1 ≤ h) (m : Memory) (hm : m.wf = true) (hC : C < wordsPerRow w) :
    rd w (ghostTorus w h m) 0 C = rd w (ghostTorus w h m) h C ∧
      rd w (ghostTorus w h m) (h + 1) C = rd w (ghostTorus w h m) 1 C := by
  rw [rd_ghostTorus_rows m hC (R := h) (by omega) (by omega), rd_ghostTorus_rows m hC (R := 1) (by omega) (by omega)]
  exact rd_ghostTorus_edges hh m hm hC

/-! ### The ghost words as a function of the interior -/

/-- Two buffers of a grid hold the same interior words (R62). -/
def SameInterior (w h : Nat) (m n : Memory) : Prop := ∀ R C, interior w h R C = true → rd w m R C = rd w n R C

theorem SameInterior.torusSides {w h r C : Nat} {m n : Memory} (hmn : SameInterior w h m n) (hw : 1 ≤ w)
    (hm : m.wf = true) (hn : n.wf = true) (hr : r < h) (hC : C < wordsPerRow w) :
    rd w (torusSides w h m) (r + 1) C = rd w (torusSides w h n) (r + 1) C := by
  have hdata : 1 ≤ dataWords w := by unfold dataWords; omega
  have hrow : ∀ C', 1 ≤ C' → C' ≤ dataWords w → rd w m (r + 1) C' = rd w n (r + 1) C' := fun C' h1 h2 =>
    hmn _ _ (interior_iff.2 ⟨by omega, by omega, h1, h2⟩)
  by_cases h0 : C = 0
  · rw [h0, (rd_torusSides_side hw m hm hr).1, (rd_torusSides_side hw n hn hr).1, leftGhost, leftGhost,
      hrow _ hdata (Nat.le_refl _)]
  by_cases h1 : C = wordsPerRow w - 1
  · rw [h1, (rd_torusSides_side hw m hm hr).2, (rd_torusSides_side hw n hn hr).2, rightGhost, rightGhost,
      hrow 1 (Nat.le_refl _) hdata]
  · rw [rd_torusSides_inner m hC h0 h1, rd_torusSides_inner n hC h0 h1]
    exact hrow C (by omega) (by unfold wordsPerRow at hC h1; omega)

/-- What `GHOST` leaves in a buffer depends on the interior of the buffer alone (R127 to R129). -/
theorem SameInterior.ghostMemory {g : Cfg} {R C : Nat} {m n : Memory} (hmn : SameInterior (width g) (height g) m n)
    (hw : 1 ≤ width g) (hh : 1 ≤ height g) (hm : m.wf = true) (hn : n.wf = true) (hR : R < bufferRows (height g))
    (hC : C < wordsPerRow (width g)) :
    rd (width g) (ghostMemory g m) R C = rd (width g) (ghostMemory g n) R C := by
  cases hbp : g.bp with
  | dead =>
    rw [ghostMemory_dead hbp, ghostMemory_dead hbp]
    rcases region_cases hR hC with ⟨hg, -⟩ | ⟨-, hi⟩
    · rw [rd_ghostDead_ghost m hm hg, rd_ghostDead_ghost n hn hg]
    · obtain ⟨h1, h2, h3, h4⟩ := interior_iff.1 hi
      have hlast : C ≠ wordsPerRow (width g) - 1 := by unfold wordsPerRow; omega
      rw [rd_ghostDead_inner m hC (by omega) (by omega) (by omega) hlast,
        rd_ghostDead_inner n hC (by omega) (by omega) (by omega) hlast]
      exact hmn R C hi
  | torus =>
    rw [ghostMemory_torus hbp, ghostMemory_torus hbp, rd_ghostTorus_mirror hh m hm hR hC,
      rd_ghostTorus_mirror hh n hn hR hC]
    exact hmn.torusSides hw hm hn (mirrorRow_lt hh hR) hC

/-- `GHOST` leaves the interior of a buffer alone (R130). -/
theorem sameInterior_ghostMemory (g : Cfg) (m : Memory) : SameInterior (width g) (height g) (ghostMemory g m) m := by
  intro R C hi
  obtain ⟨h1, h2, h3, h4⟩ := interior_iff.1 hi
  exact rd_ghostMemory_inner m (by unfold wordsPerRow; omega) (by omega) (by omega) (by omega)
    (by unfold wordsPerRow; omega)

/-- The words of `current` after `GHOST` has run twice. -/
theorem cur_ghost_ghost {s : State} (hb : s.bufs.isSome = true) (R C : Nat) :
    cur (ghost (ghost s)) R C =
      rd (width s.cfg) (ghostMemory s.cfg (ghostMemory s.cfg (currentMemory s))) R C := by
  rw [cur_ghost (by rwa [ghost_bufs_isSome]), currentMemory_ghost hb, ghost_cfg]

end Sys2Proof.Machine

namespace Sys2Proof.Claims

open Machine

/-- Settles O26: `GHOST` writes the ghost region of `current` only. -/
theorem ghostKeepsInteriorAndNext : Obligations.GhostKeepsInteriorAndNext :=
  fun s R C => ⟨cur_ghost_interior, nxt_ghost s R C⟩

/-- Settles O27: under `DEAD` every word of the ghost region is written with 0. -/
theorem ghostUnderDeadIsZero : Obligations.GhostUnderDeadIsZero := by
  intro s R C hbp hb hwf hg
  rw [cur_ghost hb, ghostMemory_dead hbp, rd_ghostDead_ghost _ hwf hg]

/-- Settles O28: stage a writes the side words from the edge cells, stage b copies whole rows. -/
theorem ghostUnderTorusMirrorsEdges : Obligations.GhostUnderTorusMirrorsEdges := by
  intro s hbp hb hwf hw hh
  simp only [cur_ghost hb, ghostMemory_torus hbp]
  refine ⟨fun r hr => ?_, fun C hC => rd_ghostTorus_ghostRows hh _ hwf hC⟩
  obtain ⟨hleft, hright⟩ := rd_ghostTorus_side hw (currentMemory s) hwf hr
  exact ⟨hleft.trans (leftGhost_eq hw _ r), hright.trans (rightGhost_eq _ _ r)⟩

/-- Settles O29: `GHOST` establishes the extended cell function in the buffer it runs on. -/
theorem ghostEstablishesExtendedCells : Obligations.GhostEstablishesExtendedCells := by
  intro s hb hwf hw hh R hR
  simp only [cur_ghost hb]
  exact ghostMemory_ext hwf hw hh hR

/-- Settles O30: the second `GHOST` meets the interior that the first one met. -/
theorem ghostIsIdempotent : Obligations.GhostIsIdempotent := by
  intro s hb hwf hw hh R C hR hC
  rw [cur_ghost_ghost hb, cur_ghost hb]
  exact (sameInterior_ghostMemory s.cfg _).ghostMemory hw hh (wf_ghostMemory _ _ hwf) hwf hR hC

end Sys2Proof.Claims
end

section
/-! `NEW.DEAD` and `NEW.TORUS` whose cell stream has ended: the grid that a valid matrix gives (R121 to R123), and the
`ConfigurationError` of any other (R124, R232). -/

namespace Sys2Proof.Machine

/-! ### The two ends of a `NEW.*` -/

theorem accepts_new {i : Instr} {a b : Nat} (hi : i = .newDead a b ∨ i = .newTorus a b) :
    accepts i .uninitialized = true := by
  rcases hi with rfl | rfl <;> rfl

theorem newEnded_valid {i : Instr} {bp : Boundary} {a b : Nat} {cells : List CellSym} {m : List (List Bool)}
    {s : State} (hacc : accepts i s.state = true) (hp : parseCells cells = (m, false))
    (hv : validMatrix s.hw.cap a b m false = true) :
    newEnded i bp a b cells s = respondStatus (construct bp a b m s) := by
  rw [newEnded, if_pos hacc, hp, if_pos hv]

theorem newEnded_invalid {i : Instr} {bp : Boundary} {a b : Nat} {cells : List CellSym} {m : List (List Bool)}
    {trailing : Bool} {s : State} (hacc : accepts i s.state = true) (hp : parseCells cells = (m, trailing))
    (hv : ¬ validMatrix s.hw.cap a b m trailing = true) : newEnded i bp a b cells s = raise .configuration s := by
  rw [newEnded, if_pos hacc, hp, if_neg hv]

/-- The stream of a valid matrix makes a `NEW.*` in `Uninitialized` build the grid (R94, R121). -/
theorem newGrid_constructs {i : Instr} {bp : Boundary} {a b : Nat} {m : List (List Bool)} {rest : List HostAction}
    {s : State} (hi : i = .newDead a b ∨ i = .newTorus a b) (hs : s.state = .uninitialized)
    (ho : s.outstanding = none) (hv : validMatrix s.hw.cap a b m false = true)
    (hin : s.inbox = (matrixStream m).map .sym ++ rest) :
    newGrid i bp a b s = respondStatus (construct bp a b m { s with inbox := rest }) := by
  have hin' : s.inbox = (m.flatMap rowStream).map .sym ++ .sym .eom :: rest := by simp [hin, matrixStream]
  have hp : parseCells (m.flatMap rowStream) = (m, false) := by
    simpa [parseFrom] using parseCells_rows m []
  rw [newGrid_ended ho hin' (eom_not_mem_rows m)]
  exact newEnded_valid (hs ▸ accepts_new hi) hp hv

/-- An ended stream whose matrix is not valid makes a `NEW.*` in `Uninitialized` raise `ConfigurationError` (R124). -/
theorem newGrid_malformed {i : Instr} {bp : Boundary} {a b : Nat} {cells : List CellSym} {m : List (List Bool)}
    {trailing : Bool} {rest : List HostAction} {s : State} (hi : i = .newDead a b ∨ i = .newTorus a b)
    (hs : s.state = .uninitialized) (ho : s.outstanding = none)
    (hin : s.inbox = cells.map .sym ++ .sym .eom :: rest) (he : CellSym.eom ∉ cells)
    (hp : parseCells cells = (m, trailing)) (hv : ¬ validMatrix s.hw.cap a b m trailing = true) :
    newGrid i bp a b s = raise .configuration { s with inbox := rest } := by
  rw [newGrid_ended ho hin he]
  exact newEnded_invalid (hs ▸ accepts_new hi) hp hv

/-! ### Validation -/

theorem validMatrix_of_rows {cap : Option Nat} {a b : Nat} {m : List (List Bool)} (ha : 1 ≤ a) (hb : 1 ≤ b)
    (hlen : m.length = b) (hrows : ∀ row ∈ m, row.length = a) (hfits : fitsCapacity cap a b = true) :
    validMatrix cap a b m false = true :=
  validMatrix_iff.2 ⟨by omega, by omega, hlen, hrows, rfl, hfits⟩

/-- The capacity that a grid exceeds, with the size of a buffer written out (R5, R124 (vi)). -/
theorem fitsCapacity_eq_false {cap : Option Nat} {a b : Nat}
    (h : ∃ n, cap = some n ∧ n < ((a + 63) / 64 + 2) * (b + 2)) : fitsCapacity cap a b = false := by
  obtain ⟨n, rfl, hn⟩ := h
  exact decide_eq_false (Nat.not_le.2 hn)

/-- Each failing condition of R124 makes the matrix invalid. -/
theorem not_validMatrix {cap : Option Nat} {a b : Nat} {m : List (List Bool)} {trailing : Bool}
    (h : a = 0 ∨ b = 0 ∨ m.length ≠ b ∨ (∃ row ∈ m, row.length ≠ a) ∨ trailing = true ∨
      (∃ n, cap = some n ∧ n < ((a + 63) / 64 + 2) * (b + 2))) : ¬ validMatrix cap a b m trailing = true := by
  rw [validMatrix_iff]
  rintro ⟨ha, hb, hlen, hrows, htrailing, hfits⟩
  rcases h with h | h | h | ⟨row, hrow, h⟩ | h | h
  · exact ha h
  · exact hb h
  · exact h hlen
  · exact h (hrows row hrow)
  · simp [htrailing] at h
  · simp [fitsCapacity_eq_false h] at hfits

/-! ### The constructed grid, field by field -/

/-- A calibration draw comes from the queue while it lasts (log 4). -/
theorem dropCalDraw_calDraws (s : State) : (dropCalDraw s).calDraws = s.calDraws.tail := by
  unfold dropCalDraw
  split <;> simp [*]

theorem dropCalDraw_drawCount (s : State) :
    (dropCalDraw s).drawCount = s.drawCount + if s.calDraws = [] then 1 else 0 := by
  unfold dropCalDraw
  split <;> simp [*]

/-- The cells of `BUF[0]` after construction are those of the matrix (R63, R121 step 4). -/
theorem cellIn_buildMemory {w x y : Nat} {m : List (List Bool)} (hr : ∀ row ∈ m, row.length = w) (hx : x < w) :
    cellIn (buildMemory w m) w x y = (m.getD y []).getD x false := by
  have hcol := dataColumn_lt hx
  have hbit : 64 * (x / 64 + 1 - 1) + x % 64 = x := by omega
  rw [cellIn_eq, getLsbD_buildMemory hr (by unfold wordsPerRow; omega) (Nat.mod_lt _ (by decide)), hbit]
  simp

theorem length_getD_le {w : Nat} {m : List (List Bool)} (hr : ∀ row ∈ m, row.length = w) (y : Nat) :
    (m.getD y []).length ≤ w := by
  by_cases hy : y < m.length
  · rw [List.getD_eq_getElem _ _ hy, hr _ (List.getElem_mem hy)]
  · rw [List.getD_eq_default _ _ (by omega)]
    exact Nat.zero_le w

/-- Construction leaves the ghost region of `BUF[0]` zero, whatever the policy (R121 step 4, D35). -/
theorem rd_buildMemory_ghost {w h R C : Nat} {m : List (List Bool)} (hh : m.length = h)
    (hr : ∀ row ∈ m, row.length = w) (hg : ghostRegion w h R C = true) : rd w (buildMemory w m) R C = 0 := by
  obtain ⟨-, hC, hedge⟩ := ghostRegion_iff.1 hg
  apply BitVec.eq_of_getLsbD_eq
  intro n hn
  rw [getLsbD_buildMemory hr hC hn]
  rcases hedge with rfl | rfl | rfl | rfl
  · simp
  · simp [← hh]
  · simp
  · have hrow := length_getD_le hr (R - 1)
    have hout : w ≤ 64 * (wordsPerRow w - 1 - 1) + n := by unfold wordsPerRow dataWords; omega
    rw [List.getD_eq_default _ _ (by omega)]
    simp

/-- What a successful `NEW(bp)` leaves (R121 steps 2 to 8). -/
theorem constructed_respondStatus {bp : Boundary} {w h : Nat} {m : List (List Bool)} {rest : List HostAction}
    {s : State} (hw : w < 2 ^ 28) (hh : h < 2 ^ 28) (hv : validMatrix s.hw.cap w h m false = true) :
    Claims.Constructed bp w h m rest s (respondStatus (construct bp w h m { s with inbox := rest })) := by
  obtain ⟨-, -, hlen, hrows, -, -⟩ := validMatrix_iff.1 hv
  have hbuilt := built_construct (bp := bp) (s := { s with inbox := rest }) hw hh hv
  obtain ⟨hdraw, hqueue, hcount⟩ := calDraw_congr (s := s) (t := { s with inbox := rest }) rfl rfl
  have hwidth : (BitVec.ofNat 28 w).toNat = w := (BitVec.toNat_ofNat w 28).trans (Nat.mod_eq_of_lt hw)
  have hheight : (BitVec.ofNat 28 h).toNat = h := (BitVec.toNat_ofNat h 28).trans (Nat.mod_eq_of_lt hh)
  rw [construct_eq, hdraw, hqueue, hcount, dropCalDraw_calDraws, dropCalDraw_drawCount] at hbuilt ⊢
  exact
    { state := rfl
      gen := rfl
      sel := rfl
      width := hwidth
      height := hheight
      bp := rfl
      prof := rfl
      err := rfl
      errChunk := rfl
      bufs := rfl
      cells := fun x y hx _ => (congrArg (cellIn (buildMemory w m) · x y) hwidth).trans (cellIn_buildMemory hrows hx)
      padding := hbuilt.padding
      ghost := fun R C hg =>
        (congrArg (rd · (buildMemory w m) R C) hwidth).trans (rd_buildMemory_ghost hlen hrows hg)
      next := fun _ _ => rfl
      inbox := rfl
      outstanding := rfl
      stream := rfl
      resp := rfl
      seq := rfl
      hw := rfl
      calDraws := rfl
      workerDraws := rfl
      drawCount := rfl }

/-- A `NEW(bp)` of a valid matrix in `Uninitialized` constructs the grid of the matrix (R121). -/
theorem exec_new_constructs {i : Instr} {bp : Boundary} {w h : Nat} {m : List (List Bool)} {rest : List HostAction}
    {s : State} (hi : i = .newDead w h ∨ i = .newTorus w h) (hexec : exec i s = .next (newGrid i bp w h s))
    (hwf : WellFormed i = true) (hs : s.state = .uninitialized) (ho : s.outstanding = none)
    (hv : validMatrix s.hw.cap w h m false = true) (hin : s.inbox = (matrixStream m).map .sym ++ rest) :
    ∃ t, exec i s = .next t ∧ Claims.Constructed bp w h m rest s t := by
  obtain ⟨hw, hh⟩ := new_operands_lt hi hwf
  rw [hexec, newGrid_constructs hi hs ho hv hin]
  exact ⟨_, rfl, constructed_respondStatus hw hh hv⟩

end Sys2Proof.Machine

namespace Sys2Proof.Claims

open Machine

/-- Settles O18: the matrix is valid, and construction writes it under `DEAD`. -/
theorem newDeadConstructsGrid : Obligations.NewDeadConstructsGrid :=
  fun _ _ _ _ _ hwf hs ho hw hh hlen hrows hfits hin =>
    exec_new_constructs (.inl rfl) rfl hwf hs ho (validMatrix_of_rows hw hh hlen hrows hfits) hin

/-- Settles O19: the matrix is valid, and construction writes it under `TORUS`. -/
theorem newTorusConstructsGrid : Obligations.NewTorusConstructsGrid :=
  fun _ _ _ _ _ hwf hs ho hw hh hlen hrows hfits hin =>
    exec_new_constructs (.inr rfl) rfl hwf hs ho (validMatrix_of_rows hw hh hlen hrows hfits) hin

/-- Settles O21: each of the conditions makes the matrix invalid, and `ConfigurationError` records `ERR` alone. -/
theorem malformedMatrixIsConfigurationError : Obligations.MalformedMatrixIsConfigurationError := by
  intro s i a b cells m trailing rest hi hs ho hin he hp hbad
  obtain ⟨bp, hexec⟩ := exec_new hi
  rw [hexec, newGrid_malformed hi hs ho hin he hp (not_validMatrix hbad)]
  rfl

end Sys2Proof.Claims
end

section
/-! The hardware profile: what `DETECT` selects (R150), and that a successful `NEW.*` alone writes `PROF` and `CFG`
(R28, R151). -/

namespace Sys2Proof.Machine

open Sys2Proof.Config

/-! ### What `DETECT` selects -/

theorem scalarOnly_iff {ls : LaneSet} :
    scalarOnly ls = true ↔ ls = { has4 := false, has8 := false, has16 := false } := by
  cases ls
  simp [scalarOnly, and_assoc]

/-- Nothing wider than the scalar width is exposed, or calibration errs: width 1 and the fallback flag. -/
theorem profileOf_fallback {ls : LaneSet} {d : CalDraw}
    (h : ls = { has4 := false, has8 := false, has16 := false } ∨ d.calError = true) :
    profileOf ls d = { l := .x1, fb := true } := by
  rw [← scalarOnly_iff] at h
  exact if_pos (Bool.or_eq_true_iff.2 h)

/-- A wider width is exposed and calibration does not err: the width drawn and no flag. -/
theorem profileOf_measured {ls : LaneSet} {d : CalDraw}
    (hls : ls ≠ { has4 := false, has8 := false, has16 := false }) (hd : d.calError = false) :
    profileOf ls d = { l := bestLane ls d.pick, fb := false } := by
  have hscalar : scalarOnly ls = false := Bool.eq_false_iff.2 (mt scalarOnly_iff.1 hls)
  simp [profileOf, hscalar, hd]

/-- An exposed width is drawn by its place in `laneList`. -/
theorem exists_bestLane {ls : LaneSet} {l : LaneWidth} (hl : l ∈ laneList ls) : ∃ pick, bestLane ls pick = l := by
  obtain ⟨n, hn, rfl⟩ := List.getElem_of_mem hl
  exact ⟨n, by simp [bestLane, Nat.mod_eq_of_lt hn, List.getElem?_eq_getElem hn]⟩

/-- `DETECT` writes `PROF` and uses up a calibration draw (R150; log 4). -/
theorem detect_frame (s : State) :
    detect s =
      { s with
        prof := (detect s).prof, calDraws := (detect s).calDraws, drawCount := (detect s).drawCount } := by
  unfold detect
  rw [dropCalDraw_eq]

/-! ### What writes `PROF` and `CFG` -/

/-- `PROF` and `CFG` stay as they are, or a `NEW.*` writes them on the way from `Uninitialized` to `Ready`
(R28, R151). -/
def ConfiguresOnce (s t : State) : Prop :=
  (t.prof = s.prof ∧ t.cfg = s.cfg) ∨
    (s.state = .uninitialized ∧ t.state = .ready ∧ t.resp.map (·.code) = some 0x00 ∧
      t.prof = profileOf s.hw.lanes (calDraw s))

theorem ConfiguresOnce.of_inbox {s t : State} {l : List HostAction} (h : ConfiguresOnce { s with inbox := l } t) :
    ConfiguresOnce s t := h

theorem OnlyPort.configuresOnce {s t : State} (h : OnlyPort s t) : ConfiguresOnce s t := by
  obtain ⟨-, -, -, hcfg, hprof, -⟩ := h.same
  exact .inl ⟨hprof, hcfg⟩

/-- A successful `NEW.*` takes `PROF` from the calibration draw (R121 steps 5 to 8). -/
theorem configuresOnce_construct {bp : Boundary} {a b : Nat} {m : List (List Bool)} {s : State}
    (hs : s.state = .uninitialized) (l : List HostAction) :
    ConfiguresOnce s (respondStatus (construct bp a b m { s with inbox := l })) := by
  rw [construct_eq]
  exact .inr ⟨hs, rfl, rfl, rfl⟩

theorem Effect.configuresOnce {i : Instr} {s t : State} (h : Effect i s t) : ConfiguresOnce s t := by
  cases h with
  | answered hp => exact hp.configuresOnce
  | waits hp => exact hp.configuresOnce
  | malformed _ ht => exact ht ▸ .inl ⟨rfl, rfl⟩
  | built hs a b bp m _ _ ht => rw [ht]; exact configuresOnce_construct hs _
  | stepped _ _ _ hb ht =>
    have hframe : StepFrame s t := ht ▸ (stepGrid_end hb).frame
    exact .inl ⟨hframe.prof, hframe.cfg⟩

theorem Ran.configuresOnce {i : Instr} {s t : State} (h : Ran i s t) : ConfiguresOnce s t := by
  cases h with
  | whole he => exact (exec_effect he).configuresOnce
  | held n _ _ _ _ ht => exact ht ▸ (holdStream_onlyPort .live n s).configuresOnce

theorem StepCase.configuresOnce {s t : State} (h : StepCase s t) : ConfiguresOnce s t := by
  cases h with
  | waits ht => exact ht ▸ .inl ⟨rfl, rfl⟩
  | illegal _ _ _ _ _ _ _ _ ht => exact ht ▸ .inl ⟨rfl, rfl⟩
  | command _ _ _ _ _ _ _ _ ht => exact ht.configuresOnce.of_inbox
  | cells _ _ _ ht => exact (exec_effect ht).configuresOnce
  | words _ _ _ _ _ _ ht => exact ht.configuresOnce.of_inbox

end Sys2Proof.Machine

namespace Sys2Proof.Claims

open Machine

/-- Settles O24: the fallback and the measured width are the two branches of `profileOf`, and a draw that names the
place of a width selects it. -/
theorem calibrationSelectsExposedWidth : Obligations.CalibrationSelectsExposedWidth := by
  refine ⟨fun s h => profileOf_fallback h, fun s hls hd => ⟨?_, ?_⟩, fun ls l hls hl => ?_, detect_frame⟩
  · rw [detect_prof, profileOf_measured hls hd]
  · exact (mem_laneList_profileOf s.hw.lanes (calDraw s)).1
  · obtain ⟨pick, hpick⟩ := exists_bestLane hl
    exact ⟨{ calError := false, pick := pick }, by rw [profileOf_measured hls rfl, hpick]⟩

/-- Settles O25: in every case of `StepCase` but a successful `NEW.*` the two registers stay as they are. -/
theorem profileAndConfigurationAreWrittenOnce : Obligations.ProfileAndConfigurationAreWrittenOnce :=
  fun _ _ _ hr hst => (step_cases hr hst).configuresOnce

end Sys2Proof.Claims
end

section
/-! The neighbour counter (R160 to R180): the adder network counts the ones among the eight masks, `RULE` decides by
that count, and after `GHOST` the masks hold the eight neighbours of a cell. -/

namespace Sys2Proof.Machine

open Sys2Proof.Config

/-! ### What the adder cells and the adder network count -/

theorem halfAdd_counts (a b : Word) (n : Nat) :
    ((halfAdd a b).1.getLsbD n).toNat + 2 * ((halfAdd a b).2.getLsbD n).toNat =
      (a.getLsbD n).toNat + (b.getLsbD n).toNat := by
  obtain ⟨hsum, hcarry⟩ := halfAdd_bits a b n
  rw [hsum, hcarry]
  cases a.getLsbD n <;> cases b.getLsbD n <;> rfl

theorem fullAdd_counts (a b c : Word) (n : Nat) :
    ((fullAdd a b c).1.getLsbD n).toNat + 2 * ((fullAdd a b c).2.getLsbD n).toNat =
      (a.getLsbD n).toNat + (b.getLsbD n).toNat + (c.getLsbD n).toNat := by
  obtain ⟨hsum, hcarry⟩ := fullAdd_bits a b c n
  rw [hsum, hcarry]
  cases a.getLsbD n <;> cases b.getLsbD n <;> cases c.getLsbD n <;> rfl

/-- The number of ones among the eight masks at bit `n` (R170). -/
def onesAt (d : Masks) (n : Nat) : Nat :=
  (d.nw.getLsbD n).toNat + (d.n.getLsbD n).toNat + (d.ne.getLsbD n).toNat + (d.wd.getLsbD n).toNat +
    (d.e.getLsbD n).toNat + (d.sw.getLsbD n).toNat + (d.s.getLsbD n).toNat + (d.se.getLsbD n).toNat

theorem onesAt_le (d : Masks) (n : Nat) : onesAt d n ≤ 8 := by
  have hbit (v : Word) : (v.getLsbD n).toNat ≤ 1 := Bool.toNat_le _
  have := hbit d.nw
  have := hbit d.n
  have := hbit d.ne
  have := hbit d.wd
  have := hbit d.e
  have := hbit d.sw
  have := hbit d.s
  have := hbit d.se
  unfold onesAt
  omega

/-- The number that the planes spell at bit `n`, plane `i` with the weight `2^i` (R33). -/
def planeValue (p : AdderNets) (n : Nat) : Nat :=
  (p.p0.getLsbD n).toNat + 2 * (p.p1.getLsbD n).toNat + 4 * (p.p2.getLsbD n).toNat + 8 * (p.p3.getLsbD n).toNat

/-- Each cell of the network keeps the weighted sum of the bits that pass through it (R167), so the planes spell the
number of ones that enter (R170). -/
theorem planeValue_addNet (d : Masks) (n : Nat) : planeValue (addNet d) n = onesAt d n := by
  have ht : ((addNet d).t0.getLsbD n).toNat + 2 * ((addNet d).t1.getLsbD n).toNat = _ := fullAdd_counts d.nw d.n d.ne n
  have hb : ((addNet d).b0.getLsbD n).toNat + 2 * ((addNet d).b1.getLsbD n).toNat = _ := fullAdd_counts d.sw d.s d.se n
  have hm : ((addNet d).m0.getLsbD n).toNat + 2 * ((addNet d).m1.getLsbD n).toNat = _ := halfAdd_counts d.wd d.e n
  have hp : ((addNet d).p0.getLsbD n).toNat + 2 * ((addNet d).k1.getLsbD n).toNat = _ :=
    fullAdd_counts (addNet d).t0 (addNet d).b0 (addNet d).m0 n
  have hu : ((addNet d).u0.getLsbD n).toNat + 2 * ((addNet d).u1.getLsbD n).toNat = _ :=
    fullAdd_counts (addNet d).t1 (addNet d).b1 (addNet d).m1 n
  have hq : ((addNet d).p1.getLsbD n).toNat + 2 * ((addNet d).v.getLsbD n).toNat = _ :=
    halfAdd_counts (addNet d).u0 (addNet d).k1 n
  have hz : ((addNet d).p2.getLsbD n).toNat + 2 * ((addNet d).p3.getLsbD n).toNat = _ :=
    halfAdd_counts (addNet d).u1 (addNet d).v n
  unfold planeValue onesAt
  omega

/-! ### What `RULE` decides -/

/-- `RULE` at a bit of a real cell, plane by plane; with three planes `P3` is not looked at (R175, R176). -/
theorem getLsbD_ruleWord {planes : PlaneCount} {p : AdderNets} {x valid : Word} {n : Nat}
    (hv : valid.getLsbD n = true) :
    (ruleWord planes p x valid).getLsbD n =
      (p.p1.getLsbD n && !p.p2.getLsbD n && (decide (planes = .three) || !p.p3.getLsbD n) &&
        (p.p0.getLsbD n || x.getLsbD n)) := by
  have hn : n < 64 := BitVec.lt_of_getLsbD hv
  cases planes <;> simp [ruleWord, hv, hn, -BitVec.getLsbD_eq_getElem]

/-- The planes that spell 3, or spell 2 where the cell is alive (R172, R175). -/
theorem spells_three_or_two_iff (b0 b1 b2 b3 alive : Bool) :
    (b0.toNat + 2 * b1.toNat + 4 * b2.toNat + 8 * b3.toNat = 3 ∨
        (b0.toNat + 2 * b1.toNat + 4 * b2.toNat + 8 * b3.toNat = 2 ∧ alive = true)) ↔
      (b1 && !b2 && !b3 && (b0 || alive)) = true := by
  revert b0 b1 b2 b3 alive
  decide

/-- A count of at most 8 has no one in `P1` beside a one in `P3`, so `RULE` needs no `P3` (R176). -/
theorem p3_eq_false_of_p1 {p : AdderNets} {n : Nat} (hle : planeValue p n ≤ 8) (h1 : p.p1.getLsbD n = true) :
    p.p3.getLsbD n = false := by
  rw [Bool.eq_false_iff]
  intro h3
  simp [planeValue, h1, h3] at hle

/-- `RULE` decides by the number that the planes spell (R172). -/
theorem ruleWord_iff_planeValue {planes : PlaneCount} {p : AdderNets} {x valid : Word} {n : Nat}
    (hv : valid.getLsbD n = true) (hle : planeValue p n ≤ 8) :
    (ruleWord planes p x valid).getLsbD n = true ↔
      planeValue p n = 3 ∨ (planeValue p n = 2 ∧ x.getLsbD n = true) := by
  have hspell := spells_three_or_two_iff (p.p0.getLsbD n) (p.p1.getLsbD n) (p.p2.getLsbD n) (p.p3.getLsbD n)
    (x.getLsbD n)
  rw [getLsbD_ruleWord hv, planeValue, hspell]
  cases h1 : p.p1.getLsbD n with
  | false => simp
  | true => simp [p3_eq_false_of_p1 hle h1]

end Sys2Proof.Machine

namespace Sys2Proof.Claims

open Machine

/-- Settles O31: the two cells are defined so, and each counts its inputs. -/
theorem adderCellsCountOnes : Obligations.AdderCellsCountOnes :=
  fun a b c n => ⟨rfl, rfl, halfAdd_counts a b n, fullAdd_counts a b c n⟩

/-- Settles O32: every adder cell keeps the weighted sum of its bits. -/
theorem adderNetworkCountsNeighbours : Obligations.AdderNetworkCountsNeighbours :=
  planeValue_addNet

/-- Settles O33: the planes spell the number of ones, which is at most 8, and `RULE` decides by it. -/
theorem ruleIsBirthOnThreeSurvivalOnTwoOrThree : Obligations.RuleIsBirthOnThreeSurvivalOnTwoOrThree := by
  rintro planes d x valid n k hv rfl
  have hle : planeValue (addNet d) n ≤ 8 := planeValue_addNet d n ▸ onesAt_le d n
  have hrule := ruleWord_iff_planeValue (planes := planes) (x := x) hv hle
  rwa [planeValue_addNet] at hrule

/-- Settles O34: bit `n` of `VALID(j)` is the comparison. -/
theorem validMaskMarksRealCells : Obligations.ValidMaskMarksRealCells := by
  intro w j n _ hj hn
  rw [getLsbD_validMask hj hn, decide_eq_true_eq]

/-- Settles O35: the masks of row `y` are the horizontal neighbours of `x` in the buffer rows `y`, `y + 1` and
`y + 2`, which hold the grid rows `y - 1`, `y` and `y + 1`. -/
theorem directionMasksHoldNeighbours : Obligations.DirectionMasksHoldNeighbours := by
  rintro s x y d h hs hx hy rfl
  obtain ⟨hw, hh, -, hbufs, ⟨hwf, -⟩, -, hpad⟩ := h.built hs
  obtain ⟨hnw, hn, hne⟩ := row_neighbours hwf hpad hw hh (R := y) (by omega) hx
  obtain ⟨hwd, -, he⟩ := row_neighbours hwf hpad hw hh (R := y + 1) (by omega) hx
  obtain ⟨hsw, hs', hse⟩ := row_neighbours hwf hpad hw hh (R := y + 2) (by omega) hx
  have hmid : ((y + 1 : Nat) : Int) - 1 = y := by omega
  have hbelow : ((y + 2 : Nat) : Int) - 1 = y + 1 := by omega
  rw [hmid] at hwd he
  rw [hbelow] at hsw hs' hse
  rw [currentMemory_ghost hbufs]
  exact ⟨hnw, hn, hne, hwd, he, hsw, hs', hse⟩

/-- Settles O36: the batch at `batchStart` holds the word, stays inside the row, and is the only one that holds it. -/
theorem batchesCoverRowOnce : Obligations.BatchesCoverRowOnce := by
  intro nd j l hj
  obtain ⟨hle, hlt⟩ := batchStart_spec (nd := nd) (j := j) (laneNat_pos l)
  exact ⟨batchStart nd (laneNat l) j, ⟨hle, hlt, batchLength_fits (hle.trans_lt hj)⟩,
    fun _ => batchStart_unique⟩

end Sys2Proof.Claims
end

section
/-! How a `STEP` ends (R203, R204): the partition of the rows (R200, R201), the registers at the join, the commit and
the failure path field by field, and the draws that are left. -/

namespace Sys2Proof.Machine

open Sys2Proof.Config Claims

/-! ### The partition -/

/-- A chunk has `floor(H / T)` rows or one more (R200). -/
theorem chunk_rows {h t : Nat} (ht : 1 ≤ t) (c : Nat) :
    h / t ≤ chunkHi h t c - chunkLo h t c ∧ chunkHi h t c - chunkLo h t c ≤ h / t + 1 := by
  unfold chunkHi chunkLo
  rw [Nat.add_one_mul, Nat.add_div ht, Nat.add_assoc, Nat.add_sub_cancel_left]
  split <;> omega

/-- The initial `PEND` of one chunk and of no other holds a word of the grid (R201). -/
theorem existsUnique_chunkWords {nd h t r j : Nat} (ht : 1 ≤ t) (hr : r < h) (hj : j < nd) :
    ∃ c, c < t ∧ (r, j) ∈ chunkWords nd h t c ∧ ∀ c', c' < t → (r, j) ∈ chunkWords nd h t c' → c' = c := by
  obtain ⟨c, hc, hrow⟩ := exists_chunk ht hr
  exact ⟨c, hc, mem_chunkWords.2 ⟨hrow, hj⟩, fun c' _ hmem => chunk_unique (mem_chunkWords.1 hmem).1 hrow⟩

/-! ### The draws that are left -/

/-- A worker draw comes from the queue while it lasts (log 4). -/
theorem dropWorkerDraw_workerDraws (s : State) : (dropWorkerDraw s).workerDraws = s.workerDraws.tail := by
  unfold dropWorkerDraw
  split <;> simp [*]

theorem dropWorkerDraw_drawCount (s : State) :
    (dropWorkerDraw s).drawCount = s.drawCount + if s.workerDraws = [] then 1 else 0 := by
  unfold dropWorkerDraw
  split <;> simp [*]

/-! ### The registers after a `STEP` -/

theorem exec_step {s : State} (h : StepAccepted s) : exec .step s = .next (stepGrid s) := by
  obtain ⟨hready, hgen, hbufs⟩ := h
  show execStep s = _
  unfold execStep
  rw [if_pos (by rw [hready]; rfl), if_neg hgen, withBuffers_eq_next]
  exact ⟨hbufs, rfl⟩

theorem eq_stepGrid {s t : State} (h : StepAccepted s) (ht : exec .step s = .next t) : t = stepGrid s :=
  Host.Outcome.next.inj (ht.symm.trans (exec_step h))

theorem noFailure_iff {s : State} (hb : s.bufs.isSome = true) :
    NoFailure s ↔ ∀ q ∈ (stepRun (workerDraw s) s).workers, q.fail = false := by
  unfold NoFailure
  rw [joinWorkers_eq _ hb]

/-- The commit writes `SEL`, `GEN`, `STATE` and the port, and the transient registers go (R203). -/
theorem advanced_stepGrid {s : State} (hb : s.bufs.isSome = true) (hf : NoFailure s) : Advanced s (stepGrid s) := by
  have hnone := lowestFailed_none_iff.2 ((noFailure_iff hb).1 hf)
  unfold stepGrid
  rw [commit_advanced (by rwa [dropWorkerDraw_bufs]) (by rwa [stepRun_drop])]
  constructor <;> simp [dropWorkerDraw_workerDraws, dropWorkerDraw_drawCount]

/-- `ERRCHUNK` has room for every chunk index, so the response names the chunk itself (R32, R231). -/
theorem setWidth_ofNat_of_lt {c : Nat} (hc : c < 2 ^ 32) : (BitVec.ofNat 32 c).setWidth 64 = BitVec.ofNat 64 c := by
  apply BitVec.eq_of_toNat_eq
  rw [BitVec.toNat_setWidth, BitVec.toNat_ofNat, BitVec.toNat_ofNat, Nat.mod_eq_of_lt hc]

/-- The failure path writes `STATE`, `ERR`, `ERRCHUNK` and the port, and the transient registers go (R204). -/
theorem failed_stepGrid {s : State} {c : Nat} (hb : s.bufs.isSome = true) (hc : c < 2 ^ 32)
    (hf : (stepRun (workerDraw s) s).workers.findIdx? (·.fail) = some c) : Failed c s (stepGrid s) := by
  unfold stepGrid
  rw [commit_failed (by rwa [dropWorkerDraw_bufs]) (by rwa [stepRun_drop])]
  constructor
  case errChunk => exact (BitVec.toNat_ofNat c 32).trans (Nat.mod_eq_of_lt hc)
  case resp => simp [setWidth_ofNat_of_lt hc]
  all_goals simp [dropWorkerDraw_workerDraws, dropWorkerDraw_drawCount]

/-- Whatever the draw, a `STEP` commits, or some task has failed and the lowest such chunk is reported (R206). -/
theorem advanced_or_failed_stepGrid {s : State} (hb : s.bufs.isSome = true) (hT : s.hw.workers ≤ 2 ^ 32) :
    Advanced s (stepGrid s) ∨ ∃ c, c < s.hw.workers ∧ Failed c s (stepGrid s) := by
  cases hf : (stepRun (workerDraw s) s).workers.findIdx? (·.fail) with
  | none => exact .inl (advanced_stepGrid hb ((noFailure_iff hb).2 (lowestFailed_none_iff.1 hf)))
  | some c =>
    obtain ⟨hlt, -⟩ := List.findIdx?_eq_some_iff_getElem.1 hf
    have hc : c < s.hw.workers := (stepRun_workers (workerDraw s) s).1 ▸ hlt
    exact .inr ⟨c, hc, failed_stepGrid hb (by omega) hf⟩

end Sys2Proof.Machine

namespace Sys2Proof.Claims

open Machine

/-- Settles O37: the chunk bounds rise from 0 to `H`, and each chunk has `floor(H / T)` rows or one more. -/
theorem partitionCoversRowsOnce : Obligations.PartitionCoversRowsOnce := by
  intro nd h t ht
  refine ⟨by simp [chunkLo], ?_, fun c _ => ⟨chunkLo_mono (Nat.le_succ c), rfl⟩,
    fun r j hr hj => existsUnique_chunkWords ht hr hj, fun c c' _ _ => ?_⟩
  · unfold chunkHi
    rw [Nat.sub_add_cancel ht, chunkLo_last ht]
  · obtain ⟨-, hle⟩ := chunk_rows (h := h) ht c
    obtain ⟨hge, -⟩ := chunk_rows (h := h) ht c'
    omega

/-- Settles O38: no task failed, so the join commits. -/
theorem stepWithoutFailureAdvances : Obligations.StepWithoutFailureAdvances :=
  fun s hs hf => ⟨stepGrid s, exec_step hs, advanced_stepGrid hs.bufs hf⟩

/-- Settles O42: the join is reached, and a chunk that failed is one of the `T` chunks. -/
theorem stepEndsAdvancedOrFailed : Obligations.StepEndsAdvancedOrFailed :=
  fun s ⟨_, hT⟩ hs => ⟨stepGrid s, exec_step hs, advanced_or_failed_stepGrid hs.bufs hT⟩

/-- Settles O47: every worker entry at the join is that of some chunk, whose task has ended. -/
theorem joinWaitsForEveryTask : Obligations.JoinWaitsForEveryTask := by
  intro s es
  obtain ⟨hlen, hended⟩ := joinWorkers_spec es s
  refine ⟨hlen, fun q hq => ?_⟩
  obtain ⟨c, hc, rfl⟩ := List.getElem_of_mem hq
  obtain ⟨q, hq', hdone, hpend, -⟩ := hended c (hlen ▸ hc)
  obtain rfl := Option.some.inj ((List.getElem?_eq_getElem hc).symm.trans hq')
  exact ⟨hdone, hpend⟩

/-- Settles O12: `respond` writes the port only. -/
theorem getGenAnswersGeneration : Obligations.GetGenAnswersGeneration := by
  intro s hs
  obtain ⟨-, -, hacc⟩ := accepts_read hs 0 0
  exact if_pos hacc

end Sys2Proof.Claims
end

section
/-! The memory a `STEP` leaves (R203 to R206, R270): word by word after a commit and after a failure, at cell level, and
the same for every number of workers, plane count, lane width and order. -/

namespace Sys2Proof.Machine

open Sys2Proof.Config Claims

/-! ### The words of `next` at the join -/

/-- At the join every task has ended, and by assumption none failed (R202). -/
theorem stepRun_ended {s : State} {es : List WorkerEvent} (hf : ∀ q ∈ (stepRun es s).workers, q.fail = false) (c : Nat)
    (q : WorkerRegs) (hq : (stepRun es s).workers[c]? = some q) : q.done = true ∧ q.fail = false := by
  obtain ⟨hlen, hended⟩ := stepRun_workers es s
  obtain ⟨q', hq', hdone, -⟩ := hended c (hlen ▸ (List.getElem?_eq_some_iff.1 hq).1)
  obtain rfl := Option.some.inj (hq'.symm.trans hq)
  exact ⟨hdone, hf _ (List.mem_of_getElem? hq)⟩

/-- Where no task failed `RULE` has written every interior word (R270). -/
theorem rd_stepRun_interior {s : State} {es : List WorkerEvent} (hT : 1 ≤ s.hw.workers)
    (hn : (nextMemory s).wf = true) (hf : ∀ q ∈ (stepRun es s).workers, q.fail = false) {R C : Nat}
    (hi : interior (width s.cfg) (height s.cfg) R C = true) :
    rd (width s.cfg) (stepRun es s).next R C = steppedWord s R C :=
  (stepRun_spec es s hn).1.all_written hT (stepRun_ended hf) hi

/-- No worker writes a ghost word, whatever fails (R67, R204). -/
theorem rd_stepRun_ghost {s : State} (es : List WorkerEvent) (hn : (nextMemory s).wf = true) {R C : Nat}
    (hg : ghostRegion (width s.cfg) (height s.cfg) R C = true) :
    rd (width s.cfg) (stepRun es s).next R C = nxt s R C := by
  obtain ⟨hC, hout⟩ := interior_false_of_ghost hg
  exact (stepRun_spec es s hn).1.outside R C hC hout

theorem bufferOk_stepRun {s : State} (es : List WorkerEvent) (hn : BufferOk s.cfg (nextMemory s)) :
    BufferOk s.cfg (stepRun es s).next := by
  obtain ⟨hwf, hbelow⟩ := hn
  have hrun := (stepRun_spec es s hwf).1
  exact ⟨hrun.wf, hrun.below hbelow⟩

/-! ### After the commit -/

theorem cur_eq_rd {g : Cfg} {m : Memory} {t : State} (hcfg : t.cfg = g) (hm : currentMemory t = m) (R C : Nat) :
    cur t R C = rd (width g) m R C := hcfg ▸ hm ▸ rfl

theorem nxt_eq_rd {g : Cfg} {m : Memory} {t : State} (hcfg : t.cfg = g) (hm : nextMemory t = m) (R C : Nat) :
    nxt t R C = rd (width g) m R C := hcfg ▸ hm ▸ rfl

/-- The commit exchanges the roles: the workers' buffer is read, and the one that `GHOST` refreshed is written next
(R131, R203). -/
theorem stepGrid_roles {s : State} (hb : s.bufs.isSome = true) (hf : NoFailure s) :
    currentMemory (stepGrid s) = (stepRun (workerDraw s) s).next ∧
      nextMemory (stepGrid s) = ghostMemory s.cfg (currentMemory s) := by
  cases stepGrid_end hb with
  | advanced _ _ _ _ _ _ current next => exact ⟨current, next⟩
  | failed _ _ _ state => cases (advanced_stepGrid hb hf).state.symm.trans state

theorem cur_stepGrid {s : State} (hb : s.bufs.isSome = true) (hf : NoFailure s) (R C : Nat) :
    cur (stepGrid s) R C = rd (width s.cfg) (stepRun (workerDraw s) s).next R C :=
  cur_eq_rd (advanced_stepGrid hb hf).cfg (stepGrid_roles hb hf).1 R C

theorem nxt_stepGrid {s : State} (hb : s.bufs.isSome = true) (hf : NoFailure s) (R C : Nat) :
    nxt (stepGrid s) R C = cur (ghost s) R C := by
  rw [cur_ghost hb]
  exact nxt_eq_rd (advanced_stepGrid hb hf).cfg (stepGrid_roles hb hf).2 R C

/-- Every interior word of the new `current` is `RULE`'s (R203, R270). -/
theorem cur_stepGrid_interior {s : State} (hb : s.bufs.isSome = true) (hT : 1 ≤ s.hw.workers)
    (hn : (nextMemory s).wf = true) (hf : NoFailure s) {R C : Nat}
    (hi : interior (width s.cfg) (height s.cfg) R C = true) : cur (stepGrid s) R C = steppedWord s R C := by
  rw [cur_stepGrid hb hf, rd_stepRun_interior hT hn ((noFailure_iff hb).1 hf) hi]

/-! ### The cells -/

/-- The word that holds a cell of the grid is an interior word (R62, R63). -/
theorem interior_of_cell {w h x y : Nat} (hx : x < w) (hy : y < h) : interior w h (y + 1) (x / 64 + 1) = true :=
  interior_iff.2 ⟨by omega, by omega, by omega, dataColumn_lt hx⟩

/-- At the bit of a cell of the grid the masks hold as many ones as the cell has live neighbours (R166, R171). -/
theorem onesAt_dirMask {s : State} (h : Inv s) (hs : s.state ≠ .uninitialized) {x y : Nat} (hx : x < width s.cfg)
    (hy : y < height s.cfg) :
    onesAt (dirMask (width s.cfg) (currentMemory (ghost s)) y (x / 64)) (x % 64) = count s x y := by
  obtain ⟨hnw, hn, hne, hwd, he, hsw, hso, hse⟩ := directionMasksHoldNeighbours s x y _ h hs hx hy rfl
  unfold onesAt
  rw [hnw, hn, hne, hwd, he, hsw, hso, hse]
  simp [count, neighbourCount, directions, ext, Int.sub_eq_add_neg, Nat.add_assoc]

/-- The bit of a cell in the word that `RULE` writes is the cell's next state (R172, R205). -/
theorem getLsbD_steppedWord {s : State} (h : Inv s) (hs : s.state ≠ .uninitialized) {x y : Nat} (hx : x < width s.cfg)
    (hy : y < height s.cfg) :
    (steppedWord s (y + 1) (x / 64 + 1)).getLsbD (x % 64) = lifeRule (count s x y) (cell s x y) := by
  have hcol := dataColumn_lt hx
  have hghost := currentMemory_ghost (h.built hs).bufs
  have hvalid : (validMask (width s.cfg) (x / 64)).getLsbD (x % 64) = true := by
    rw [getLsbD_validMask (by omega) (Nat.mod_lt _ (by decide)), decide_eq_true_eq]
    omega
  have halive : (window (width s.cfg) (currentMemory (ghost s)) y (x / 64)).mz.getLsbD (x % 64) = cell s x y := by
    rw [hghost]
    exact congrArg (·.getLsbD (x % 64)) (rd_ghost_interior (interior_of_cell hx hy))
  have hrule := ruleIsBirthOnThreeSurvivalOnTwoOrThree s.hw.planes
    (dirMask (width s.cfg) (currentMemory (ghost s)) y (x / 64))
    (window (width s.cfg) (currentMemory (ghost s)) y (x / 64)).mz _ _ _ hvalid (onesAt_dirMask h hs hx hy).symm
  rw [halive, hghost] at hrule
  rw [Bool.eq_iff_iff]
  exact hrule.trans (by simp [lifeRule])

/-! ### Independence of the machine and of the schedule -/

/-- `RULE` writes the same word with three planes and with four, for a count of at most 8 (R176). -/
theorem nextWord_planes (planes planes' : PlaneCount) (w : Nat) (m : Memory) (r j : Nat) :
    nextWord planes w m r j = nextWord planes' w m r j := by
  apply BitVec.eq_of_getLsbD_eq
  intro n hn
  cases hv : (validMask w j).getLsbD n with
  | true =>
    have hle : planeValue (addNet (dirMask w m r j)) n ≤ 8 := planeValue_addNet _ n ▸ onesAt_le _ n
    rw [Bool.eq_iff_iff]
    exact (ruleWord_iff_planeValue hv hle).trans (ruleWord_iff_planeValue hv hle).symm
  | false =>
    have hzero (p : PlaneCount) : (nextWord p w m r j).getLsbD n = false := by
      cases p <;> simp [nextWord, ruleWord, hv, -BitVec.getLsbD_eq_getElem]
    rw [hzero, hzero]

/-- `s` on other hardware, with another profile and other draws. -/
def onMachine (p : Profile) (q : Hardware) (ds : List (List WorkerEvent)) (n : Nat) (s : State) : State :=
  { s with prof := p, hw := q, workerDraws := ds, drawCount := n }

/-- From one grid two runs of the workers in which none fails leave the same `next`, whatever the hardware, the profile
and the draws (R206). -/
theorem stepRun_next_onMachine {s : State} {p : Profile} {q : Hardware} {ds : List (List WorkerEvent)} {n : Nat}
    {es fs : List WorkerEvent} (hn : BufferOk s.cfg (nextMemory s)) (hT : 1 ≤ s.hw.workers) (hT' : 1 ≤ q.workers)
    (hf : ∀ r ∈ (stepRun es s).workers, r.fail = false)
    (hf' : ∀ r ∈ (stepRun fs (onMachine p q ds n s)).workers, r.fail = false) :
    (stepRun fs (onMachine p q ds n s)).next = (stepRun es s).next := by
  obtain ⟨hwf, hbelow⟩ := bufferOk_stepRun es hn
  obtain ⟨hwf', hbelow'⟩ := bufferOk_stepRun (s := onMachine p q ds n s) fs hn
  refine Memory.ext_words hwf' hwf hbelow' hbelow fun R C hR hC => ?_
  rcases region_cases hR hC with ⟨hg, -⟩ | ⟨-, hi⟩
  · exact (rd_stepRun_ghost (s := onMachine p q ds n s) fs hn.1 hg).trans (rd_stepRun_ghost es hn.1 hg).symm
  · calc rd (width s.cfg) (stepRun fs (onMachine p q ds n s)).next R C
        = steppedWord (onMachine p q ds n s) R C := rd_stepRun_interior (s := onMachine p q ds n s) hT' hn.1 hf' hi
      _ = steppedWord s R C := nextWord_planes _ _ _ _ _ _
      _ = rd (width s.cfg) (stepRun es s).next R C := (rd_stepRun_interior hT hn.1 hf hi).symm

end Sys2Proof.Machine

namespace Sys2Proof.Claims

open Machine

/-- A state after a commit is known up to the buffers and the draws that are left. -/
theorem Advanced.eq {s t : State} (h : Advanced s t) :
    t = { s with
      state := .ready, gen := s.gen + 1, sel := !s.sel, seq := none, outstanding := none, stream := [],
      resp := some { code := 0x00, data := s.gen + 1 }, bufs := t.bufs, workerDraws := t.workerDraws,
      drawCount := t.drawCount } := by
  cases t
  obtain ⟨rfl, rfl, rfl, rfl, rfl, rfl, rfl, rfl, rfl, rfl, rfl, rfl, rfl, rfl, -, -⟩ := h
  rfl

/-- Settles O40: the workers wrote every interior word and no other, and the commit exchanged the roles. -/
theorem stepWritesEveryInteriorWord : Obligations.StepWritesEveryInteriorWord := by
  rintro s t ⟨hT, -⟩ hs hf hn ht R C
  obtain rfl := eq_stepGrid hs ht
  refine ⟨fun hi => ⟨cur_stepGrid_interior hs.bufs hT hn hf hi, ?_⟩, fun hg => ⟨?_, nxt_stepGrid hs.bufs hf R C⟩⟩
  · rw [nxt_stepGrid hs.bufs hf, cur_ghost_interior hi]
  · rw [cur_stepGrid hs.bufs hf, rd_stepRun_ghost _ hn hg]

/-- Settles O39: the word that holds a cell is `RULE`'s, and `RULE` decides by the count of the masks. -/
theorem stepComputesNextGeneration : Obligations.StepComputesNextGeneration := by
  intro s h hs hf
  have hgrid : s.state ≠ .uninitialized := by simp [hs.ready]
  have hbuilt := h.built hgrid
  refine ⟨stepGrid s, exec_step hs, fun x y hx hy => ?_, ((stepGrid_end hs.bufs).built hbuilt h.hw.1).padding⟩
  have hword := cur_stepGrid_interior hs.bufs h.hw.1 hbuilt.next.1 hf (interior_of_cell hx hy)
  exact (congrArg (·.getLsbD (x % 64)) hword).trans (getLsbD_steppedWord h hgrid hx hy)

/-- Settles O43: a failed `STEP` leaves `current` as `GHOST` left it, and the workers wrote no ghost word. -/
theorem failedStepKeepsVisibleGrid : Obligations.FailedStepKeepsVisibleGrid := by
  intro s t hs hn ht hterm
  obtain rfl := eq_stepGrid hs ht
  cases stepGrid_end hs.bufs with
  | advanced _ state => cases state.symm.trans hterm
  | failed frame c _ state gen _ _ current next sel =>
    refine ⟨sameReads_of_failed hs.ready hs.bufs frame state gen current, sel, fun R C => ?_⟩
    have hcur : cur (stepGrid s) R C = cur (ghost s) R C :=
      (cur_eq_rd frame.cfg current R C).trans (cur_ghost hs.bufs R C).symm
    exact ⟨fun hi => hcur.trans (cur_ghost_interior hi),
      fun hg => ⟨hcur, (nxt_eq_rd frame.cfg next R C).trans (rd_stepRun_ghost _ hn hg)⟩⟩

/-- Settles O45: the two commits exchange the same roles, and the two runs leave the same `next`. -/
theorem stepIsIndependentOfWorkersLanesAndOrder : Obligations.StepIsIndependentOfWorkersLanesAndOrder := by
  intro s t u p q ds n h hs hf hq (hf' : NoFailure (onMachine p q ds n s)) ht hu
  have hs' : StepAccepted (onMachine p q ds n s) := ⟨hs.ready, hs.gen, hs.bufs⟩
  obtain rfl := eq_stepGrid hs ht
  obtain rfl := eq_stepGrid hs' hu
  have hadv := advanced_stepGrid hs.bufs hf
  have hadv' := advanced_stepGrid hs'.bufs hf'
  obtain ⟨hcur, hnxt⟩ := stepGrid_roles hs.bufs hf
  obtain ⟨hcur', hnxt'⟩ := stepGrid_roles hs'.bufs hf'
  have hbuilt := h.built (by simp [hs.ready])
  have hrun := stepRun_next_onMachine hbuilt.next h.hw.1 hq.1 ((noFailure_iff hs.bufs).1 hf)
    ((noFailure_iff hs'.bufs).1 hf')
  have hbufs := bufs_eq_of_roles (hadv'.sel.trans hadv.sel.symm) (stepGrid_end hs.bufs).frame.bufs
    (stepGrid_end hs'.bufs).frame.bufs (hcur'.trans (hrun.trans hcur.symm)) (hnxt'.trans hnxt.symm)
  rw [hadv.eq, ← hbufs]
  exact hadv'.eq

end Sys2Proof.Claims
end

section
/-! The transitions of the engine state (R207, R264): each effect of a command and each case of a step keeps `STATE` or
takes one edge of the diagram. -/

namespace Sys2Proof.Machine

/-- The edges that a step without a reset may take (R207): none, `Uninitialized` to `Ready` by a `NEW.*` that succeeds,
`Ready` to `Terminated` by a `STEP` that fails. -/
def EngineEdge (s t : State) : Prop :=
  t.state = s.state ∨
    (s.state = .uninitialized ∧ t.state = .ready ∧ t.resp.map (·.code) = some 0x00) ∨
    (s.state = .ready ∧ t.state = .terminated ∧ t.resp.map (·.code) = some 0x02)

theorem OnlyPort.engineEdge {s t : State} (h : OnlyPort s t) : EngineEdge s t := .inl h.same.1

theorem StepEnd.engineEdge {s t : State} (h : StepEnd s t) (hs : s.state = .ready) : EngineEdge s t := by
  cases h with
  | advanced _ state => exact .inl (state.trans hs.symm)
  | failed _ _ _ state _ _ _ _ _ _ resp => exact .inr (.inr ⟨hs, state, by rw [resp]; rfl⟩)

theorem Effect.engineEdge {i : Instr} {s t : State} (h : Effect i s t) : EngineEdge s t := by
  cases h with
  | answered hp => exact hp.engineEdge
  | waits hp => exact hp.engineEdge
  | malformed _ ht => exact .inl (by rw [ht]; rfl)
  | built hs a b bp m _ _ ht => exact .inr (.inl ⟨hs, by rw [ht]; rfl, by rw [ht]; rfl⟩)
  | stepped _ hs _ hb ht => exact ht ▸ (stepGrid_end hb).engineEdge hs

theorem Ran.engineEdge {i : Instr} {s t : State} (h : Ran i s t) : EngineEdge s t := by
  cases h with
  | whole h => exact (exec_effect h).engineEdge
  | held n _ _ _ _ ht => exact ht ▸ (holdStream_onlyPort .live n s).engineEdge

theorem StepCase.engineEdge {s t : State} (h : StepCase s t) : EngineEdge s t := by
  cases h with
  | waits ht => exact .inl (by rw [ht])
  | illegal _ _ _ _ _ _ _ _ ht => exact .inl (by rw [ht]; rfl)
  | command _ _ _ _ _ _ _ _ ht => exact ht.engineEdge
  | cells _ _ _ ht => exact (exec_effect ht).engineEdge
  | words _ _ _ _ _ _ ht => exact ht.engineEdge

end Sys2Proof.Machine

namespace Sys2Proof.Claims

open Machine

/-- Settles O52: a reset leads to `Uninitialized`, and every other step is one of the cases of `StepCase`. -/
theorem engineStateTransitions : Obligations.EngineStateTransitions := by
  intro s t _ hst
  refine ⟨fun hr => ?_, fun hr => (step_cases hr hst).engineEdge⟩
  obtain ⟨rest, ws, rfl⟩ := step_reset hr hst
  rfl

end Sys2Proof.Claims
end

section
/-! The exceptions: the commands refused outside their acceptance columns (R235, R240), the idle block (R247), the
failures of worker tasks (R204, R236, R239), the absorbing state (R242) and the precision of errors (R241). -/

namespace Sys2Proof.Machine

open Sys2Proof.Config Claims

/-! ### Refused commands -/

/-- `IllegalState` is answered and writes no register (R231, R240). -/
theorem raise_illegalState (s : State) :
    raise .illegalState s =
      { s with stream := [], resp := some { code := 0x04, data := 0 }, outstanding := none } := rfl

/-- A command without a cell stream that `STATE` does not accept is refused (R235, R240). -/
theorem exec_refused {i : Instr} {s : State} (hi : ¬ ∃ a b, i = .newDead a b ∨ i = .newTorus a b)
    (hacc : accepts i s.state = false) : exec i s = .next (raise .illegalState s) := by
  cases i with
  | newDead a b => exact absurd ⟨a, b, .inl rfl⟩ hi
  | newTorus a b => exact absurd ⟨a, b, .inr rfl⟩ hi
  | step | getCell | live | getGen | status => exact if_neg (by simp [hacc])

theorem accepts_new_eq_false {i : Instr} {a b : Nat} {st : EngineState} (hi : i = .newDead a b ∨ i = .newTorus a b)
    (hst : st = .ready ∨ st = .terminated) : accepts i st = false := by
  rcases hi with rfl | rfl <;> rcases hst with rfl | rfl <;> rfl

/-- An ended stream in a state with a grid is taken to its `EOM`, and the `NEW.*` is refused (R94, R235). -/
theorem newGrid_refused {i : Instr} {bp : Boundary} {a b : Nat} {cells : List CellSym} {rest : List HostAction}
    {s : State} (hi : i = .newDead a b ∨ i = .newTorus a b) (hs : s.state = .ready ∨ s.state = .terminated)
    (ho : s.outstanding = none) (hin : s.inbox = cells.map .sym ++ .sym .eom :: rest) (he : CellSym.eom ∉ cells) :
    newGrid i bp a b s = raise .illegalState { s with inbox := rest } := by
  rw [newGrid_ended ho hin he]
  exact if_neg (by simp [accepts_new_eq_false hi hs])

/-! ### The failed chunks of a `STEP` -/

/-- The search of the commit finds the lowest failed chunk (R204). -/
theorem findIdx?_eq_of_lowestFailure {s : State} {c : Nat} (hb : s.bufs.isSome = true) (h : LowestFailure s c) :
    (stepRun (workerDraw s) s).workers.findIdx? (·.fail) = some c := by
  obtain ⟨hfails, hleast⟩ := h
  rw [joinWorkers_eq _ hb] at hfails hleast
  obtain ⟨q, hq, hfail⟩ := Option.map_eq_some_iff.1 hfails
  obtain ⟨hlt, rfl⟩ := List.getElem?_eq_some_iff.1 hq
  refine List.findIdx?_eq_some_iff_getElem.2 ⟨hlt, hfail, fun c' hc' => ?_⟩
  have hleast' := hleast c' hc'
  rw [List.getElem?_eq_getElem (hc'.trans hlt)] at hleast'
  simpa using hleast'

/-- The draw that fails just the chunks of `failset` among the `t` chunks, before any word is written (R236). -/
def failDraw (t : Nat) (failset : Nat → Bool) : List WorkerEvent := ((List.range t).filter failset).map .fail

theorem fail_mem_failDraw {t c : Nat} {failset : Nat → Bool} :
    .fail c ∈ failDraw t failset ↔ c < t ∧ failset c = true := by
  simp [failDraw]

theorem finish_notMem_failDraw (t c : Nat) (failset : Nat → Bool) : .finish c ∉ failDraw t failset := by
  simp [failDraw]

/-- Failed or not, a task leaves every interior word of `next` old, or writes `RULE`'s word there (U6). -/
theorem rd_stepRun_old_or_new {s : State} (es : List WorkerEvent) (hT : 1 ≤ s.hw.workers)
    (hn : (nextMemory s).wf = true) {R C : Nat} (hi : interior (width s.cfg) (height s.cfg) R C = true) :
    rd (width s.cfg) (stepRun es s).next R C = nxt s R C ∨
      rd (width s.cfg) (stepRun es s).next R C = steppedWord s R C :=
  (stepRun_spec es s hn).1.old_or_new hT hi

/-! ### Precise errors -/

/-- `STATE` is one of the three values seen between commands, as the invariant says (R25, R207). -/
def Visible (s : State) : Prop := s.state = .uninitialized ∨ s.state = .ready ∨ s.state = .terminated

/-- While no grid exists the host reads `IllegalState` everywhere (R240). -/
theorem sameReads_of_uninitialized {s t : State} (hs : s.state = .uninitialized) (ht : t.state = .uninitialized) :
    SameReads s t := by
  have hrefused {i : Instr} (hi : ¬ ∃ a b, i = .newDead a b ∨ i = .newTorus a b)
      (hacc : accepts i .uninitialized = false) : answer (exec i s) = answer (exec i t) := by
    rw [exec_refused hi (hs ▸ hacc), exec_refused hi (ht ▸ hacc)]
    rfl
  exact ⟨fun x y => hrefused (by simp) rfl, hrefused (by simp) rfl, hrefused (by simp) rfl⟩

/-- The port is no part of what the host reads, whether a grid exists or not. -/
theorem OnlyPort.sameReads_of_visible {s t : State} (h : OnlyPort s t) (hs : Visible s) : SameReads s t := by
  rcases hs with hs | hs
  · exact sameReads_of_uninitialized hs (h.same.1.trans hs)
  · exact h.sameReads hs

/-- The registers of the "recorded" column of R231 for the code of `r`, and its `data`. -/
def Recorded (s t : State) (r : Response) : Prop :=
  (r.code = 0x01 ∧ r.data = 0 ∧ t.err = 0x01 ∧ t.errChunk = s.errChunk ∧ t.state = s.state ∧ t.bufs = s.bufs) ∨
    (r.code = 0x02 ∧ t.err = 0x02 ∧ r.data = t.errChunk.setWidth 64 ∧ t.state = .terminated) ∨
    ((r.code = 0x03 ∨ r.code = 0x04 ∨ r.code = 0x05) ∧ r.data = 0 ∧
      t.err = s.err ∧ t.errChunk = s.errChunk ∧ t.state = s.state ∧ t.bufs = s.bufs)

/-- From `s` the error `r` was answered in `t`, and the host reads all else as it was (R241). -/
def PreciseError (s t : State) (r : Response) : Prop :=
  SameReads s t ∧ t.gen = s.gen ∧ t.sel = s.sel ∧ t.cfg = s.cfg ∧ t.prof = s.prof ∧ Recorded s t r

theorem PreciseError.of_inbox {s t : State} {r : Response} {l : List HostAction} (hs : Visible s)
    (h : PreciseError { s with inbox := l } t r) : PreciseError s t r := by
  obtain ⟨hreads, hregs⟩ := h
  have hin : SameReads s { s with inbox := l } := OnlyPort.sameReads_of_visible rfl hs
  exact ⟨hin.trans hreads, hregs⟩

/-- A port-level error records nothing (R231, R235). -/
theorem OnlyPort.preciseError {s t : State} {r : Response} (h : OnlyPort s t) (hs : Visible s)
    (hcode : r.code = 0x03 ∨ r.code = 0x04 ∨ r.code = 0x05) (hdata : r.data = 0) : PreciseError s t r := by
  obtain ⟨hstate, hgen, hsel, hcfg, hprof, herr, hchunk, hbufs, -⟩ := h.same
  exact ⟨h.sameReads_of_visible hs, hgen, hsel, hcfg, hprof, .inr (.inr ⟨hcode, hdata, herr, hchunk, hstate, hbufs⟩)⟩

/-- `ConfigurationError` records `ERR` alone (R231, R232). -/
theorem preciseError_configuration {s : State} (hs : s.state = .uninitialized) (l : List HostAction) :
    PreciseError s (raise .configuration { s with inbox := l }) { code := 0x01, data := 0 } :=
  ⟨sameReads_of_uninitialized hs hs, rfl, rfl, rfl, rfl, .inl ⟨rfl, rfl, rfl, rfl, rfl, rfl⟩⟩

/-- A `STEP` that answers an error has failed, and `StepExecutionError` names the chunk (R204, R231, R234). -/
theorem StepEnd.preciseError {s t : State} {r : Response} (h : StepEnd s t) (hs : s.state = .ready)
    (hb : s.bufs.isSome = true) (hr : t.resp = some r) (hc : r.code ≠ 0x00) : PreciseError s t r := by
  cases h with
  | advanced _ _ _ _ _ _ _ _ _ resp =>
    obtain rfl := Option.some.inj (resp.symm.trans hr)
    exact absurd rfl hc
  | failed frame c _ state gen err errChunk current _ sel resp =>
    obtain rfl := Option.some.inj (resp.symm.trans hr)
    exact ⟨sameReads_of_failed hs hb frame state gen current, gen, sel, frame.cfg, frame.prof,
      .inr (.inl ⟨rfl, err, by rw [errChunk], state⟩)⟩

theorem Effect.preciseError {i : Instr} {s t : State} {r : Response} (h : Effect i s t) (hs : Visible s)
    (hr : t.resp = some r) (hc : r.code ≠ 0x00) : PreciseError s t r := by
  cases h with
  | answered hp _ hanswer =>
    obtain ⟨r', hr', hcode⟩ := hanswer
    obtain rfl := Option.some.inj (hr'.symm.trans hr)
    obtain ⟨hcode, hdata⟩ := hcode.resolve_left hc
    exact hp.preciseError hs (.inr hcode) hdata
  | waits _ hnone => cases hnone.symm.trans hr
  | malformed h0 ht =>
    subst ht
    obtain rfl := Option.some.inj hr
    exact preciseError_configuration h0 _
  | built _ a b bp m _ _ ht =>
    subst ht
    obtain rfl := Option.some.inj hr
    exact absurd rfl hc
  | stepped _ hready _ hb ht =>
    subst ht
    exact (stepGrid_end hb).preciseError hready hb hr hc

theorem Ran.preciseError {i : Instr} {s t : State} {r : Response} (h : Ran i s t) (hs : Visible s)
    (hr : t.resp = some r) (hc : r.code ≠ 0x00) : PreciseError s t r := by
  cases h with
  | whole he => exact (exec_effect he).preciseError hs hr hc
  | held n _ _ _ _ ht =>
    subst ht
    cases hr

/-- In every case of a step that has a command to answer, an error it answers is precise (R241). -/
theorem StepCase.preciseError {s t : State} {r : Response} (h : StepCase s t) (hinv : Inv s)
    (hcmd : s.outstanding ≠ none ∨ ∃ a c rest, s.inbox = a :: rest ∧ commandWord a = some c)
    (hr : t.resp = some r) (hc : r.code ≠ 0x00) : PreciseError s t r := by
  have hs : Visible s := hinv.visible
  cases h with
  | waits ht ho =>
    rcases ho with ⟨hnone, hword⟩ | ⟨o, ho, -⟩
    · obtain ⟨a, c, rest, hin, hw⟩ := hcmd.resolve_left (not_not_intro hnone)
      cases (hword a rest hin).symm.trans hw
    · have hnone : s.resp = none := (hinv.outstanding o ho).1
      rw [ht] at hr
      cases hnone.symm.trans hr
  | illegal a c rest _ _ _ _ _ ht =>
    subst ht
    obtain rfl := Option.some.inj hr
    exact OnlyPort.preciseError rfl hs (.inl rfl) rfl
  | command a c rest i _ _ _ _ ht => exact (ht.preciseError hs hr hc).of_inbox hs
  | cells o _ _ ht => exact (exec_effect ht).preciseError hs hr hc
  | words o k rest _ _ _ ht => exact (ht.preciseError hs hr hc).of_inbox hs

end Sys2Proof.Machine

namespace Sys2Proof.Claims

open Machine

/-- Settles O22: the stream has ended, and no state with a grid accepts a `NEW.*`. -/
theorem newOutsideUninitializedIsRefused : Obligations.NewOutsideUninitializedIsRefused := by
  intro s i a b cells rest hi hs ho hin he
  obtain ⟨bp, hexec⟩ := exec_new hi
  rw [hexec, newGrid_refused hi hs ho hin he, raise_illegalState]

/-- Settles O41: the commit finds the least failed chunk, and the join keeps what the drawn events made of `FAIL[c]`. -/
theorem lowestFailedChunkIsReported : Obligations.LowestFailedChunkIsReported := by
  refine ⟨fun s c ⟨_, hT⟩ hs hlow => ?_, fun s es c hc => ?_⟩
  · have hfind := findIdx?_eq_of_lowestFailure hs.bufs hlow
    obtain ⟨hlt, -⟩ := List.findIdx?_eq_some_iff_getElem.1 hfind
    rw [(stepRun_workers (workerDraw s) s).1] at hlt
    exact ⟨stepGrid s, exec_step hs, failed_stepGrid hs.bufs (by omega) hfind⟩
  · obtain ⟨q, hq, -, -, hunfailed, hfailed⟩ := (joinWorkers_spec es s).2 c hc
    rw [hq]
    exact ⟨fun hf hfin => congrArg some (hfailed hf hfin), fun hf => congrArg some (hunfailed hf)⟩

/-- Settles O44: after a failure `next` is what the workers left. -/
theorem failedStepLeavesOldOrNewWords : Obligations.FailedStepLeavesOldOrNewWords := by
  rintro s t ⟨hT, -⟩ hs hn ht hterm R C hi
  obtain rfl := eq_stepGrid hs ht
  cases stepGrid_end hs.bufs with
  | advanced _ state => cases state.symm.trans hterm
  | failed frame _ _ _ _ _ _ _ next =>
    rw [nxt_eq_rd frame.cfg next]
    exact rd_stepRun_old_or_new _ hT hn hi

/-- Settles O46: `failDraw` fails each chunk of the set before its task writes a word, and no other. -/
theorem everyFailSetIsDrawn : Obligations.EveryFailSetIsDrawn := by
  intro s failset
  obtain ⟨hlen, hjoin⟩ := joinWorkers_spec (failDraw s.hw.workers failset) s
  refine ⟨_, hlen, fun c q hq => ?_⟩
  have hc : c < s.hw.workers := hlen ▸ (List.getElem?_eq_some_iff.1 hq).1
  obtain ⟨q', hq', -, -, hunfailed, hfailed⟩ := hjoin c hc
  obtain rfl := Option.some.inj (hq'.symm.trans hq)
  cases hf : failset c with
  | true => exact hfailed (fail_mem_failDraw.2 ⟨hc, hf⟩) (finish_notMem_failDraw _ _ _)
  | false => exact hunfailed (by simp [fail_mem_failDraw, hf])

/-- Settles O53: with a grid and no `STEP` to run, a step that is not a reset writes the port only. -/
theorem terminatedIsAbsorbing : Obligations.TerminatedIsAbsorbing := by
  intro s t h hs hr hst
  rcases step_of_grid h (by simp [hs]) hr hst with hp | ⟨_, _, _, -, -, -, -, hready, -⟩
  · obtain ⟨hstate, -, -, -, -, herr, hchunk, -⟩ := hp.same
    exact ⟨hstate.trans hs, herr, hchunk, hp.sameReads (.inr hs)⟩
  · cases hs.symm.trans hready

/-- Settles O56: every case of `StepCase` that answers an error is precise. -/
theorem errorsArePrecise : Obligations.ErrorsArePrecise :=
  fun _ _ _ h hcmd hr hst => (step_cases hr hst).preciseError h hcmd

/-- Settles O8: with nothing outstanding the port looks at the host's next action alone. -/
theorem idleBlockKeepsState : Obligations.IdleBlockKeepsState := by
  intro s ho
  rw [step_of_noOutstanding ho]
  refine ⟨fun hin => ?_, fun k rest hin => ?_⟩
  · unfold takeAction
    rw [hin]
  · unfold takeAction
    rw [hin]

/-- Settles O17: none of these commands is accepted there, and none has a cell stream. -/
theorem refusedCommandsAnswerIllegalState : Obligations.RefusedCommandsAnswerIllegalState := by
  rintro s i (⟨hs, rfl | ⟨x, y, rfl⟩ | rfl | rfl⟩ | ⟨hs, rfl⟩)
  all_goals exact exec_refused (by simp) (by rw [hs]; rfl)

end Sys2Proof.Claims
end

section
/-! Reset and the host (R260, R261, R268): what a reset leaves, what of a `LIVE` has left the block when it strikes or
when the host withholds itself, and the only grounds on which a step has no successor. -/

namespace Sys2Proof.Machine

open Sys2Proof.Config Claims

/-! ### The reset input -/

/-- The free parameters of the reset machine are legal (R7, R32). -/
theorem legalHardware_hardware : LegalHardware hardware := by
  have hmod : extraWorkers % 2 ^ 32 < 2 ^ 32 := Nat.mod_lt _ (by decide)
  exact ⟨Nat.le_add_left 1 _, hmod⟩

theorem step_of_outstanding {s : State} {o : Outstanding} (ho : s.outstanding = some o) :
    step s = if emitsStream o.instr then takeStalled o.instr s else takeOutstanding o.instr s := by
  unfold step portStep; rw [ho]

/-- A reset of either form drops what is outstanding (R261). -/
theorem step_reset_of_outstanding {s : State} {a : HostAction} {rest : List HostAction} (ho : s.outstanding ≠ none)
    (ha : a = .rst ∨ ∃ c k, a = .cmdRst c k) (hin : s.inbox = a :: rest) :
    step s = .next (resetInput { s with inbox := rest }) := by
  obtain ⟨o, ho⟩ := Option.ne_none_iff_exists'.1 ho
  rw [step_of_outstanding ho]
  unfold takeStalled takeOutstanding
  rw [hin]
  rcases ha with rfl | ⟨c, k, rfl⟩ <;> exact ite_self _

theorem step_rst {s : State} {rest : List HostAction} (hin : s.inbox = .rst :: rest) :
    step s = .next (resetInput { s with inbox := rest }) := by
  by_cases ho : s.outstanding = none
  · rw [step_of_noOutstanding ho]; unfold takeAction; rw [hin]
  · exact step_reset_of_outstanding ho (.inl rfl) hin

theorem step_cmdRst {s : State} {c : Word} {k : Nat} {rest : List HostAction} (ho : s.outstanding = none)
    (hin : s.inbox = .cmdRst c k :: rest) : step s = .next (abandonCommand c k { s with inbox := rest }) := by
  rw [step_of_noOutstanding ho]; unfold takeAction; rw [hin]

/-- A reset always has a successor (R260). -/
theorem exists_step_of_reset {s : State} (hr : noReset s = false) : ∃ t, step s = .next t := by
  unfold noReset at hr
  split at hr
  case h_1 rest hin => exact ⟨_, step_rst hin⟩
  case h_2 c k rest hin =>
    by_cases ho : s.outstanding = none
    · exact ⟨_, step_cmdRst ho hin⟩
    · exact ⟨_, step_reset_of_outstanding ho (.inr ⟨c, k, rfl⟩) hin⟩
  all_goals cases hr

/-! ### The words that left before a reset -/

/-- The words of the live cells: the stream of `LIVE` without its end word (R95, R126). -/
def liveWords (s : State) : List Word := (liveCells s).map fun p => coordWord p.1 p.2

theorem liveStream_eq (s : State) : liveStream s = liveWords s ++ [endWord] := rfl

theorem endWord_notMem_liveWords (s : State) : endWord ∉ liveWords s := by
  unfold liveWords
  rw [List.mem_map]
  rintro ⟨p, -, hp⟩
  exact coordWord_ne _ _ hp

theorem emittedBefore_answerLive (k : Nat) (s : State) :
    emittedBefore k (.next (answerLive s)) = (liveWords s).take k := by
  show ((liveStream s).dropLast).take k = _
  rw [liveStream_eq, List.dropLast_concat]

/-- Of an accepted `LIVE` the first `k` coordinate words have left when the reset strikes (R261). -/
theorem emittedBefore_live {c : Word} {s : State} (hd : decode c = .instr .live)
    (hs : s.state = .ready ∨ s.state = .terminated) (hb : s.bufs.isSome = true) (k : Nat) :
    emittedBefore k (takeCommand c s) = (liveWords s).take k := by
  rw [takeCommand_instr hd, exec_live hs hb, emittedBefore_answerLive]

/-- Of any other command word, a refused `LIVE` among them, none have (R95, R261). -/
theorem emittedBefore_cases (c : Word) (k : Nat) (s : State) :
    emittedBefore k (takeCommand c s) = [] ∨
      (decode c = .instr .live ∧ (s.state = .ready ∨ s.state = .terminated) ∧
        emittedBefore k (takeCommand c s) = (liveWords s).take k) := by
  cases hd : decode c with
  | illegal r => exact .inl (by simp [takeCommand_illegal hd, emittedBefore])
  | instr i =>
    rw [takeCommand_instr hd]
    cases he : exec i s with
    | next t =>
      rcases exec_stream_cases he with hnil | ⟨rfl, hs, -, rfl⟩
      · exact .inl (by simp [emittedBefore, hnil])
      · exact .inr ⟨rfl, hs, emittedBefore_answerLive k s⟩
    | fault f => exact .inl rfl
    | refused r => exact .inl rfl

theorem endWord_notMem_emittedBefore (c : Word) (k : Nat) (s : State) :
    endWord ∉ emittedBefore k (takeCommand c s) := by
  rcases emittedBefore_cases c k s with h | ⟨-, -, h⟩ <;> rw [h]
  · exact List.not_mem_nil
  · exact fun hm => endWord_notMem_liveWords s (List.mem_of_mem_take hm)

/-! ### A `LIVE` and the host's acceptance -/

/-- A host that accepts less than the whole stream keeps the `LIVE` outstanding, every register as before (R268). -/
theorem acceptWords_live_of_lt {s : State} {n : Nat} (hs : s.state = .ready ∨ s.state = .terminated)
    (hb : s.bufs.isSome = true) (hn : n < (liveStream s).length) :
    acceptWords .live n (exec .live s) =
      .next { s with
        stream := (liveStream s).take n, resp := none, outstanding := some { instr := .live, cells := [] } } := by
  rw [exec_live hs hb]
  exact if_pos hn

/-- A host that accepts the whole stream completes the `LIVE` (R268). -/
theorem acceptWords_live_of_le {s : State} {n : Nat} (hs : s.state = .ready ∨ s.state = .terminated)
    (hb : s.bufs.isSome = true) (hn : (liveStream s).length ≤ n) :
    acceptWords .live n (exec .live s) = .next (answerLive s) := by
  rw [exec_live hs hb]
  exact if_neg (Nat.not_lt.2 hn)

/-- An outstanding `LIVE` waits for the host (R268): it is no `NEW.*`. -/
theorem Inv.waitsForHost {s : State} (h : Inv s) {o : Outstanding} (ho : s.outstanding = some o)
    (hl : o.instr = .live) : WaitsForHost s o := by
  rcases (h.outstanding o ho).2 with ⟨-, -, a, b, hnew⟩ | hhost
  · simp [hl] at hnew
  · exact hhost

theorem Inv.bufs_isSome {s : State} (h : Inv s) (hs : s.state = .ready ∨ s.state = .terminated) :
    s.bufs.isSome = true :=
  (h.built (by rcases hs with hs | hs <;> simp [hs])).bufs

theorem step_of_stalled {s : State} {o : Outstanding} (ho : s.outstanding = some o) (hl : o.instr = .live) :
    step s = takeStalled .live s := by
  rw [step_of_outstanding ho, hl]; rfl

theorem step_accept_of_stalled {s : State} {o : Outstanding} {k : Nat} {rest : List HostAction}
    (ho : s.outstanding = some o) (hl : o.instr = .live) (hin : s.inbox = .accept k :: rest) :
    step s = acceptWords .live (s.stream.length + k) (exec .live { s with inbox := rest }) := by
  rw [step_of_stalled ho hl]; unfold takeStalled; rw [hin]

/-- Without an acceptance, a symbol or a reset a stalled `LIVE` stays as it is (R268). -/
theorem step_idle_of_stalled {s : State} {o : Outstanding} (ho : s.outstanding = some o) (hl : o.instr = .live)
    (hr : noReset s = true) (haccept : ∀ k rest, s.inbox ≠ .accept k :: rest)
    (hsym : ∀ a rest, s.inbox ≠ .sym a :: rest) : step s = .next s := by
  unfold noReset at hr
  rw [step_of_stalled ho hl]
  unfold takeStalled
  cases hin : s.inbox with
  | nil => rfl
  | cons a rest =>
    rw [hin] at hr
    cases a with
    | rst | cmdRst => cases hr
    | cmd | cmdHold => rfl
    | accept k => exact absurd hin (haccept k rest)
    | sym c => exact absurd hin (hsym c rest)

/-! ### Where a step has no successor -/

/-- `o` is no fault, and is refused for a reason in `P` only. -/
def StopsOnly (P : Refusal → Prop) (o : Host.Outcome State Fault Refusal) : Prop :=
  (∀ f, o ≠ .fault f) ∧ ∀ r, o = .refused r → P r

theorem stopsOnly_next (P : Refusal → Prop) (t : State) : StopsOnly P (.next t) := ⟨nofun, nofun⟩

theorem stopsOnly_refused {P : Refusal → Prop} {r : Refusal} (h : P r) : StopsOnly P (.refused r) :=
  ⟨nofun, fun _ hr => Host.Outcome.refused.inj hr ▸ h⟩

theorem StopsOnly.mono {P Q : Refusal → Prop} {o : Host.Outcome State Fault Refusal} (h : StopsOnly P o)
    (hPQ : ∀ r, P r → Q r) : StopsOnly Q o :=
  ⟨h.1, fun r hr => hPQ r (h.2 r hr)⟩

/-- The host's acceptance stops nothing that would go on (R268). -/
theorem StopsOnly.acceptWords {P : Refusal → Prop} {o : Host.Outcome State Fault Refusal} (h : StopsOnly P o)
    (i : Instr) (n : Nat) : StopsOnly P (acceptWords i n o) := by
  cases o with
  | next t =>
    unfold Machine.acceptWords
    dsimp only
    split
    · exact stopsOnly_next P _
    · exact stopsOnly_next P _
  | fault f => exact h
  | refused r => exact h

/-- A refusal of a `STEP` in `Ready` at the largest `GEN` (U9; log 11). -/
def AtGenerationLimit (i : Instr) (s : State) (r : Refusal) : Prop :=
  r = .generationLimit ∧ i = .step ∧ s.state = .ready ∧ s.gen = BitVec.allOnes 64

/-- A command that is not accepted is answered (R240). -/
theorem stopsOnly_ite_raise {P : Refusal → Prop} {c : Prop} [Decidable c] {o : Host.Outcome State Fault Refusal}
    {s : State} (h : c → StopsOnly P o) : StopsOnly P (if c then o else .next (raise .illegalState s)) := by
  split
  · exact h ‹c›
  · exact stopsOnly_next P _

theorem stopsOnly_withBuffers {s : State} (hb : s.bufs.isSome = true) (P : Refusal → Prop) (t : State) :
    StopsOnly P (withBuffers s t) :=
  withBuffers_eq_next.2 ⟨hb, rfl⟩ ▸ stopsOnly_next P t

/-- Where a grid has its buffers a command stops at the generation limit only (U7, U9). -/
theorem exec_stopsOnly {s : State} (hb : s.state = .ready ∨ s.state = .terminated → s.bufs.isSome = true)
    (i : Instr) : StopsOnly (AtGenerationLimit i s) (exec i s) := by
  cases i with
  | newDead | newTorus => exact stopsOnly_next _ _
  | getGen | status => exact stopsOnly_ite_raise fun _ => stopsOnly_next _ _
  | getCell | live =>
    exact stopsOnly_ite_raise fun hacc => stopsOnly_withBuffers (hb (by simpa [accepts] using hacc)) _ _
  | step =>
    refine stopsOnly_ite_raise fun hacc => ?_
    have hs : s.state = .ready := by simpa [accepts] using hacc
    split
    · exact stopsOnly_refused ⟨rfl, rfl, hs, ‹_›⟩
    · exact stopsOnly_withBuffers (hb (.inl hs)) _ _

theorem Inv.exec_stopsOnly {s : State} (h : Inv s) (i : Instr) : StopsOnly (AtGenerationLimit i s) (exec i s) :=
  Machine.exec_stopsOnly h.bufs_isSome i

/-- The two grounds on which a step is refused: a `STEP` at the generation limit (U9; log 11), and a cell symbol that
no `NEW.*` asked for (R268; log 8). -/
def NamedGround (s : State) (r : Refusal) : Prop :=
  (r = .generationLimit ∧ s.state = .ready ∧ s.gen = BitVec.allOnes 64 ∧ s.outstanding = none ∧
    ∃ a c rest, s.inbox = a :: rest ∧ commandWord a = some c ∧ decode c = .instr .step) ∨
  (r = .unsolicitedSymbol ∧ (s.outstanding = none ∨ s.outstanding = some { instr := .live, cells := [] }) ∧
    ∃ c rest, s.inbox = .sym c :: rest)

theorem Inv.step_commandWord_stopsOnly {s : State} {a : HostAction} {c : Word} {rest : List HostAction} (h : Inv s)
    (ho : s.outstanding = none) (hin : s.inbox = a :: rest) (hc : commandWord a = some c) :
    StopsOnly (NamedGround s) (Machine.step s) := by
  cases hd : decode c with
  | illegal r => rw [step_illegal ho hin hc hd]; exact stopsOnly_next _ _
  | instr i =>
    have hexec : StopsOnly (NamedGround s) (exec i { s with inbox := rest }) := by
      refine ((h.of_inbox rest).exec_stopsOnly i).mono ?_
      rintro r ⟨hr, rfl, hs, hg⟩
      exact .inl ⟨hr, hs, hg, ho, a, c, rest, hin, hc, hd⟩
    rcases commandWord_eq_some hc with rfl | ⟨k, rfl⟩
    · rw [step_cmd ho hin, takeCommand_instr hd]
      exact hexec
    · rw [step_cmdHold ho hin, takeCommandHeld_instr hd]
      exact hexec.acceptWords i k

theorem Inv.step_noOutstanding_stopsOnly {s : State} (h : Inv s) (ho : s.outstanding = none)
    (hr : noReset s = true) : StopsOnly (NamedGround s) (Machine.step s) := by
  obtain ⟨hidle, haccept⟩ := idleBlockKeepsState s ho
  unfold noReset at hr
  cases hin : s.inbox with
  | nil => rw [hidle hin]; exact stopsOnly_next _ _
  | cons a rest =>
    rw [hin] at hr
    cases a with
    | rst | cmdRst => cases hr
    | cmd c => exact h.step_commandWord_stopsOnly ho hin rfl
    | cmdHold c k => exact h.step_commandWord_stopsOnly ho hin rfl
    | accept k => rw [haccept k rest hin]; exact stopsOnly_next _ _
    | sym c =>
      rw [step_of_noOutstanding ho]
      unfold takeAction
      rw [hin]
      exact stopsOnly_refused (.inr ⟨rfl, .inl ho, c, rest, hin⟩)

/-- A command other than `STEP` does not stop where the invariant holds (U7). -/
theorem Inv.exec_stopsOnly_of_ne_step {s : State} (h : Inv s) {i : Instr} (hi : i ≠ .step) (P : Refusal → Prop) :
    StopsOnly P (exec i s) :=
  (h.exec_stopsOnly i).mono fun _ ⟨_, hstep, _⟩ => absurd hstep hi

theorem Inv.step_stalled_stopsOnly {s : State} {o : Outstanding} (h : Inv s) (ho : s.outstanding = some o)
    (hl : o.instr = .live) (hr : noReset s = true) : StopsOnly (NamedGround s) (Machine.step s) := by
  by_cases haccept : ∃ k rest, s.inbox = .accept k :: rest
  · obtain ⟨k, rest, hin⟩ := haccept
    rw [step_accept_of_stalled ho hl hin]
    exact ((h.of_inbox rest).exec_stopsOnly_of_ne_step (by simp) _).acceptWords _ _
  by_cases hsym : ∃ c rest, s.inbox = .sym c :: rest
  · obtain ⟨c, rest, hin⟩ := hsym
    obtain ⟨rfl, -⟩ := h.waitsForHost ho hl
    rw [step_of_stalled ho hl]
    unfold takeStalled
    rw [hin]
    exact stopsOnly_refused (.inr ⟨rfl, .inr ho, c, rest, hin⟩)
  · rw [step_idle_of_stalled ho hl hr (by simpa using haccept) (by simpa using hsym)]
    exact stopsOnly_next _ _

theorem Inv.step_waiting_stopsOnly {s : State} {o : Outstanding} (h : Inv s) (ho : s.outstanding = some o)
    (hl : o.instr ≠ .live) (hr : noReset s = true) : StopsOnly (NamedGround s) (Machine.step s) := by
  obtain ⟨-, -, a, b, hnew⟩ := h.waitsForCells ho hl
  rw [step_of_waiting ho hl hr]
  exact h.exec_stopsOnly_of_ne_step (by rcases hnew with hi | hi <;> simp [hi]) _

theorem Inv.step_stopsOnly {s : State} (h : Inv s) : StopsOnly (NamedGround s) (Machine.step s) := by
  cases hr : noReset s with
  | false =>
    obtain ⟨t, ht⟩ := exists_step_of_reset hr
    rw [ht]
    exact stopsOnly_next _ _
  | true =>
    cases ho : s.outstanding with
    | none => exact h.step_noOutstanding_stopsOnly ho hr
    | some o =>
      by_cases hl : o.instr = .live
      · exact h.step_stalled_stopsOnly ho hl hr
      · exact h.step_waiting_stopsOnly ho hl hr

end Sys2Proof.Machine

namespace Sys2Proof.Claims

open Machine

/-- Settles O51: the reset state is what the reset input leaves of itself, on a legal machine. -/
theorem resetMeetsInvariant : Obligations.ResetMeetsInvariant :=
  inv_emit_resetInput (s := State.reset) legalHardware_hardware []

/-- Settles O9: either form of reset gives `resetInput`, whatever is outstanding. -/
theorem resetInputGivesResetState : Obligations.ResetInputGivesResetState := by
  intro s rest hreset
  refine ⟨resetInput { s with inbox := rest }, ?_, rfl, rfl, rfl, rfl, rfl, rfl, rfl, rfl, rfl, rfl, rfl, rfl, rfl⟩
  rcases hreset with hin | ⟨ho, c, k, hin⟩
  · exact step_rst hin
  · exact step_reset_of_outstanding ho (.inr ⟨c, k, rfl⟩) hin

/-- Settles O10: only an accepted `LIVE` has emitted words, and the end word is the one it has not. -/
theorem resetAbandonsCommand : Obligations.ResetAbandonsCommand := by
  intro s c k rest ho hin
  have hcases := emittedBefore_cases c k { s with inbox := rest }
  refine ⟨_, step_cmdRst ho hin, rfl, endWord_notMem_emittedBefore c k _, fun hd => ?_, fun _ hr ht => ?_,
    fun hd hs hb => emittedBefore_live (s := { s with inbox := rest }) hd hs hb k⟩
  · exact hcases.resolve_right fun ⟨hlive, _⟩ => hd hlive
  · exact hcases.resolve_right fun ⟨_, hs, _⟩ => hs.elim hr ht

/-- Settles O59: the port hands the `LIVE` to `exec` and lets out the words that the host accepts. -/
theorem liveWaitsForTheHost : Obligations.LiveWaitsForTheHost := by
  intro s c k rest ho hin hd hs hb
  rw [step_cmdHold ho hin, takeCommandHeld_instr hd]
  exact ⟨_, exec_live hs hb, acceptWords_live_of_lt hs hb, acceptWords_live_of_le hs hb⟩

/-- Settles O60: the invariant says what has left, and an acceptance runs the `LIVE` again up to its further words. -/
theorem heldLiveGoesOnAsTheHostAccepts : Obligations.HeldLiveGoesOnAsTheHostAccepts := by
  intro s h ho
  obtain ⟨-, hs, n, hn, hstream⟩ := h.waitsForHost ho rfl
  have hb := h.bufs_isSome hs
  have hresp : s.resp = none := (h.outstanding _ ho).1
  refine ⟨hresp, ⟨_, n, exec_live hs hb, hn, hstream⟩, fun k rest hin => ?_, step_idle_of_stalled ho rfl⟩
  rw [step_accept_of_stalled ho rfl hin]
  refine ⟨_, exec_live hs hb, fun hlt => ?_, acceptWords_live_of_le hs hb⟩
  rw [acceptWords_live_of_lt (s := { s with inbox := rest }) hs hb hlt, ← ho, ← hresp]
  rfl

/-- Settles O57: no command but `STEP` stops from the invariant, and the port refuses symbols only. -/
theorem stopsAreOnlyTheNamedOnes : Obligations.StopsAreOnlyTheNamedOnes := fun _ h => h.step_stopsOnly

end Sys2Proof.Claims
end
